-- ==== Sys2Proof/Word.lean ====
section
/-! DEFINITION. The word types of the CSE (spec/00_scope.md R9, R11, R13; 30_encoding.md R70, R76).
Bit 0 is the least significant bit of every word (R13); no operation is signed. -/

namespace Sys2Proof

/-- A 64-bit command word or response data word (30_encoding.md R70, R76). -/
abbrev Word := BitVec 64

/-- A 32-bit operand: a precision, a hash word or a bucket index (30_encoding.md R71). -/
abbrev Operand := BitVec 32

/-- One register-array entry, `REG_WIDTH = 6` bits (00_scope.md R11). -/
abbrev Entry := BitVec 6

/-- A byte of a 64-bit word that crosses a narrower path (20_memory.md R55). -/
abbrev Byte := BitVec 8

/-- The encoding `bits64` of an IEEE 754 binary64 number (00_scope.md R15): sign in bit 63, biased
exponent in bits 62:52, fraction in bits 51:0. -/
abbrev Machine.F64 := BitVec 64

end Sys2Proof
end

