-- ==== Sys2Proof/Config.lean ====
section
/-! DEFINITION. What a build of the CSE fixes (spec/00_scope.md R8 to R11, 92_eei_decisions.md "Open parameters"):
the one open parameter `P_MAX`, and the constants that are no parameters. -/

namespace Sys2Proof.Config

/-- `HASH_WIDTH` (R9). -/
def hashWidth : Nat := 32

/-- `ZERO_RANK` (R10): the rank of a zero high part, fixed. -/
def zeroRank : Nat := 32

/-- `REG_WIDTH` (R11). -/
def regWidth : Nat := 6

/-- The command-set version, CSE-1 (R1, 43_query.md R177). -/
def version : Nat := 1

/-- A build of the CSE: its one parameter `P_MAX`, held less one so that every value is legal,
`1 <= P_MAX <= 32` (R8). DESIGN CHOICE (log 1): every State carries its build and no step changes it,
so that a statement about every state is a statement about every build. -/
structure Build where
  pMaxLessOne : Fin 32
deriving DecidableEq, Repr

/-- `P_MAX`, the largest precision the build accepts (R8). -/
def Build.pMax (b : Build) : Nat := b.pMaxLessOne.val + 1

/-- The recommended build, `P_MAX = 16` (R8, 92_eei_decisions.md D3). DESIGN CHOICE (log 1). -/
def Build.recommended : Build := ⟨15⟩

end Sys2Proof.Config
end

