-- ==== Sys2Proof/Machine/State.lean ====
section
/-! DEFINITION. The state of the CSE as plain data (spec/10_state.md R36, with what R79, R80, R211 and R239 need
of the host), and its value after reset (R35, 70_reset_and_hazards.md R231). -/

namespace Sys2Proof.Machine

/-- The outcome of a command (60_exceptions.md R200). Codes 5 to 15 are never produced. -/
inductive Status where
  | ok
  | illegalCommand
  | configError
  | notConfigured
  | indexRange
deriving DecidableEq, Repr

/-- The one response of a command (30_encoding.md R76). -/
structure Response where
  status : Status
  data : Word
deriving DecidableEq, Repr

/-- The configuration record `CFG` (10_state.md R22 to R27). `CFG.M` is derived: `Cfg.m`. -/
structure Cfg where
  configured : Bool
  p : BitVec 6
  alpha : F64
  thresh : F64
deriving DecidableEq, Repr

/-- The register array `REG` (10_state.md R29): (index, entry) pairs, indices rising, no listed entry 0
(`Memory.wf`); an unlisted entry reads as 0 (logs 2, 3, 4). -/
abbrev Memory := List (Nat × Entry)

/-- What the CSE samples at one rising edge of `clk` (30_encoding.md R80), and `stall`: the command in flight has
not taken its atomic step by this edge. `stall` is the free choice of R79 item 2 and R240, how long a command
takes (DESIGN CHOICE, log 7). -/
structure Edge where
  rst : Bool
  cmdValid : Bool
  cmdData : Word
  rspReady : Bool
  stall : Bool
deriving DecidableEq, Repr

/-- The host's side of the channels: the inputs still to come, oldest first; the word it offered at the last edge
and the CSE did not take (30_encoding.md R79 item 5); and the responses it has taken, oldest first
(70_reset_and_hazards.md R239). The model's own fields (logs 5, 8, 9). -/
structure Env where
  edges : List Edge
  held : Option Word
  received : List Response
deriving DecidableEq, Repr

/-- The whole state: the tuple of 10_state.md R36 (`cfg`, `mem`, `busy`, `rspPending`), the command in flight that
R79 implies (log 6), the build (log 1) and the host's side. -/
structure State where
  build : Config.Build
  cfg : Cfg
  mem : Memory
  busy : Bool
  rspPending : Option Response
  inFlight : Option Word
  env : Env
deriving DecidableEq, Repr

/-- Why the machine stops. No command stops it: every error of the CSE is a response (60_exceptions.md R203). -/
inductive Fault where
  /-- Raised by `step` when the host offers another word while the word it offered at the last edge has not been
  taken: R79 item 5 says the host holds `cmd_data` stable, and R211 that what the host must do and does not do has
  no modelled step. Safe: the model stops where the hardware goes on (log 8). -/
  | hostChangedHeldCommand
deriving DecidableEq, Repr

/-- Why an instruction has no meaning. -/
inductive Refusal where
  /-- Raised by an arm of `exec` for an instruction that is not modelled. Safe. No arm raises it: every command has
  its meaning. -/
  | notModelled (mnemonic : String)
deriving DecidableEq, Repr

/-- The host's side with nothing offered, nothing held and nothing taken (DESIGN CHOICE, log 10). -/
def Env.initial : Env := { edges := [], held := none, received := [] }

/-- `CFG` after reset (10_state.md R35). `ALPHA` and `THRESH` are unspecified there and not observable; the model
names 0 (DESIGN CHOICE, log 2). -/
def Cfg.reset : Cfg := { configured := false, p := 0, alpha := 0, thresh := 0 }

/-- The state of build `b` right after reset, the host's side being `e` (10_state.md R35). The entries of `REG` are
unspecified there and not observable; the model lists none, so each reads 0 (DESIGN CHOICE, log 2). -/
def State.resetOf (b : Config.Build) (e : Env) : State :=
  { build := b, cfg := Cfg.reset, mem := [], busy := false, rspPending := none, inFlight := none, env := e }

/-- The machine right after reset: the recommended build (log 1), no input yet (log 10). -/
def State.reset : State := State.resetOf Config.Build.recommended Env.initial

end Sys2Proof.Machine
end

