-- ==== Sys2Proof/Machine/Ops.lean ====
section
/-! DEFINITION. The shared operations over the register array and the response (spec/00_scope.md R16, 20_memory.md,
30_encoding.md R76, 60_exceptions.md R203). -/

namespace Sys2Proof.Machine

/-! ## The register array -/

/-- What an unlisted entry reads as (logs 2, 3): 0, which is what INIT leaves (40_construct.md R102). -/
def Memory.unlisted : Entry := 0

/-- The canonical form: indices strictly rising, no listed entry equal to what an unlisted one reads as (log 4). -/
abbrev Memory.wf (m : Memory) : Prop :=
  m.Pairwise (fun a b => a.1 < b.1) ∧ ∀ c ∈ m, c.2 ≠ Memory.unlisted

/-- `REG[j]`, also written `MemRead(j, 1)` (R16). -/
def Memory.read : Memory → Nat → Entry
  | [], _ => Memory.unlisted
  | (k, v) :: rest, j => if k = j then v else Memory.read rest j

/-- `REG[j] <- v`, also written `MemWrite(j, 1, v)` (R16); the canonical form is kept. -/
def Memory.write : Memory → Nat → Entry → Memory
  | [], j, v => if v = Memory.unlisted then [] else [(j, v)]
  | (k, u) :: rest, j, v =>
    if j < k then
      if v = Memory.unlisted then (k, u) :: rest else (j, v) :: (k, u) :: rest
    else if j = k then
      if v = Memory.unlisted then rest else (j, v) :: rest
    else (k, u) :: Memory.write rest j v

/-- `for j in 0 .. bound-1: REG[j] <- 0`; entries at `bound` and above are not written (40_construct.md R102). -/
def Memory.clearBelow (m : Memory) (bound : Nat) : Memory := m.filter (fun c => decide (bound ≤ c.1))

/-- The sum of `f base, f (base + 1), …`, over `2^k` consecutive indices. A sum over the register array is one over
`0 .. 2^p - 1`; cutting it in halves keeps its depth `p`. -/
def sumPow2 (f : Nat → Nat) : Nat → Nat → Nat
  | 0, base => f base
  | k + 1, base => sumPow2 f k base + sumPow2 f k (base + 2 ^ k)

/-! ## The configuration -/

/-- The precision `CFG.P` as an integer (10_state.md R23). -/
def Cfg.precision (c : Cfg) : Nat := c.p.toNat

/-- `CFG.M`, the register count `2^CFG.P` (10_state.md R24). -/
def Cfg.m (c : Cfg) : Nat := 2 ^ c.precision

/-! ## The response -/

/-- `respond(status, data)`: the command's single response (R16, R79 item 2). The command is no longer in flight;
`BUSY` stays 1 until the host takes the response. -/
def respond (status : Status) (data : Word) (s : State) : Host.Outcome State Fault Refusal :=
  .next { s with rspPending := some { status := status, data := data }, inFlight := none }

/-- `raise <Error>`: respond with the error's code and data 0, and change no other state (60_exceptions.md R203). There
is no trap, nothing is saved, and the next command is independent of it (R209, R210). -/
def raiseError (status : Status) (s : State) : Host.Outcome State Fault Refusal :=
  respond status 0 s

/-- The check of the commands that need a sketch: NOT_CONFIGURED when `CFG.CONFIGURED = 0`, else go on
(60_exceptions.md R201). -/
def withSketch (s : State) (go : Host.Outcome State Fault Refusal) : Host.Outcome State Fault Refusal :=
  if s.cfg.configured then go else raiseError .notConfigured s

end Sys2Proof.Machine
end

