-- ==== Sys2Proof/Machine/Float.lean ====
section
/-! DEFINITION. The binary64 arithmetic of spec/00_scope.md R15: every operation is the exact real result rounded
once, to nearest, ties to even. Exact values are fractions of natural numbers: no number of the spec is negative
(R13, 42_estimate.md R151).

Encodings that no run reaches (sign bit 1, infinities, NaN) get no IEEE meaning: `F64.value` leaves the sign out and
reads the largest exponent as one more binade (log 12). -/

namespace Sys2Proof.Machine

/-- The exact non-negative number `num / den`, not reduced. -/
structure Ratio where
  num : Nat
  den : Nat
deriving DecidableEq, Repr

/-- The integer `n`. -/
def Ratio.ofNat (n : Nat) : Ratio := { num := n, den := 1 }

def Ratio.add (a b : Ratio) : Ratio := { num := a.num * b.den + b.num * a.den, den := a.den * b.den }

def Ratio.mul (a b : Ratio) : Ratio := { num := a.num * b.num, den := a.den * b.den }

def Ratio.div (a b : Ratio) : Ratio := { num := a.num * b.den, den := a.den * b.num }

/-- `num / den` to the nearest integer, ties to even. -/
def roundHalfEven (num den : Nat) : Nat :=
  if 2 * (num % den) < den then num / den
  else if den < 2 * (num % den) then num / den + 1
  else num / den + (num / den) % 2

/-- Binary64 numbers are multiples of `2^-1074`, the least subnormal. -/
@[irreducible] def F64.unitExp : Nat := 1074

/-- The encoding of positive infinity, what a result past the largest finite number rounds to. -/
def F64.infinityBits : Nat := 0x7FF0000000000000

/-- How many bits of the value `r`, counted in units of `2^-1074`, lie below its 53 significant bits. -/
def F64.excessBits (r : Ratio) : Nat := Nat.log2 (r.num * 2 ^ F64.unitExp / r.den) + 1 - 53

/-- `bits64(f64(r))`: `r` rounded to binary64 by RNE (R15). With `M` the rounded significand and `e` the number of
excess bits, `e * 2^52 + M` is the encoding, subnormal, normal, and where `M` carries to `2^53`. -/
def f64 (r : Ratio) : F64 :=
  let e := F64.excessBits r
  BitVec.ofNat 64
    (min (e * 2 ^ 52 + roundHalfEven (r.num * 2 ^ F64.unitExp) (r.den * 2 ^ e)) F64.infinityBits)

/-- The biased exponent, bits 62:52. -/
def F64.exponent (a : F64) : Nat := a.toNat / 2 ^ 52 % 2 ^ 11

/-- The fraction, bits 51:0. -/
def F64.fraction (a : F64) : Nat := a.toNat % 2 ^ 52

/-- The number an encoding stands for, in units of `2^-1074`. -/
def F64.units (a : F64) : Nat :=
  if a.exponent = 0 then a.fraction else (2 ^ 52 + a.fraction) * 2 ^ (a.exponent - 1)

/-- The exact number an encoding stands for. -/
def F64.value (a : F64) : Ratio := { num := a.units, den := 2 ^ F64.unitExp }

/-- `lit(n / d)`: the binary64 number nearest to a decimal literal (R15). -/
def lit (n d : Nat) : F64 := f64 { num := n, den := d }

/-- `f64(n)` of an integer. -/
def f64OfNat (n : Nat) : F64 := f64 (Ratio.ofNat n)

/-- `a (+) b` (R15). -/
def fadd (a b : F64) : F64 := f64 (a.value.add b.value)

/-- `a (*) b` (R15). -/
def fmul (a b : F64) : F64 := f64 (a.value.mul b.value)

/-- `a (/) b` (R15). -/
def fdiv (a b : F64) : F64 := f64 (a.value.div b.value)

/-- `a <=f b` (R15); its operands are never NaN (42_estimate.md R147). -/
def fle (a b : F64) : Bool := decide (a.units ≤ b.units)

end Sys2Proof.Machine
end

