-- ==== Sys2Proof/Syntax.lean ====
section
/-! DEFINITION. The five commands of the CSE, one constructor per row of spec/opcode_table.json
(30_encoding.md R71, R73). -/

namespace Sys2Proof

/-- A decoded command. Every operand is the unsigned value of its field (30_encoding.md R72). -/
inductive Instr where
  /-- `INIT p`: construct a sketch of precision `p` (40_construct.md R100). -/
  | init (p : Operand)
  /-- `OBSERVE x`: fold the hash word `x` into the sketch (41_observe.md R120). -/
  | observe (x : Operand)
  /-- `ESTIMATE`: the current cardinality estimate (42_estimate.md R140). -/
  | estimate
  /-- `READ_REG j`: read register-array entry `j` (43_query.md R170). -/
  | readReg (j : Operand)
  /-- `INFO sel`: read an information word; `sel` is the whole `SEL` field, legal 0 to 3 (43_query.md R173). -/
  | info (sel : BitVec 8)
deriving DecidableEq, Repr

end Sys2Proof
end

