-- ==== Sys2Proof/Machine/Construct.lean ====
section
/-! DEFINITION. INIT (spec/40_construct.md). -/

namespace Sys2Proof.Machine

/-- `alpha(p)`: the three-way split on `p`, its third branch in binary64 with one rounding an operation, in the
order written (R103). -/
def alphaOf (p : Nat) : F64 :=
  if p ≤ 16 then lit 673 1000
  else if p = 32 then lit 697 1000
  else fdiv (lit 7213 10000) (fadd (f64OfNat 1) (fdiv (lit 1079 1000) (f64OfNat (2 ^ p))))

/-- The small-range threshold `lit(2.5) (*) f64(2^p)` (R104). -/
def thresholdOf (p : Nat) : F64 := fmul (lit 25 10) (f64OfNat (2 ^ p))

/-- The precision check `1 <= p <= P_MAX`, on all 32 bits of the operand (R101, 30_encoding.md R72). -/
def precisionOk (b : Config.Build) (p : Operand) : Bool := decide (1 ≤ p.toNat ∧ p.toNat ≤ b.pMax)

/-- The configuration a successful `INIT p` writes (R100). -/
def Cfg.construct (p : Operand) : Cfg :=
  { configured := true, p := BitVec.ofNat 6 p.toNat, alpha := alphaOf p.toNat, thresh := thresholdOf p.toNat }

/-- `INIT p`: a new sketch of precision `p`, or CONFIG_ERROR and nothing else (R100, R105, R106). -/
def execInit (p : Operand) (s : State) : Host.Outcome State Fault Refusal :=
  if precisionOk s.build p then
    respond .ok 0 { s with cfg := Cfg.construct p, mem := Memory.clearBelow s.mem (2 ^ p.toNat) }
  else raiseError .configError s

end Sys2Proof.Machine
end

