-- ==== Sys2Proof/Machine/Log.lean ====
section
/-! DEFINITION. The correctly rounded natural logarithm `ln64` of spec/42_estimate.md R150.

With `a = 2^k * t`, `1 <= t < 2` and `z = (t - 1) / (t + 1)`, `ln a = k * ln 2 + 2 * atanh z` and `ln 2 = 2 * atanh (1/3)`.
A partial sum of the series of atanh is below it and the sum with a geometric tail is above it, both exact fractions.
`ln64` takes the first number of terms, doubling it, at which both bounds round to one binary64 number: that number
is then the rounding of the logarithm. How the rule is computed is the model's own (log 13). -/

namespace Sys2Proof.Machine

/-- `1/(2i+1) + w/(2i+3) + … ` with `n` terms, `w = u^2 / v^2`, by Horner's rule. -/
def atanhHorner (u v : Nat) : Nat → Nat → Ratio
  | 0, _ => { num := 0, den := 1 }
  | n + 1, i =>
    Ratio.add { num := 1, den := 2 * i + 1 } (Ratio.mul { num := u * u, den := v * v } (atanhHorner u v n (i + 1)))

/-- A lower bound of `2 * atanh (u/v)`: twice the first `n` terms of its series. -/
def twoAtanhLower (u v n : Nat) : Ratio :=
  Ratio.mul { num := 2 * u, den := v } (atanhHorner u v n 0)

/-- A bound of what the first `n` terms leave out of `2 * atanh (u/v)`: `2 z^(2n+1) / ((2n+1) (1 - z^2))`. -/
def twoAtanhTail (u v n : Nat) : Ratio :=
  { num := 2 * u ^ (2 * n + 1) * (v * v), den := (2 * n + 1) * v ^ (2 * n + 1) * (v * v - u * u) }

/-- An upper bound of `2 * atanh (u/v)`. -/
def twoAtanhUpper (u v n : Nat) : Ratio := Ratio.add (twoAtanhLower u v n) (twoAtanhTail u v n)

/-- `k` with `2^k <= a < 2^(k+1)`, for a normal `a >= 1`. -/
def F64.binade (a : F64) : Nat := a.exponent - 1023

/-- `ln a` from below, with `n` terms of each series: `z = fraction / (2^53 + fraction)`. -/
def lnLower (a : F64) (n : Nat) : Ratio :=
  Ratio.add (Ratio.mul (Ratio.ofNat a.binade) (twoAtanhLower 1 3 n))
    (twoAtanhLower a.fraction (2 ^ 53 + a.fraction) n)

/-- `ln a` from above, with `n` terms of each series. -/
def lnUpper (a : F64) (n : Nat) : Ratio :=
  Ratio.add (Ratio.mul (Ratio.ofNat a.binade) (twoAtanhUpper 1 3 n))
    (twoAtanhUpper a.fraction (2 ^ 53 + a.fraction) n)

/-- Both bounds with `n` terms round to one number. -/
def lnSettled (a : F64) (n : Nat) : Bool := f64 (lnLower a n) == f64 (lnUpper a n)

/-- The rounded logarithm at the first of `n, 2n, 4n, …` terms that settles it. -/
def lnSearch (a : F64) : Nat → Nat → F64
  | 0, n => f64 (lnLower a n)
  | fuel + 1, n => if lnSettled a n then f64 (lnLower a n) else lnSearch a fuel (2 * n)

/-- How often the number of terms may double. `32 * 2^8192` terms are more than any argument needs (log 13). -/
def lnDoublings : Nat := 8192

/-- The number of terms tried first. -/
def lnFirstTerms : Nat := 32

/-- `ln64(a)` for `1 <= a <= 2^32`: the natural logarithm rounded by RNE (R150). -/
def ln64 (a : F64) : F64 := lnSearch a lnDoublings lnFirstTerms

end Sys2Proof.Machine
end

