-- ==== Sys2Proof/Machine/Estimate.lean ====
section
/-! DEFINITION. ESTIMATE (spec/42_estimate.md). -/

namespace Sys2Proof.Machine

/-- `Zfx = sum over j in 0..m-1 of 2^(32 - REG[j])`, exact (R142). An entry above 32, which no run reaches, counts
as 32 (log 19). -/
def harmonicFx (p : Nat) (m : Memory) : Nat := sumPow2 (fun j => 2 ^ (32 - (Memory.read m j).toNat)) p 0

/-- `Z64 = f64(Zfx / 2^32)`, one rounding (R143). -/
def harmonic64 (p : Nat) (m : Memory) : F64 := f64 { num := harmonicFx p m, den := 2 ^ 32 }

/-- `N = (alpha (*) f64(m)) (*) f64(m)` (R144). -/
def numerator (c : Cfg) : F64 := fmul (fmul c.alpha (f64OfNat c.m)) (f64OfNat c.m)

/-- `E = N (/) Z64` (R145). -/
def rawEstimate (c : Cfg) (m : Memory) : F64 := fdiv (numerator c) (harmonic64 c.precision m)

/-- `V`, the number of entries `j < m` that are 0 (R148). -/
def zeroCount (p : Nat) (m : Memory) : Nat := sumPow2 (fun j => if Memory.read m j = 0 then 1 else 0) p 0

/-- Linear counting, `f64(m) (*) ln64(f64(m) (/) f64(V))` (R149). -/
def linearCount (m v : Nat) : F64 := fmul (f64OfNat m) (ln64 (fdiv (f64OfNat m) (f64OfNat v)))

/-- `bits64(result)` (R149, R151): linear counting when `E <=f T` and `V > 0`, else `E`. -/
def estimateBits (c : Cfg) (m : Memory) : F64 :=
  if fle (rawEstimate c m) c.thresh && decide (0 < zeroCount c.precision m) then
    linearCount c.m (zeroCount c.precision m)
  else rawEstimate c m

/-- `ESTIMATE`: a pure read of the sketch (R140, R141). -/
def execEstimate (s : State) : Host.Outcome State Fault Refusal :=
  withSketch s (respond .ok (estimateBits s.cfg s.mem) s)

end Sys2Proof.Machine
end

