-- ==== Sys2Proof/Machine/Operands.lean ====
section
/-! DEFINITION. What a command makes of its operand (spec/00_scope.md R14, 30_encoding.md R72, 41_observe.md R122 to
R124): all on non-negative integers, nothing sign-extended, scaled or truncated. -/

namespace Sys2Proof.Machine

/-- `bit_length(w)`: the least `k` with `w < 2^k` (00_scope.md R14). -/
def bitLength (w : Nat) : Nat := if w = 0 then 0 else Nat.log2 w + 1

/-- `j = x & (m - 1)` for `m = 2^p`: the low `p` bits of the hash word (41_observe.md R122). -/
def bucketIndex (p : Nat) (x : Operand) : Nat := x.toNat &&& (2 ^ p - 1)

/-- `w = x >> p`, 0 when `p` is the full width (41_observe.md R123). -/
def highBits (p : Nat) (x : Operand) : Nat := x.toNat >>> p

/-- `rank(w)`: `ZERO_RANK` for 0, else the bit length (41_observe.md R124, 90_conflicts.md C1, C2). -/
def rank (w : Nat) : Nat := if w = 0 then Config.zeroRank else bitLength w

/-- The rank of a hash word at precision `p`, as a register-array entry. -/
def hashRank (p : Nat) (x : Operand) : Entry := BitVec.ofNat 6 (rank (highBits p x))

/-- `max(a, b)` of two entries (00_scope.md R14). -/
def entryMax (a b : Entry) : Entry := if a.toNat < b.toNat then b else a

end Sys2Proof.Machine
end

