-- ==== Sys2Proof/Machine/Observe.lean ====
section
/-! DEFINITION. OBSERVE (spec/41_observe.md). -/

namespace Sys2Proof.Machine

/-- `REG[j] <- max(REG[j], rank(w))` for the hash word `x` at precision `p` (R122 to R125): one indivisible
read-modify-write (20_memory.md R53). -/
def observeUpdate (p : Nat) (x : Operand) (m : Memory) : Memory :=
  Memory.write m (bucketIndex p x) (entryMax (Memory.read m (bucketIndex p x)) (hashRank p x))

/-- `OBSERVE x`: fold one hash word into the sketch (R120). -/
def execObserve (x : Operand) (s : State) : Host.Outcome State Fault Refusal :=
  withSketch s (respond .ok 0 { s with mem := observeUpdate s.cfg.precision x s.mem })

end Sys2Proof.Machine
end

