-- ==== Sys2Proof/Machine/Query.lean ====
section
/-! DEFINITION. READ_REG and INFO (spec/43_query.md). Neither changes state (R171, R178). -/

namespace Sys2Proof.Machine

/-- `READ_REG j`: one entry, zero-extended; INDEX_RANGE for `j >= m`, on all 32 bits of `j` (R170). -/
def execReadReg (j : Operand) (s : State) : Host.Outcome State Fault Refusal :=
  withSketch s
    (if s.cfg.m ≤ j.toNat then raiseError .indexRange s
     else respond .ok ((Memory.read s.mem j.toNat).setWidth 64) s)

/-- `info0()`: bit 0 `CFG.CONFIGURED`, bits 13:8 `CFG.P`, every other bit 0 (R174). -/
def info0 (c : Cfg) : Word := BitVec.ofNat 64 (c.configured.toNat + 2 ^ 8 * c.precision)

/-- `info3()`: the build (R177). -/
def info3 (b : Config.Build) : Word :=
  BitVec.ofNat 64
    (b.pMax + 2 ^ 8 * Config.hashWidth + 2 ^ 16 * Config.zeroRank + 2 ^ 24 * Config.regWidth
      + 2 ^ 56 * Config.version)

/-- `INFO sel` (R173). A selector above 3 has no encoding; on such a term the meaning is the answer its word gets,
ILLEGAL_COMMAND (60_exceptions.md R200; log 14). -/
def execInfo (sel : BitVec 8) (s : State) : Host.Outcome State Fault Refusal :=
  if sel.toNat = 0 then respond .ok (info0 s.cfg) s
  else if sel.toNat = 1 then withSketch s (respond .ok s.cfg.alpha s)
  else if sel.toNat = 2 then withSketch s (respond .ok s.cfg.thresh s)
  else if sel.toNat = 3 then respond .ok (info3 s.build) s
  else raiseError .illegalCommand s

end Sys2Proof.Machine
end

