-- ==== Sys2Proof/Machine/Dispatch.lean ====
section
/-! DEFINITION. One arm per command (spec/30_encoding.md R73). -/

namespace Sys2Proof.Machine

def exec (i : Instr) (s : State) : Host.Outcome State Fault Refusal :=
  match i with
  | .init p => Sys2Proof.Machine.execInit p s
  | .observe x => Sys2Proof.Machine.execObserve x s
  | .estimate => Sys2Proof.Machine.execEstimate s
  | .readReg j => Sys2Proof.Machine.execReadReg j s
  | .info sel => Sys2Proof.Machine.execInfo sel s

end Sys2Proof.Machine
end

