-- ==== Sys2Proof/WellFormed.lean ====
section
/-! DEFINITION. Which terms of `Instr` a command word can hold (spec/30_encoding.md R71, R73): every 32-bit operand
is encodable, and INFO takes selectors 0 to 3. A precision or an index out of its legal range is encodable: it
is answered with an error status, not rejected by the decoder (R72, R84). -/

namespace Sys2Proof

/-- The selector check of INFO: `SEL` is in `0..3` (30_encoding.md R71). -/
def Instr.selectorInRange : Instr → Bool
  | .init _ => true
  | .observe _ => true
  | .estimate => true
  | .readReg _ => true
  | .info sel => decide (sel.toNat ≤ 3)

/-- The instruction has an encoding. -/
def Instr.wellFormed (i : Instr) : Bool := i.selectorInRange

end Sys2Proof
end

