-- ==== Sys2Proof/Decode.lean ====
section
/-! DEFINITION. The decoder and the encoder of spec/30_encoding.md (R70 to R75, R81), and the byte order of a word
that crosses a narrower path (20_memory.md R55). -/

namespace Sys2Proof

/-- Why a word is ILLEGAL (30_encoding.md R74, R75), or why bytes hold no command word at all. -/
inductive Illegal where
  /-- Fewer than the eight bytes of a command word (R81). -/
  | truncated
  /-- Opcode `0x00` or `0x06 .. 0xFF`. -/
  | reservedOpcode
  /-- Non-zero `RSVD`. -/
  | reservedBits
  /-- Non-zero `SEL` of a command other than INFO. -/
  | selectorNotZero
  /-- INFO with `SEL` above 3. -/
  | selectorRange
  /-- ESTIMATE or INFO with non-zero `OPERAND`. -/
  | operandNotZero
deriving DecidableEq, Repr

/-- `OPC`, bits 63:56 (R70). -/
def opcField (c : Word) : BitVec 8 := c.extractLsb' 56 8

/-- `SEL`, bits 55:48 (R70). -/
def selField (c : Word) : BitVec 8 := c.extractLsb' 48 8

/-- `RSVD`, bits 47:32 (R70). -/
def rsvdField (c : Word) : BitVec 16 := c.extractLsb' 32 16

/-- `OPERAND`, bits 31:0 (R70). -/
def operandField (c : Word) : Operand := c.extractLsb' 0 32

/-- The decoder, total on every word, its checks in the order of R74. -/
def decode (c : Word) : Except Illegal Instr :=
  if rsvdField c ≠ 0 then .error .reservedBits
  else if opcField c = 0x01 then
    if selField c ≠ 0 then .error .selectorNotZero else .ok (.init (operandField c))
  else if opcField c = 0x02 then
    if selField c ≠ 0 then .error .selectorNotZero else .ok (.observe (operandField c))
  else if opcField c = 0x03 then
    if selField c ≠ 0 then .error .selectorNotZero
    else if operandField c ≠ 0 then .error .operandNotZero else .ok .estimate
  else if opcField c = 0x04 then
    if selField c ≠ 0 then .error .selectorNotZero else .ok (.readReg (operandField c))
  else if opcField c = 0x05 then
    if (selField c).toNat > 3 then .error .selectorRange
    else if operandField c ≠ 0 then .error .operandNotZero else .ok (.info (selField c))
  else .error .reservedOpcode

/-- The four fields of CMD64 put together (R70). -/
def packFields (opc sel : BitVec 8) (rsvd : BitVec 16) (opnd : Operand) : Word :=
  ((opc ++ sel) ++ rsvd) ++ opnd

/-- The command word of an instruction (R71, R73, R82). -/
def encode : Instr → Word
  | .init p => packFields 0x01 0 0 p
  | .observe x => packFields 0x02 0 0 x
  | .estimate => packFields 0x03 0 0 0
  | .readReg j => packFields 0x04 0 0 j
  | .info sel => packFields 0x05 sel 0 0

/-- One row of the opcode map of R73: a word selects the row when `(c & mask) = pattern`. -/
structure OpcodeRow where
  mnemonic : String
  pattern : Word
  mask : Word
deriving DecidableEq, Repr

/-- The opcode map of R73. -/
def opcodeTable : List OpcodeRow :=
  [ ⟨"INIT", 0x0100000000000000, 0xFFFFFFFF00000000⟩,
    ⟨"OBSERVE", 0x0200000000000000, 0xFFFFFFFF00000000⟩,
    ⟨"ESTIMATE", 0x0300000000000000, 0xFFFFFFFFFFFFFFFF⟩,
    ⟨"READ_REG", 0x0400000000000000, 0xFFFFFFFF00000000⟩,
    ⟨"INFO", 0x0500000000000000, 0xFFFCFFFFFFFFFFFF⟩ ]

/-- The word selects the row (R73). -/
def OpcodeRow.selects (r : OpcodeRow) (c : Word) : Bool := c &&& r.mask == r.pattern

/-- Byte `k` of a word: bits `8k+7 : 8k` (20_memory.md R55). -/
def byteOf (c : Word) (k : Nat) : Byte := c.extractLsb' (8 * k) 8

/-- The eight bytes of a word on a byte-wide path, byte 0 first (R55). DEDUCED (log 17). -/
def wordBytes (c : Word) : List Byte := (List.range 8).map (byteOf c)

/-- A 64-bit word put together from its eight bytes, byte 0 first (R55). -/
def wordOfBytes (b0 b1 b2 b3 b4 b5 b6 b7 : Byte) : Word :=
  b7 ++ (b6 ++ (b5 ++ (b4 ++ (b3 ++ (b2 ++ (b1 ++ b0))))))

/-- The decoder on bytes: one command word and the bytes that follow it (R55, R81). -/
def decodeBytes : List Byte → Except Illegal (Instr × List Byte)
  | b0 :: b1 :: b2 :: b3 :: b4 :: b5 :: b6 :: b7 :: rest =>
    match decode (wordOfBytes b0 b1 b2 b3 b4 b5 b6 b7) with
    | .ok i => .ok (i, rest)
    | .error e => .error e
  | _ => .error .truncated

/-- The bytes of an instruction on a byte-wide path. -/
def encodeBytes (i : Instr) : List Byte := wordBytes (encode i)

/-- The word whose bits 0 to `nbits - 1` are those of `w`, every other bit 0. -/
def tableWord (nbits w : Nat) : Word := BitVec.ofNat 64 (w % 2 ^ nbits)

/-- What the decoder reads from the opcode-table bits `w`. -/
def decodeTableWord (nbits w : Nat) : Option Instr :=
  match decode (tableWord nbits w) with
  | .ok i => some i
  | .error _ => none

end Sys2Proof
end

