-- ==== Sys2Proof/Machine/Flags.lean ====
section
/-! DEFINITION. The CSE has no flags (spec/10_state.md R28): what stands for them is the STATUS of a response. Its
codes (60_exceptions.md R200) and the output ports that show the state (30_encoding.md R80). -/

namespace Sys2Proof.Machine

/-- The 4-bit code of a status (R200). -/
def Status.code : Status → BitVec 4
  | .ok => 0
  | .illegalCommand => 1
  | .configError => 2
  | .notConfigured => 3
  | .indexRange => 4

/-- `cmd_ready`: `NOT BUSY`, and 0 at an edge with `rst = 1` (R80, 70_reset_and_hazards.md R230). -/
def State.cmdReady (s : State) (rst : Bool) : Bool := !rst && !s.busy

/-- `rsp_valid`: `RSP_PENDING` is not empty, and 0 at an edge with `rst = 1` (R80, R230). -/
def State.rspValid (s : State) (rst : Bool) : Bool := !rst && s.rspPending.isSome

/-- `rsp_status`; no value while `rsp_valid = 0` (R80; log 15). -/
def State.rspStatus (s : State) (rst : Bool) : Option (BitVec 4) :=
  if s.rspValid rst then s.rspPending.map (fun r => r.status.code) else none

/-- `rsp_data`; no value while `rsp_valid = 0` (R80; log 15). -/
def State.rspData (s : State) (rst : Bool) : Option Word :=
  if s.rspValid rst then s.rspPending.map (fun r => r.data) else none

end Sys2Proof.Machine
end

