-- ==== Sys2Proof/Machine/Interface.lean ====
section
/-! DEFINITION. The command and response channels at one rising edge of `clk` (spec/30_encoding.md R79, R80;
70_reset_and_hazards.md R230 to R232; 60_exceptions.md R211, R217). -/

namespace Sys2Proof.Machine

/-- An edge at which the host drives nothing: `rst`, `cmd_valid` and `rsp_ready` are 0, and a command in flight takes
its step. -/
def Edge.quiet : Edge := { rst := false, cmdValid := false, cmdData := 0, rspReady := false, stall := false }

/-- The host offers the word `w`. -/
def Edge.offer (w : Word) : Edge := { Edge.quiet with cmdValid := true, cmdData := w }

/-- The host can accept a response. -/
def Edge.take : Edge := { Edge.quiet with rspReady := true }

/-- Reset is asserted. -/
def Edge.resetOn : Edge := { Edge.quiet with rst := true }

/-- The command in flight does not take its step by this edge. -/
def Edge.stalled : Edge := { Edge.quiet with stall := true }

/-- The inputs at the coming edge; where none is left, the host drives nothing (log 5). -/
def State.nextEdge (s : State) : Edge := s.env.edges.headD Edge.quiet

/-- The word the host must hold after the edge `e`: what it offered and the CSE did not take (R79 item 5). -/
def heldAfter (e : Edge) (s : State) : Option Word :=
  if e.cmdValid && !s.cmdReady e.rst then some e.cmdData else none

/-- The state with the coming edge consumed: nothing but the host's side changes. -/
def State.advance (s : State) : State :=
  { s with env := { s.env with edges := s.env.edges.tail, held := heldAfter s.nextEdge s } }

/-- The host offers another word while the one it offered before is not taken (R79 item 5). -/
def holdBroken (e : Edge) (s : State) : Bool :=
  match s.env.held with
  | some w => e.cmdValid && !(e.cmdData == w)
  | none => false

/-- What one rising edge does. -/
inductive EdgeAction where
  /-- `rst = 1` (R230, R232). -/
  | reset
  /-- The host broke R79 item 5. -/
  | holdBroken
  /-- The host takes the response (R79 item 3). -/
  | transfer (r : Response)
  /-- The command in flight takes its atomic step (R79 item 2). -/
  | execute (w : Word)
  /-- A command is accepted (R79 item 1). -/
  | accept (w : Word)
  /-- Nothing: the CSE keeps all state (R217; R79 item 5). -/
  | wait
deriving DecidableEq, Repr

/-- Which of them the edge `e` does in the state `s`. Reset overrides everything (R230, R232). -/
def edgeAction (e : Edge) (s : State) : EdgeAction :=
  if e.rst then .reset
  else if Sys2Proof.Machine.holdBroken e s then .holdBroken
  else
    match s.rspPending, s.inFlight with
    | some r, _ => if e.rspReady then .transfer r else .wait
    | none, some w => if e.stall then .wait else .execute w
    | none, none => if e.cmdValid && s.cmdReady e.rst then .accept e.cmdData else .wait

/-- Every piece of the CSE's state at its reset value, whatever the state was; the build and the host's side stay
(R230 to R233; logs 11, 18). -/
def resetState (s : State) : State := State.resetOf s.build s.env

/-- Acceptance of the word `w`: `BUSY <- 1` (R79 item 1). -/
def acceptCommand (w : Word) (s : State) : State := { s with busy := true, inFlight := some w }

/-- The transfer of the response `r`: `RSP_PENDING` is emptied, `BUSY <- 0` (R79 item 3). -/
def takeResponse (r : Response) (s : State) : State :=
  { s with busy := false, rspPending := none, env := { s.env with received := s.env.received ++ [r] } }

/-- The state in which the word `w` is in flight and the coming edge runs it: `w` has been accepted, no response is
pending, and the coming edge is a quiet one (log 10). -/
def State.withInFlight (s : State) (w : Word) : State :=
  { s with busy := true, rspPending := none, inFlight := some w,
           env := { s.env with edges := Edge.quiet :: s.env.edges } }

end Sys2Proof.Machine
end

