-- ==== Sys2Proof/Machine/Run.lean ====
section
/-! DEFINITION. What a rising edge does to the whole state (spec/30_encoding.md R79). -/

namespace Sys2Proof.Machine

/-- The atomic step of the command word `w` (20_memory.md R53): the decoded command, or ILLEGAL_COMMAND
(30_encoding.md R74, 60_exceptions.md R202). -/
def runWord (w : Word) (s : State) : Host.Outcome State Fault Refusal :=
  match decode w with
  | .ok i => exec i s
  | .error _ => raiseError .illegalCommand s

/-- The coming edge is consumed, and what it does (`edgeAction`) is done. -/
def edgeStep (s : State) : Host.Outcome State Fault Refusal :=
  match edgeAction s.nextEdge s with
  | .reset => .next (resetState s.advance)
  | .holdBroken => .fault .hostChangedHeldCommand
  | .transfer r => .next (takeResponse r s.advance)
  | .execute w => runWord w s.advance
  | .accept w => .next (acceptCommand w s.advance)
  | .wait => .next s.advance

end Sys2Proof.Machine
end

