-- ==== Sys2Proof/Machine/Step.lean ====
section
/-! DEFINITION. One step of the machine: one rising edge of `clk` (spec/30_encoding.md R79). -/

namespace Sys2Proof.Machine

/-- One rising edge. -/
def step (s : State) : Host.Outcome State Fault Refusal := edgeStep s

/-- The state with the opcode-table bits `w` in flight, so that the next step runs them (log 10). -/
def State.withFetchWord (s : State) (nbits w : Nat) : State := s.withInFlight (tableWord nbits w)

end Sys2Proof.Machine
end

