-- ==== Sys2Proof/Machine/Assembler.lean ====
section
/-! DEFINITION. The textual form of a command (spec/30_encoding.md R82 to R84), on lists of characters: a mnemonic in
upper case, at most one operand in decimal or in hexadecimal after `0x`, and a comment after `;`. Reserved encodings
have no text (R82) and there are no pseudo-instructions (R83). White space is blanks and tabs, and a hexadecimal digit
may be of either case (DESIGN CHOICE, log 16). -/

namespace Sys2Proof

/-- The text before the first `;`. -/
def dropComment : List Char → List Char
  | [] => []
  | c :: cs => if c = ';' then [] else c :: dropComment cs

def isBlank (c : Char) : Bool := c == ' ' || c == '\t'

/-- The words of a line, `acc` being the word read so far, last character first. -/
def splitBlanks : List Char → List Char → List (List Char)
  | acc, [] => if acc.isEmpty then [] else [acc.reverse]
  | acc, c :: cs =>
    if isBlank c then
      if acc.isEmpty then splitBlanks [] cs else acc.reverse :: splitBlanks [] cs
    else splitBlanks (c :: acc) cs

/-- The sixteen numerals in the order of their values; a base uses the first of them. -/
def numerals : List Char := "0123456789ABCDEF".toList

/-- The value of a digit of the base: its place among the numerals, a letter being of either case (log 16). -/
def digitValue (base : Nat) (c : Char) : Option Nat :=
  (numerals.take base).findIdx? (fun d => d == c || d.toLower == c)

/-- The number whose digits in the base go on from `acc`. -/
def digitsValue (base : Nat) : Nat → List Char → Option Nat
  | acc, [] => some acc
  | acc, c :: cs => (digitValue base c).bind (fun d => digitsValue base (acc * base + d) cs)

/-- A number in decimal, or in hexadecimal after `0x` (R82). -/
def numberValue : List Char → Option Nat
  | '0' :: 'x' :: d :: ds => digitsValue 16 0 (d :: ds)
  | d :: ds => digitsValue 10 0 (d :: ds)
  | [] => none

/-- An operand in `0 .. 0xFFFFFFFF`; one out of range does not assemble (R82). -/
def operandOf (n : Nat) : Option Operand := if n < 2 ^ 32 then some (BitVec.ofNat 32 n) else none

/-- The mnemonic of a command (R82), as spec/opcode_table.json spells it. -/
def Instr.mnemonic : Instr → String
  | .init _ => "INIT"
  | .observe _ => "OBSERVE"
  | .estimate => "ESTIMATE"
  | .readReg _ => "READ_REG"
  | .info _ => "INFO"

/-- The command a line of text stands for (R82). -/
def parseLine (line : List Char) : Option Instr :=
  match splitBlanks [] (dropComment line) with
  | [mn] => if mn = "ESTIMATE".toList then some .estimate else none
  | [mn, arg] =>
    match numberValue arg with
    | none => none
    | some n =>
      if mn = "INIT".toList then (operandOf n).map .init
      else if mn = "OBSERVE".toList then (operandOf n).map .observe
      else if mn = "READ_REG".toList then (operandOf n).map .readReg
      else if mn = "INFO".toList then if n ≤ 3 then some (.info (BitVec.ofNat 8 n)) else none
      else none
  | _ => none

/-- The command word a line of text assembles to (R82). -/
def assembleLine (line : List Char) : Option Word := (parseLine line).map encode

/-- A hexadecimal digit in upper case. -/
def hexDigit (d : Nat) : Char := numerals.getD d '0'

/-- The `k` lowest hexadecimal digits of `n`, the highest first. -/
def hexDigits : Nat → Nat → List Char
  | 0, _ => []
  | k + 1, n => hexDigit (n / 16 ^ k % 16) :: hexDigits k n

/-- A mnemonic and an operand of `k` hexadecimal digits. -/
def textWith (mn : String) (k n : Nat) : List Char := mn.toList ++ [' ', '0', 'x'] ++ hexDigits k n

/-- A text of the command, its operand in hexadecimal. -/
def Instr.text (i : Instr) : List Char :=
  match i with
  | .init p => textWith i.mnemonic 8 p.toNat
  | .observe x => textWith i.mnemonic 8 x.toNat
  | .estimate => i.mnemonic.toList
  | .readReg j => textWith i.mnemonic 8 j.toNat
  | .info sel => textWith i.mnemonic 2 sel.toNat

end Sys2Proof
end

