-- ==== Sys2Proof/Safety.lean ====
section
/-! DEFINITION. The terms the statements use: the invariant of the machine, what of a state its responses may show,
runs of commands, the transaction-level view of the channels, the ways to write a line of text, and numbers as
rationals. -/

namespace Sys2Proof.Machine

/-- The values of an entry at precision `p`: `{0, …, 32 - p} ∪ {32}` (spec/10_state.md R30). -/
abbrev legalEntry (p : Nat) (e : Entry) : Prop := e.toNat ≤ 32 - p ∨ e.toNat = 32

/-- What holds of every state that a run from reset reaches. -/
structure State.Inv (s : State) : Prop where
  /-- The register array is in canonical form. -/
  canonical : Memory.wf s.mem
  /-- Only physical entries are listed (R29). -/
  physical : ∀ c ∈ s.mem, c.1 < 2 ^ s.build.pMax
  /-- `CFG.P` is 0 while unconfigured (R23). -/
  unconfigured : s.cfg.configured = false → s.cfg.p = 0
  /-- `CFG.P` is in `1..P_MAX` while configured (R23). -/
  precision : s.cfg.configured = true → 1 ≤ s.cfg.precision ∧ s.cfg.precision ≤ s.build.pMax
  /-- `CFG.ALPHA` and `CFG.THRESH` are those of `CFG.P` while configured (R25, R26). -/
  constants : s.cfg.configured = true →
    s.cfg.alpha = alphaOf s.cfg.precision ∧ s.cfg.thresh = thresholdOf s.cfg.precision
  /-- Every architectural entry holds a value of R30 while configured. -/
  entries : s.cfg.configured = true → ∀ j < s.cfg.m, legalEntry s.cfg.precision (Memory.read s.mem j)
  /-- `BUSY` is 1 exactly while a command is accepted and not answered (R31). -/
  busy : s.busy = (s.inFlight.isSome || s.rspPending.isSome)
  /-- A command in flight has no response yet (R31). -/
  oneInFlight : s.inFlight = none ∨ s.rspPending = none
  /-- An error response carries data 0 (60_exceptions.md R203). -/
  errorData : ∀ r, s.rspPending = some r → r.status ≠ .ok → r.data = 0

/-- The two states differ at most in what the spec leaves unspecified: `ALPHA`, `THRESH` and `REG` while unconfigured,
and entries at `m` and above (10_state.md R29, R35; 70_reset_and_hazards.md R231). -/
structure SameSpecified (s t : State) : Prop where
  build : s.build = t.build
  configured : s.cfg.configured = t.cfg.configured
  p : s.cfg.p = t.cfg.p
  alpha : s.cfg.configured = true → s.cfg.alpha = t.cfg.alpha
  thresh : s.cfg.configured = true → s.cfg.thresh = t.cfg.thresh
  entries : s.cfg.configured = true → ∀ j < s.cfg.m, Memory.read s.mem j = Memory.read t.mem j
  busy : s.busy = t.busy
  rspPending : s.rspPending = t.rspPending
  inFlight : s.inFlight = t.inFlight
  env : s.env = t.env

/-- Two outcomes of the same kind, whose states are related by `SameSpecified`. -/
def SameOutcome : Host.Outcome State Fault Refusal → Host.Outcome State Fault Refusal → Prop
  | .next s, .next t => SameSpecified s t
  | .fault f, .fault g => f = g
  | .refused r, .refused q => r = q
  | .next _, .fault _ => False
  | .next _, .refused _ => False
  | .fault _, .next _ => False
  | .fault _, .refused _ => False
  | .refused _, .next _ => False
  | .refused _, .fault _ => False

/-- The commands one after the other, each on the state the one before left (20_memory.md R52). -/
def execAll : List Instr → State → Host.Outcome State Fault Refusal
  | [], s => .next s
  | i :: is, s =>
    match exec i s with
    | .next t => execAll is t
    | .fault f => .fault f
    | .refused r => .refused r

/-- `k` rising edges. -/
def runEdges (k : Nat) (s : State) : Host.Outcome State Fault Refusal := Host.Core.run Sys2Proof.core k s

/-- No command is accepted and unanswered, and the host holds none. -/
structure State.Idle (s : State) : Prop where
  busy : s.busy = false
  inFlight : s.inFlight = none
  rspPending : s.rspPending = none
  held : s.env.held = none

/-- One command at transaction level (30_encoding.md R79): its atomic step, and its response handed to the host. -/
def transaction (w : Word) (s : State) : Host.Outcome State Fault Refusal :=
  match runWord w s with
  | .next t =>
    match t.rspPending with
    | some r => .next (takeResponse r t)
    | none => .next t
  | .fault f => .fault f
  | .refused r => .refused r

/-- Transactions one after the other. -/
def transactions : List Word → State → Host.Outcome State Fault Refusal
  | [], s => .next s
  | w :: ws, s =>
    match transaction w s with
    | .next t => transactions ws t
    | .fault f => .fault f
    | .refused r => .refused r

/-- How one command crosses the channels: the edges before the host offers it, those it waits for its atomic step, and
those the host lets pass before it takes the response. -/
structure Delivery where
  word : Word
  offerDelay : Nat
  stalls : Nat
  takeDelay : Nat
deriving DecidableEq, Repr

/-- The edges of a delivery. -/
def Delivery.edges (d : Delivery) : List Edge :=
  List.replicate d.offerDelay Edge.quiet ++ Edge.offer d.word :: List.replicate d.stalls Edge.stalled
    ++ Edge.quiet :: List.replicate d.takeDelay Edge.quiet ++ [Edge.take]

/-- The edges of several deliveries. -/
def deliveryEdges (ds : List Delivery) : List Edge := ds.flatMap Delivery.edges

/-- `c` writes the digit `d` of the base; a letter may be of either case (log 16). -/
def IsDigit (base : Nat) (c : Char) (d : Nat) : Prop :=
  d < base ∧ (c = Nat.digitChar d ∨ c = (Nat.digitChar d).toUpper)

/-- The text writes the number: in decimal, or in hexadecimal after `0x`, the highest digit first
(spec/30_encoding.md R82), with any number of leading zeros (log 16). -/
inductive Spells : List Char → Nat → Prop
  | decimal {cs : List Char} {ds : List Nat} : cs ≠ [] → List.Forall₂ (IsDigit 10) cs ds →
      Spells cs (Nat.ofDigits 10 ds.reverse)
  | hexadecimal {cs : List Char} {ds : List Nat} : cs ≠ [] → List.Forall₂ (IsDigit 16) cs ds →
      Spells ('0' :: 'x' :: cs) (Nat.ofDigits 16 ds.reverse)

/-- White space of a line (log 16). -/
def Blank (cs : List Char) : Prop := ∀ c ∈ cs, c = ' ' ∨ c = '\t'

/-- What may follow the last part of a line: white space, then a comment or nothing (R82). -/
def LineEnd (cs : List Char) : Prop :=
  ∃ blanks, Blank blanks ∧ (cs = blanks ∨ ∃ comment, cs = blanks ++ ';' :: comment)

/-- The number that the operand in the text of a command stands for; ESTIMATE has none (R82). -/
def textOperand (i : Instr) : Option Nat :=
  match i with
  | .init p => some p.toNat
  | .observe x => some x.toNat
  | .estimate => none
  | .readReg j => some j.toNat
  | .info sel => some sel.toNat

/-- The number `num / den`. -/
def Ratio.toRat (r : Ratio) : ℚ := (r.num : ℚ) / (r.den : ℚ)

/-- The number an encoding stands for. -/
def F64.toRat (a : F64) : ℚ := (F64.value a).toRat

/-- A finite binary64 number with sign bit 0. -/
def F64.finite (a : F64) : Prop := a.toNat < F64.infinityBits

/-- A finite normal binary64 number with sign bit 0. -/
def F64.positiveNormal (a : F64) : Prop := 2 ^ 52 ≤ a.toNat ∧ a.toNat < F64.infinityBits

end Sys2Proof.Machine
end

