-- ==== Sys2Proof/Certificates/Slice0/Obligations.lean ====
section
/-! DEFINITION. The statements about the CSE for the provers, in the order of the spec's files. -/

open Sys2Proof Sys2Proof.Machine

/-! ## Encoding (spec/30_encoding.md) -/

/-- 30_encoding.md R70 to R74, 20_memory.md R55: decoding the word, or the bytes, of a well-formed instruction gives
the instruction back, whatever bytes follow. -/
def Obligations.DecodeOfEncodeIsIdentity : Prop :=
  ∀ (i : Instr) (rest : List Byte), i.wellFormed = true →
    decode (encode i) = .ok i ∧ decodeBytes (encodeBytes i ++ rest) = .ok (i, rest)

/-- 30_encoding.md R73, R74: each word has at most one meaning, and it is the word of its instruction, which is
well-formed. -/
def Obligations.EncodeOfDecodeIsIdentity : Prop :=
  ∀ (c : Word) (i : Instr), decode c = .ok i → encode i = c ∧ i.wellFormed = true

/-- 30_encoding.md R73, its table with the matches and masks written out, and R74's last sentence: a word decodes to a
command exactly when it selects that command's row, and is ILLEGAL exactly when it matches no row. -/
def Obligations.DecodeAgreesWithOpcodeMap : Prop :=
  ∀ c : Word,
    (∀ p, decode c = .ok (.init p) ↔
      c &&& 0xFFFFFFFF00000000 = 0x0100000000000000 ∧ p = c.extractLsb' 0 32) ∧
    (∀ x, decode c = .ok (.observe x) ↔
      c &&& 0xFFFFFFFF00000000 = 0x0200000000000000 ∧ x = c.extractLsb' 0 32) ∧
    (decode c = .ok .estimate ↔ c &&& 0xFFFFFFFFFFFFFFFF = 0x0300000000000000) ∧
    (∀ j, decode c = .ok (.readReg j) ↔
      c &&& 0xFFFFFFFF00000000 = 0x0400000000000000 ∧ j = c.extractLsb' 0 32) ∧
    (∀ sel, decode c = .ok (.info sel) ↔
      c &&& 0xFFFCFFFFFFFFFFFF = 0x0500000000000000 ∧ sel = c.extractLsb' 48 8) ∧
    ((∃ e, decode c = .error e) ↔ ∀ row ∈ opcodeTable, row.selects c = false)

/-- 30_encoding.md R84: the examples of the spec, text, word and meaning, and that INIT 0 raises CONFIG_ERROR when
executed. -/
def Obligations.DecodesTheExamplesOfTheSpec : Prop :=
  assembleLine "INIT 4".toList = some 0x0100000000000004 ∧ decode 0x0100000000000004 = .ok (.init 4) ∧
  assembleLine "INIT 0".toList = some 0x0100000000000000 ∧ decode 0x0100000000000000 = .ok (.init 0) ∧
  (∀ s, ∃ t, exec (.init 0) s = .next t ∧ t.rspPending = some ⟨.configError, 0⟩) ∧
  assembleLine "OBSERVE 0x12345678".toList = some 0x0200000012345678 ∧
  decode 0x0200000012345678 = .ok (.observe 0x12345678) ∧
  assembleLine "ESTIMATE".toList = some 0x0300000000000000 ∧ decode 0x0300000000000000 = .ok .estimate ∧
  assembleLine "READ_REG 8".toList = some 0x0400000000000008 ∧ decode 0x0400000000000008 = .ok (.readReg 8) ∧
  assembleLine "INFO 3".toList = some 0x0503000000000000 ∧ decode 0x0503000000000000 = .ok (.info 3) ∧
  decode 0x0300000000000001 = .error .operandNotZero ∧
  decode 0x0504000000000000 = .error .selectorRange ∧
  decode 0x0201000000000000 = .error .selectorNotZero ∧
  decode 0x0100000100000004 = .error .reservedBits ∧
  decode 0x0000000000000000 = .error .reservedOpcode ∧
  decode 0xFF00000000000000 = .error .reservedOpcode

/-- 30_encoding.md R75: each reserved encoding raises ILLEGAL_COMMAND and has no other effect, and no other word is
illegal. -/
def Obligations.ReservedEncodingsAnswerIllegalCommand : Prop :=
  ∀ (c : Word) (s : State),
    let reserved := c.extractLsb' 56 8 = 0x00 ∨ 0x06 ≤ (c.extractLsb' 56 8).toNat ∨ c.extractLsb' 32 16 ≠ 0 ∨
      (c.extractLsb' 56 8 ≠ 0x05 ∧ c.extractLsb' 48 8 ≠ 0) ∨
      (c.extractLsb' 56 8 = 0x05 ∧ 4 ≤ (c.extractLsb' 48 8).toNat) ∨
      ((c.extractLsb' 56 8 = 0x03 ∨ c.extractLsb' 56 8 = 0x05) ∧ c.extractLsb' 0 32 ≠ 0)
    (reserved → runWord c s = .next { s with rspPending := some ⟨.illegalCommand, 0⟩, inFlight := none }) ∧
    (¬reserved → ∃ i, decode c = .ok i)

/-- 30_encoding.md R82: every text of a well-formed instruction assembles to its word: the operand in decimal or in
hexadecimal after `0x`, however it is written, then a comment or none. White space, leading zeros and lower-case digits
are the model's choice (log 16). The last clause names one such text. -/
def Obligations.TextAssemblesToItsWord : Prop :=
  ∀ (i : Instr) (lead gap ending : List Char), i.wellFormed = true → Blank lead → Blank gap → LineEnd ending →
    (∀ n arg, textOperand i = some n → gap ≠ [] → Spells arg n →
      assembleLine (lead ++ i.mnemonic.toList ++ gap ++ arg ++ ending) = some (encode i)) ∧
    (textOperand i = none → assembleLine (lead ++ i.mnemonic.toList ++ ending) = some (encode i)) ∧
    (∀ comment, assembleLine (' ' :: i.text ++ [' ', ';'] ++ comment) = some (encode i))

/-- 30_encoding.md R82, its last paragraph: what assembles is the word of a well-formed instruction, so a reserved
encoding has no text; and an operand out of its range does not assemble, nor ESTIMATE with any operand. White space,
leading zeros and lower-case digits are the model's choice (log 16). -/
def Obligations.AssembledWordsAreLegal : Prop :=
  (∀ (line : List Char) (c : Word), assembleLine line = some c →
    ∃ i, i.wellFormed = true ∧ encode i = c ∧ decode c = .ok i) ∧
  ∀ (i : Instr) (n : Nat) (lead gap arg ending : List Char), Blank lead → Blank gap → gap ≠ [] → Spells arg n →
    LineEnd ending →
    i.mnemonic ∈ ["INIT", "OBSERVE", "READ_REG"] ∧ 2 ^ 32 ≤ n ∨ i.mnemonic = "INFO" ∧ 4 ≤ n ∨
      i.mnemonic = "ESTIMATE" →
    assembleLine (lead ++ i.mnemonic.toList ++ gap ++ arg ++ ending) = none

/-- 20_memory.md R55: byte `k` of a word on a narrower path holds its bits `8k+7 : 8k`, and the bytes give the word
back. -/
def Obligations.BytesAreLittleEndian : Prop :=
  ∀ c : Word, (wordBytes c).length = 8 ∧
    (∀ k < 8, ∀ i < 8, ((wordBytes c)[k]?.getD 0).getLsbD i = c.getLsbD (8 * k + i)) ∧
    wordOfBytes (byteOf c 0) (byteOf c 1) (byteOf c 2) (byteOf c 3) (byteOf c 4) (byteOf c 5) (byteOf c 6)
      (byteOf c 7) = c

/-! ## The channels (spec/30_encoding.md R79, R80; 70_reset_and_hazards.md) -/

/-- 30_encoding.md R79 item 2: when a command is in flight and the edge neither resets nor stalls, the step is the
meaning of the instruction its word decodes to, on the state with that edge consumed. -/
def Obligations.StepRunsTheDecodedCommand : Prop :=
  ∀ (s : State) (w : Word) (i : Instr), s.rspPending = none → s.inFlight = some w → decode w = .ok i →
    s.nextEdge.rst = false → s.nextEdge.stall = false → holdBroken s.nextEdge s = false →
    step s = exec i s.advance

/-- The same through the host's hook: with the table's bits of a well-formed instruction in flight, the next step
runs it. The model's own convention (log 10). -/
def Obligations.FetchWordIsRunByTheNextStep : Prop :=
  ∀ (s : State) (i : Instr), i.wellFormed = true →
    step (s.withFetchWord 64 (encode i).toNat) = exec i (s.withFetchWord 64 (encode i).toNat).advance

/-- 30_encoding.md R79 item 1: an offered command is accepted at an edge with `cmd_valid = 1`, `cmd_ready = 1` and
`rst = 0`, and `BUSY` becomes 1; nothing else of the CSE changes. -/
def Obligations.OfferedCommandIsAccepted : Prop :=
  ∀ s : State, s.Inv → s.nextEdge.rst = false → s.nextEdge.cmdValid = true →
    s.cmdReady s.nextEdge.rst = true → holdBroken s.nextEdge s = false →
    ∃ t, step s = .next t ∧ t.busy = true ∧ t.inFlight = some s.nextEdge.cmdData ∧ t.rspPending = none ∧
      t.cfg = s.cfg ∧ t.mem = s.mem ∧ t.build = s.build ∧ t.env.received = s.env.received ∧ t.env.held = none

/-- 30_encoding.md R79 item 3: the response is transferred at an edge with `rsp_valid = 1` and `rsp_ready = 1`; that
empties `RSP_PENDING` and sets `BUSY` to 0; nothing else of the CSE changes. -/
def Obligations.ResponseIsTransferred : Prop :=
  ∀ (s : State) (r : Response), s.rspPending = some r → s.rspValid s.nextEdge.rst = true →
    s.nextEdge.rspReady = true → holdBroken s.nextEdge s = false →
    ∃ t, step s = .next t ∧ t.rspPending = none ∧ t.busy = false ∧ t.env.received = s.env.received ++ [r] ∧
      t.inFlight = s.inFlight ∧ t.cfg = s.cfg ∧ t.mem = s.mem ∧ t.build = s.build

/-- 30_encoding.md R79 item 5: while `rsp_valid = 1` and `rsp_ready = 0` the response stays as it is, and so do its
ports. -/
def Obligations.ResponseIsHeldStable : Prop :=
  ∀ (s t : State), s.rspValid s.nextEdge.rst = true → s.nextEdge.rspReady = false → step s = .next t →
    t.rspPending = s.rspPending ∧ t.rspStatus false = s.rspStatus false ∧ t.rspData false = s.rspData false ∧
      t.busy = s.busy ∧ t.inFlight = s.inFlight ∧ t.cfg = s.cfg ∧ t.mem = s.mem

/-- 30_encoding.md R79 item 4: `cmd_ready = 0` while `BUSY = 1`, and no step from such a state puts another command in
flight. -/
def Obligations.NoCommandIsAcceptedWhileBusy : Prop :=
  ∀ s : State, s.busy = true →
    (∀ rst, s.cmdReady rst = false) ∧
    (∀ t, step s = .next t → t.inFlight = none ∨ t.inFlight = s.inFlight)

/-- 30_encoding.md R80, 70_reset_and_hazards.md R230, 60_exceptions.md R200: what the output ports show, with the
codes of the statuses. The ports have no value without a response, which is the model's choice (log 15). -/
def Obligations.PortsShowTheState : Prop :=
  (∀ s : State, s.cmdReady false = !s.busy ∧ s.rspValid false = s.rspPending.isSome ∧
    s.cmdReady true = false ∧ s.rspValid true = false) ∧
  (∀ (s : State) (r : Response), s.rspPending = some r →
    s.rspStatus false = some r.status.code ∧ s.rspData false = some r.data) ∧
  (∀ s : State, s.rspPending = none → s.rspStatus false = none ∧ s.rspData false = none) ∧
  Status.ok.code = 0 ∧ Status.illegalCommand.code = 1 ∧ Status.configError.code = 2 ∧
  Status.notConfigured.code = 3 ∧ Status.indexRange.code = 4

/-- 70_reset_and_hazards.md R230, R232: one rising edge with `rst = 1` puts every piece of state with a stated reset
value at it, from any state, drops a command in flight and a pending response, gives the host nothing, and the CSE is
ready at the next edge with `rst = 0`. -/
def Obligations.ResetEdgeResetsAnyState : Prop :=
  ∀ s : State, s.nextEdge.rst = true →
    s.cmdReady s.nextEdge.rst = false ∧ s.rspValid s.nextEdge.rst = false ∧
    ∃ t, step s = .next t ∧ t.cfg.configured = false ∧ t.cfg.p = 0 ∧ t.busy = false ∧ t.rspPending = none ∧
      t.inFlight = none ∧ t.env.received = s.env.received ∧ t.build = s.build ∧ t.cmdReady false = true

/-- 60_exceptions.md R217: while `BUSY = 0` and `cmd_valid = 0` a step keeps all state of the CSE. -/
def Obligations.IdleKeepsAllState : Prop :=
  ∀ s : State, s.Inv → s.busy = false → s.nextEdge.cmdValid = false → s.nextEdge.rst = false →
    ∃ t, step s = .next t ∧ t.cfg = s.cfg ∧ t.mem = s.mem ∧ t.busy = s.busy ∧ t.rspPending = s.rspPending ∧
      t.inFlight = s.inFlight ∧ t.build = s.build ∧ t.env.received = s.env.received

/-- 60_exceptions.md R203, R211, 30_encoding.md R79 item 5: the machine stops only when the host breaks its duty to hold
`cmd_data` stable, never on a command, and refuses none. That it stops there is the model's reading of R211 (log 8). -/
def Obligations.OnlyTheHostCanStopTheMachine : Prop :=
  ∀ s : State,
    ((∃ f, step s = .fault f) ↔
      s.nextEdge.rst = false ∧ s.nextEdge.cmdValid = true ∧ ∃ w, s.env.held = some w ∧ w ≠ s.nextEdge.cmdData) ∧
    (∀ r, step s ≠ .refused r)

/-- 70_reset_and_hazards.md R238: a command in flight has its response after the edges it stalls for and one more, if
`rst` stays 0. -/
def Obligations.CommandInFlightIsAnswered : Prop :=
  ∀ (s : State) (w : Word) (n : Nat) (es rest : List Edge), s.inFlight = some w → s.rspPending = none →
    es.length = n + 1 → s.env.edges = es ++ rest → s.env.held = none →
    (∀ e ∈ es, e.rst = false ∧ e.cmdValid = false) → (∀ e ∈ es.take n, e.stall = true) →
    (∀ e ∈ es.drop n, e.stall = false) →
    ∃ t r, runEdges (n + 1) s = .next t ∧ t.rspPending = some r ∧ t.inFlight = none ∧ t.env.edges = rest

/-- 30_encoding.md R79, its last paragraph; 20_memory.md R52, R53; 70_reset_and_hazards.md R237, R240: the machine of
rising edges refines the transaction-level machine. Whatever the delays of the host and of the CSE, commands delivered
one after the other leave exactly the state, and give exactly the responses, of their transactions. -/
def Obligations.DeliveriesRefineTransactions : Prop :=
  ∀ (ds : List Delivery) (rest : List Edge) (s : State), s.Idle → s.env.edges = deliveryEdges ds ++ rest →
    runEdges (deliveryEdges ds).length s =
      transactions (ds.map Delivery.word) { s with env := { s.env with edges := rest } }

/-! ## Invariants and whole-machine rules (spec/10_state.md) -/

/-- 10_state.md R35, R231: the state after reset, of every build, meets the invariant; the recommended build has
`P_MAX = 16`. -/
def Obligations.ResetMeetsTheInvariant : Prop :=
  State.reset.Inv ∧ State.reset.build.pMax = 16 ∧ ∀ (b : Config.Build) (e : Env), (State.resetOf b e).Inv

/-- 10_state.md R22 to R31: every step keeps the invariant. -/
def Obligations.StepKeepsTheInvariant : Prop :=
  ∀ s t : State, s.Inv → step s = .next t → t.Inv

/-- 70_reset_and_hazards.md R231, 10_state.md R29, R35: no command can observe an unspecified value. States that differ
only in what the spec leaves unspecified step alike and stay so related. -/
def Obligations.UnspecifiedValuesAreNeverShown : Prop :=
  ∀ s t : State, SameSpecified s t → SameOutcome (step s) (step t)

/-- 10_state.md R22, R23, R25, R26, R27: only a successful INIT writes the configuration, and only reset clears it. -/
def Obligations.OnlyInitWritesTheConfiguration : Prop :=
  ∀ s t : State, step s = .next t →
    t.build = s.build ∧
    (t.cfg = s.cfg ∨
     (s.nextEdge.rst = true ∧ t.cfg.configured = false ∧ t.cfg.p = 0) ∨
     (s.nextEdge.rst = false ∧ ∃ w p, s.inFlight = some w ∧ decode w = .ok (.init p) ∧ 1 ≤ p.toNat ∧
        p.toNat ≤ s.build.pMax ∧ t.cfg.configured = true ∧ t.cfg.p.toNat = p.toNat ∧
        t.cfg.alpha = alphaOf p.toNat ∧ t.cfg.thresh = thresholdOf p.toNat))

/-- 10_state.md R30, 43_query.md R172: no step lowers an entry, but for reset and the edge at which a successful INIT
takes its atomic step (20_memory.md R53); an INIT that stalls, or has its response pending, lowers none. -/
def Obligations.EntriesNeverDecrease : Prop :=
  ∀ s t : State, step s = .next t → s.nextEdge.rst = false →
    (s.rspPending = none → s.nextEdge.stall = false → ∀ w p, s.inFlight = some w → decode w = .ok (.init p) →
      p.toNat = 0 ∨ s.build.pMax < p.toNat) →
    ∀ j, (Memory.read s.mem j).toNat ≤ (Memory.read t.mem j).toNat

/-- 20_memory.md R51, 43_query.md R172: the register array is written by INIT and OBSERVE alone. -/
def Obligations.OnlyInitAndObserveWriteEntries : Prop :=
  ∀ (i : Instr) (s t : State), exec i s = .next t → t.mem ≠ s.mem →
    (∃ p, i = .init p) ∨ (∃ x, i = .observe x)

/-! ## INIT (spec/40_construct.md) -/

/-- 40_construct.md R102, R106: INIT with `1 <= p <= P_MAX` completes from every state, configured or not; it clears
`REG[0 .. 2^p - 1]`, leaves the entries above, and writes the whole configuration. -/
def Obligations.InitConstructsTheSketch : Prop :=
  ∀ (p : Operand) (s : State), 1 ≤ p.toNat → p.toNat ≤ s.build.pMax →
    ∃ t, exec (.init p) s = .next t ∧ t.rspPending = some ⟨.ok, 0⟩ ∧ t.cfg.configured = true ∧
      t.cfg.p.toNat = p.toNat ∧ t.cfg.m = 2 ^ p.toNat ∧ t.cfg.alpha = alphaOf p.toNat ∧
      t.cfg.thresh = thresholdOf p.toNat ∧ (∀ j < 2 ^ p.toNat, Memory.read t.mem j = 0) ∧
      (∀ j, 2 ^ p.toNat ≤ j → Memory.read t.mem j = Memory.read s.mem j) ∧
      t.inFlight = none ∧ t.busy = s.busy ∧ t.build = s.build ∧ t.env = s.env

/-- 40_construct.md R101, R105: INIT with `p < 1` or `p > P_MAX`, so with every `p > 32`, answers CONFIG_ERROR and
changes no state. -/
def Obligations.InitRejectsAnIllegalPrecision : Prop :=
  ∀ (p : Operand) (s : State), p.toNat < 1 ∨ s.build.pMax < p.toNat ∨ 32 < p.toNat →
    exec (.init p) s = .next { s with rspPending := some ⟨.configError, 0⟩, inFlight := none }

/-- 40_construct.md R103: the three branches, the complete table of `bits64(alpha(p))`, and that
`lit(1.079) (/) f64(2^p)` is exact. -/
def Obligations.AlphaIsTheTableOfTheSpec : Prop :=
  (∀ p, 1 ≤ p → p ≤ 16 → alphaOf p = 0x3FE589374BC6A7F0) ∧
  (List.range' 17 15).map alphaOf =
    [0x3FE714D7490182E2, 0x3FE714DD82E8C0BE, 0x3FE714E09FDDA225, 0x3FE714E22E586377, 0x3FE714E2F595D847,
     0x3FE714E3593497B8, 0x3FE714E38B03F8B4, 0x3FE714E3A3EBA982, 0x3FE714E3B05F81FD, 0x3FE714E3B6996E40,
     0x3FE714E3B9B66463, 0x3FE714E3BB44DF74, 0x3FE714E3BC0C1CFD, 0x3FE714E3BC6FBBC2, 0x3FE714E3BCA18B24] ∧
  alphaOf 32 = 0x3FE64DD2F1A9FBE7 ∧
  lit 7213 10000 = 0x3FE714E3BCD35A86 ∧ lit 1079 1000 = 0x3FF14395810624DD ∧ lit 25 10 = 0x4004000000000000 ∧
  (∀ p, 17 ≤ p → p ≤ 31 →
    F64.toRat (fdiv (lit 1079 1000) (f64OfNat (2 ^ p))) = F64.toRat (lit 1079 1000) / 2 ^ p)

/-- 93_implementation_defined.md N1: where the stepwise evaluation of alpha differs from the two evaluations that round
once, and that it then differs by one unit in the last place. -/
def Obligations.AlphaIsRoundedStepByStep : Prop :=
  ∀ p, 17 ≤ p → p ≤ 31 →
    let constants := f64 ((F64.value (lit 7213 10000)).div
      (Ratio.add (Ratio.ofNat 1) ((F64.value (lit 1079 1000)).div (Ratio.ofNat (2 ^ p)))))
    let decimals := f64 (Ratio.div ⟨7213, 10000⟩ (Ratio.add (Ratio.ofNat 1) (Ratio.div ⟨1079, 1000⟩ (Ratio.ofNat (2 ^ p)))))
    (alphaOf p ≠ constants ↔ p ∈ [17, 18, 20, 21]) ∧
    (alphaOf p ≠ decimals ↔ p ∈ [17, 18, 20, 21, 23, 24, 26, 27, 30, 31]) ∧
    (alphaOf p ≠ constants → alphaOf p = constants + 1 ∨ constants = alphaOf p + 1) ∧
    (alphaOf p ≠ decimals → alphaOf p = decimals + 1 ∨ decimals = alphaOf p + 1)

/-- 40_construct.md R104: the threshold is exactly `2.5 * 2^p`, with the encoding and the two examples given. -/
def Obligations.ThresholdIsExact : Prop :=
  (∀ p, 1 ≤ p → p ≤ 32 →
    F64.toRat (thresholdOf p) = 5 / 2 * 2 ^ p ∧
    (thresholdOf p).toNat = 0x4004000000000000 + p * 2 ^ 52) ∧
  thresholdOf 1 = 0x4014000000000000 ∧ thresholdOf 10 = 0x40A4000000000000

/-! ## OBSERVE (spec/41_observe.md) -/

/-- 41_observe.md R122, R123: the bucket index is the low `p` bits of `x`, so below `m`; the high part is the logical
right shift, so below `2^(32-p)`, and 0 for `p = 32`. -/
def Obligations.HashWordSplits : Prop :=
  ∀ (p : Nat) (x : Operand),
    bucketIndex p x = x.toNat % 2 ^ p ∧ bucketIndex p x < 2 ^ p ∧ highBits p x = x.toNat / 2 ^ p ∧
    (p ≤ 32 → highBits p x < 2 ^ (32 - p)) ∧ highBits 32 x = 0

/-- 41_observe.md R124, 00_scope.md R14: the rank of a non-zero `w` is its bit length, the least `k` with `w < 2^k`, so
between 1 and `32 - p`; the rank of 0 is 32. -/
def Obligations.RankIsTheBitLength : Prop :=
  rank 0 = 32 ∧
  ∀ p w, p ≤ 32 → w < 2 ^ (32 - p) → w ≠ 0 →
    1 ≤ rank w ∧ rank w ≤ 32 - p ∧ w < 2 ^ rank w ∧ (∀ k, w < 2 ^ k → rank w ≤ k) ∧
    (∀ k, 1 ≤ k → (rank w = k ↔ 2 ^ (k - 1) ≤ w ∧ w ≤ 2 ^ k - 1))

/-- 41_observe.md R120, R125, R126: with a sketch, OBSERVE completes; the bucket of `x` becomes the maximum of its value
and the rank of the high part, and nothing else changes. -/
def Obligations.ObserveRaisesOneBucket : Prop :=
  ∀ (x : Operand) (s : State), s.cfg.configured = true →
    ∃ t, exec (.observe x) s = .next t ∧ t.rspPending = some ⟨.ok, 0⟩ ∧
      (Memory.read t.mem (bucketIndex s.cfg.precision x)).toNat =
        max (Memory.read s.mem (bucketIndex s.cfg.precision x)).toNat (rank (highBits s.cfg.precision x)) ∧
      (∀ j, j ≠ bucketIndex s.cfg.precision x → Memory.read t.mem j = Memory.read s.mem j) ∧
      t.cfg = s.cfg ∧ t.inFlight = none ∧ t.busy = s.busy ∧ t.build = s.build ∧ t.env = s.env

/-- 41_observe.md R127, 20_memory.md R57: a second OBSERVE of the same hash word leaves the whole state as it is. -/
def Obligations.ObserveIsIdempotent : Prop :=
  ∀ (x : Operand) (s t : State), Memory.wf s.mem → exec (.observe x) s = .next t →
    exec (.observe x) t = .next t

/-- 20_memory.md R54: two sequences of OBSERVE that hold the same multiset of hash words leave the same state. -/
def Obligations.ObserveOrderDoesNotMatter : Prop :=
  ∀ (xs ys : List Operand) (s : State), Memory.wf s.mem → xs.Perm ys →
    execAll (xs.map .observe) s = execAll (ys.map .observe) s

/-! ## ESTIMATE (spec/42_estimate.md) -/

/-- 42_estimate.md R140, R141: with a sketch, ESTIMATE completes, answers with the estimate, which reads nothing but
`CFG` and `REG[0 .. m-1]`, and changes no state; after commands that are neither INIT nor OBSERVE a second one answers
the same. -/
def Obligations.EstimateReadsTheSketch : Prop :=
  ∀ s : State, s.cfg.configured = true →
    (∃ t, exec .estimate s = .next t ∧ t.rspPending = some ⟨.ok, estimateBits s.cfg s.mem⟩ ∧ t.cfg = s.cfg ∧
      t.mem = s.mem ∧ t.inFlight = none ∧ t.busy = s.busy ∧ t.build = s.build ∧ t.env = s.env ∧
      ∀ is : List Instr, (∀ i ∈ is, i = .estimate ∨ (∃ j, i = .readReg j) ∨ ∃ sel, i = .info sel) →
        ∃ u v, execAll is t = .next u ∧ exec .estimate u = .next v ∧ v.rspPending = t.rspPending) ∧
    (∀ mem : Memory, (∀ j < s.cfg.m, Memory.read mem j = Memory.read s.mem j) →
      estimateBits s.cfg mem = estimateBits s.cfg s.mem)

/-- 42_estimate.md R142: the harmonic sum is exact, its terms are integers, `2^32` times those of `sum 2^-REG[j]`, and
it lies between `m` and `m * 2^32`, within `p + 33` bits. -/
def Obligations.HarmonicSumIsExact : Prop :=
  ∀ s : State, s.Inv → s.cfg.configured = true →
    harmonicFx s.cfg.precision s.mem = ∑ j ∈ Finset.range s.cfg.m, 2 ^ (32 - (Memory.read s.mem j).toNat) ∧
    (harmonicFx s.cfg.precision s.mem : ℚ) / 2 ^ 32 =
      ∑ j ∈ Finset.range s.cfg.m, (1 : ℚ) / 2 ^ (Memory.read s.mem j).toNat ∧
    (∀ j < s.cfg.m, 1 ≤ 2 ^ (32 - (Memory.read s.mem j).toNat) ∧
      2 ^ (32 - (Memory.read s.mem j).toNat) ≤ 2 ^ 32) ∧
    s.cfg.m ≤ harmonicFx s.cfg.precision s.mem ∧ harmonicFx s.cfg.precision s.mem ≤ s.cfg.m * 2 ^ 32 ∧
    harmonicFx s.cfg.precision s.mem < 2 ^ (s.cfg.precision + 33)

/-- 42_estimate.md R143: for `p <= 20` the rounded harmonic sum is exact. -/
def Obligations.HarmonicRoundingIsExactUpTo20 : Prop :=
  ∀ s : State, s.Inv → s.cfg.configured = true → s.cfg.precision ≤ 20 →
    F64.toRat (harmonic64 s.cfg.precision s.mem) = (harmonicFx s.cfg.precision s.mem : ℚ) / 2 ^ 32

/-- 42_estimate.md R144: both products of the numerator are exact. -/
def Obligations.NumeratorIsExact : Prop :=
  ∀ s : State, s.Inv → s.cfg.configured = true →
    F64.toRat (fmul s.cfg.alpha (f64OfNat s.cfg.m)) = F64.toRat s.cfg.alpha * s.cfg.m ∧
    F64.toRat (numerator s.cfg) = F64.toRat s.cfg.alpha * s.cfg.m * s.cfg.m

/-- 42_estimate.md R145: the raw estimate is the exact quotient `N / Z64` rounded once; for `p <= 20` it is the exact real
`alpha * m^2 / Z` rounded once. -/
def Obligations.RawEstimateIsRoundedOnce : Prop :=
  ∀ (s : State) (r : Ratio), s.Inv → s.cfg.configured = true → 0 < r.den →
    (r.toRat = F64.toRat (numerator s.cfg) / F64.toRat (harmonic64 s.cfg.precision s.mem) →
      rawEstimate s.cfg s.mem = f64 r) ∧
    (s.cfg.precision ≤ 20 →
      r.toRat = F64.toRat s.cfg.alpha * s.cfg.m ^ 2 / ((harmonicFx s.cfg.precision s.mem : ℚ) / 2 ^ 32) →
      rawEstimate s.cfg s.mem = f64 r)

/-- 42_estimate.md R146, R147: `Z64` is positive, and `E` is a positive normal number with
`alpha * m <= E <= alpha * m * 2^32`, below `2^64`. -/
def Obligations.RawEstimateIsBounded : Prop :=
  ∀ s : State, s.Inv → s.cfg.configured = true →
    0 < F64.toRat (harmonic64 s.cfg.precision s.mem) ∧ F64.positiveNormal (rawEstimate s.cfg s.mem) ∧
    F64.toRat s.cfg.alpha * s.cfg.m ≤ F64.toRat (rawEstimate s.cfg s.mem) ∧
    F64.toRat (rawEstimate s.cfg s.mem) ≤ F64.toRat s.cfg.alpha * s.cfg.m * 2 ^ 32 ∧
    F64.toRat (rawEstimate s.cfg s.mem) < 2 ^ 64

/-- 42_estimate.md R148: `V` counts the architectural entries that are 0, so `V <= m`. -/
def Obligations.ZeroCountIsExact : Prop :=
  ∀ s : State,
    zeroCount s.cfg.precision s.mem = ((Finset.range s.cfg.m).filter (fun j => Memory.read s.mem j = 0)).card ∧
    zeroCount s.cfg.precision s.mem ≤ s.cfg.m

/-- 42_estimate.md R149: linear counting exactly when `E <= 2.5 * m` and some entry is 0, otherwise `E`; there are
exactly two branches. -/
def Obligations.EstimateHasTwoBranches : Prop :=
  ∀ s : State, s.Inv → s.cfg.configured = true →
    (F64.toRat (rawEstimate s.cfg s.mem) ≤ 5 / 2 * s.cfg.m ∧ 0 < zeroCount s.cfg.precision s.mem →
      estimateBits s.cfg s.mem = fmul (f64OfNat s.cfg.m)
        (ln64 (fdiv (f64OfNat s.cfg.m) (f64OfNat (zeroCount s.cfg.precision s.mem))))) ∧
    (¬(F64.toRat (rawEstimate s.cfg s.mem) ≤ 5 / 2 * s.cfg.m ∧ 0 < zeroCount s.cfg.precision s.mem) →
      estimateBits s.cfg s.mem = rawEstimate s.cfg s.mem)

/-- 42_estimate.md R140, its corner case `E = T`: for `p <= 20` no register array gives it, and for each
`21 <= p <= 32` some value of `Zfx` within the bounds of R142 does. -/
def Obligations.EqualityWithTheThreshold : Prop :=
  (∀ s : State, s.Inv → s.cfg.configured = true → s.cfg.precision ≤ 20 → rawEstimate s.cfg s.mem ≠ s.cfg.thresh) ∧
  (∀ p, 21 ≤ p → p ≤ 32 → ∃ z, 2 ^ p ≤ z ∧ z ≤ 2 ^ p * 2 ^ 32 ∧
    fdiv (numerator (Cfg.construct (BitVec.ofNat 32 p))) (f64 { num := z, den := 2 ^ 32 }) = thresholdOf p)

/-- 42_estimate.md R149, its last paragraph: the quotient of linear counting lies in `[1, m]` and is exact for a power of
two, the product is exact, and it is `+0.0` or a positive normal number. -/
def Obligations.LinearCountingProductIsExact : Prop :=
  ∀ s : State, s.Inv → s.cfg.configured = true → 0 < zeroCount s.cfg.precision s.mem →
    let v := zeroCount s.cfg.precision s.mem
    let a := fdiv (f64OfNat s.cfg.m) (f64OfNat v)
    1 ≤ F64.toRat a ∧ F64.toRat a ≤ s.cfg.m ∧ (∀ k, v = 2 ^ k → F64.toRat a = (s.cfg.m : ℚ) / 2 ^ k) ∧
    F64.toRat (linearCount s.cfg.m v) = s.cfg.m * F64.toRat (ln64 a) ∧
    (linearCount s.cfg.m v = 0 ∨ F64.positiveNormal (linearCount s.cfg.m v))

/-- 42_estimate.md R151: the data of ESTIMATE's response is the encoding of the result, and that is `+0.0` or a positive
normal number. -/
def Obligations.EstimateIsFiniteAndNonNegative : Prop :=
  ∀ s : State, s.Inv → s.cfg.configured = true →
    ∃ t, exec .estimate s = .next t ∧ t.rspPending = some ⟨.ok, estimateBits s.cfg s.mem⟩ ∧
      (estimateBits s.cfg s.mem = 0 ∨ F64.positiveNormal (estimateBits s.cfg s.mem))

/-- 42_estimate.md R152: right after a successful INIT, `Zfx = m * 2^32`, `Z64 = m`, `E = alpha * m <= 2.5 * m`,
`V = m`, and ESTIMATE answers `+0.0`. -/
def Obligations.FreshSketchEstimatesZero : Prop :=
  ∀ (p : Operand) (s t : State), 1 ≤ p.toNat → p.toNat ≤ s.build.pMax → exec (.init p) s = .next t →
    harmonicFx t.cfg.precision t.mem = t.cfg.m * 2 ^ 32 ∧
    F64.toRat (harmonic64 t.cfg.precision t.mem) = t.cfg.m ∧
    F64.toRat (rawEstimate t.cfg t.mem) = F64.toRat t.cfg.alpha * t.cfg.m ∧
    F64.toRat (rawEstimate t.cfg t.mem) ≤ 5 / 2 * t.cfg.m ∧
    zeroCount t.cfg.precision t.mem = t.cfg.m ∧
    ∃ u, exec .estimate t = .next u ∧ u.rspPending = some ⟨.ok, 0⟩

/-- 00_scope.md R15: `f64` rounds to the nearest binary64 number, ties to even. That a fraction from `2^1024 - 2^970` on
gives the encoding of infinity is the model's choice (log 12). -/
def Obligations.RoundingIsNearestEven : Prop :=
  ∀ r : Ratio, 0 < r.den →
    (r.toRat < 2 ^ 1024 - 2 ^ 970 →
      F64.finite (f64 r) ∧
      (∀ c : F64, F64.finite c → |F64.toRat (f64 r) - r.toRat| ≤ |F64.toRat c - r.toRat|) ∧
      (∀ c : F64, F64.finite c → c ≠ f64 r → |F64.toRat (f64 r) - r.toRat| = |F64.toRat c - r.toRat| →
        (f64 r).toNat % 2 = 0)) ∧
    (2 ^ 1024 - 2 ^ 970 ≤ r.toRat → (f64 r).toNat = F64.infinityBits)

/-- 42_estimate.md R150, the series behind `ln64`: its bounds enclose the natural logarithm of every finite number
that is 1 or more, with every number of terms. How they are computed is the model's own (log 13). -/
def Obligations.LogBoundsEncloseTheLogarithm : Prop :=
  ∀ (a : F64) (n : Nat), F64.finite a → 1 ≤ F64.toRat a →
    (((lnLower a n).toRat : ℚ) : ℝ) ≤ Real.log (F64.toRat a : ℝ) ∧
    Real.log (F64.toRat a : ℝ) ≤ (((lnUpper a n).toRat : ℚ) : ℝ)

/-- 42_estimate.md R150 where the search settles, and beyond its range `[1, 2^32]`: when some number of terms the search
tries rounds both bounds to one number, `ln64 a` is finite and strictly nearer to the natural logarithm of `a` than
every other finite binary64 number. That the search settles is decidable for each argument; the search is the model's
own (log 13). -/
def Obligations.SettledLogIsCorrectlyRounded : Prop :=
  ∀ (a : F64) (k : Nat), F64.finite a → 1 ≤ F64.toRat a → k < lnDoublings →
    lnSettled a (lnFirstTerms * 2 ^ k) = true →
    F64.finite (ln64 a) ∧
    ∀ c : F64, F64.finite c → c ≠ ln64 a →
      |(F64.toRat (ln64 a) : ℝ) - Real.log (F64.toRat a : ℝ)| < |(F64.toRat c : ℝ) - Real.log (F64.toRat a : ℝ)|

/-- 42_estimate.md R150: `ln64(1.0) = +0.0`, and `ln64(a) > 0` for `a > 1`. -/
def Obligations.LogOfOneIsZeroAndElsePositive : Prop :=
  ln64 0x3FF0000000000000 = 0 ∧
  ∀ a : F64, F64.finite a → 1 < F64.toRat a → F64.toRat a ≤ 2 ^ 32 →
    F64.finite (ln64 a) ∧ 0 < F64.toRat (ln64 a)

/-- 42_estimate.md R150, whole: `ln64` is the natural logarithm rounded to nearest for every binary64 `a` in
`[1, 2^32]`, `ln64(1.0) = +0.0`, `ln64(a) > 0` for `a > 1`, and `ln64` never decreases. It needs that the search always
settles (log 13). -/
def Obligations.LogIsCorrectlyRounded : Prop :=
  (∀ a : F64, F64.finite a → 1 ≤ F64.toRat a → F64.toRat a ≤ 2 ^ 32 →
    F64.finite (ln64 a) ∧
    (∀ c : F64, F64.finite c → c ≠ ln64 a →
      |(F64.toRat (ln64 a) : ℝ) - Real.log (F64.toRat a : ℝ)| < |(F64.toRat c : ℝ) - Real.log (F64.toRat a : ℝ)|) ∧
    (1 < F64.toRat a → 0 < F64.toRat (ln64 a)) ∧
    (∀ b : F64, F64.finite b → F64.toRat a ≤ F64.toRat b → F64.toRat b ≤ 2 ^ 32 →
      F64.toRat (ln64 a) ≤ F64.toRat (ln64 b))) ∧
  ln64 0x3FF0000000000000 = 0

/-! ## READ_REG and INFO (spec/43_query.md) -/

/-- 43_query.md R170: READ_REG of `j < m` completes with the entry, zero-extended; of `j >= m`, all 32 bits of `j`
counted, it answers INDEX_RANGE; without a sketch NOT_CONFIGURED, whatever `j` is. -/
def Obligations.ReadRegReadsOneEntry : Prop :=
  ∀ (j : Operand) (s : State),
    (s.cfg.configured = false →
      exec (.readReg j) s = .next { s with rspPending := some ⟨.notConfigured, 0⟩, inFlight := none }) ∧
    (s.cfg.configured = true → j.toNat < 2 ^ s.cfg.p.toNat →
      ∃ t d, exec (.readReg j) s = .next t ∧ t.rspPending = some ⟨.ok, d⟩ ∧
        d.toNat = (Memory.read s.mem j.toNat).toNat ∧ t.cfg = s.cfg ∧ t.mem = s.mem ∧ t.inFlight = none ∧
        t.busy = s.busy ∧ t.build = s.build ∧ t.env = s.env) ∧
    (s.cfg.configured = true → 2 ^ s.cfg.p.toNat ≤ j.toNat →
      exec (.readReg j) s = .next { s with rspPending := some ⟨.indexRange, 0⟩, inFlight := none })

/-- 43_query.md R173 to R177: INFO 0 and INFO 3 complete in every state and INFO 1 and INFO 2 with a sketch, which
answer NOT_CONFIGURED without one; the information words bit by bit. -/
def Obligations.InfoWordsAreThoseOfTheSpec : Prop :=
  ∀ s : State,
    (∃ t d, exec (.info 0) s = .next t ∧ t.rspPending = some ⟨.ok, d⟩ ∧
      (d.getLsbD 0 = s.cfg.configured) ∧ (∀ i < 6, d.getLsbD (8 + i) = s.cfg.p.getLsbD i) ∧
      (∀ i, i ≠ 0 → i < 8 ∨ 14 ≤ i → d.getLsbD i = false)) ∧
    (s.cfg.configured = true →
      ∃ t, exec (.info 1) s = .next t ∧ t.rspPending = some ⟨.ok, s.cfg.alpha⟩) ∧
    (s.cfg.configured = true →
      ∃ t, exec (.info 2) s = .next t ∧ t.rspPending = some ⟨.ok, s.cfg.thresh⟩) ∧
    (∃ t, exec (.info 3) s = .next t ∧
      t.rspPending = some ⟨.ok, 0x0100000006202000 ||| BitVec.ofNat 64 s.build.pMax⟩) ∧
    (s.cfg.configured = false → ∀ sel, sel = 1 ∨ sel = 2 →
      exec (.info sel) s = .next { s with rspPending := some ⟨.notConfigured, 0⟩, inFlight := none })

/-- 42_estimate.md R141, 43_query.md R171, R178: ESTIMATE, READ_REG and INFO change no state: only the response appears
and the command is no longer in flight. -/
def Obligations.ReadOnlyCommandsChangeNoState : Prop :=
  ∀ (i : Instr) (s t : State), i = .estimate ∨ (∃ j, i = .readReg j) ∨ (∃ sel, i = .info sel) →
    exec i s = .next t →
    t.cfg = s.cfg ∧ t.mem = s.mem ∧ t.busy = s.busy ∧ t.build = s.build ∧ t.env = s.env ∧ t.inFlight = none ∧
      exec i t = .next t

/-! ## Errors (spec/60_exceptions.md) -/

/-- 60_exceptions.md R200, R201, R202, R205, R206: every command word gives exactly one response, and each status arises
exactly from its cause, in the order of priority of R206. -/
def Obligations.EachStatusHasItsCause : Prop :=
  ∀ (w : Word) (s : State), ∃ t r, runWord w s = .next t ∧ t.rspPending = some r ∧
    (r.status = .illegalCommand ↔ ∀ i, decode w ≠ .ok i) ∧
    (r.status = .notConfigured ↔ s.cfg.configured = false ∧
      ((∃ x, decode w = .ok (.observe x)) ∨ decode w = .ok .estimate ∨ (∃ j, decode w = .ok (.readReg j)) ∨
        decode w = .ok (.info 1) ∨ decode w = .ok (.info 2))) ∧
    (r.status = .configError ↔ ∃ p, decode w = .ok (.init p) ∧ (p.toNat < 1 ∨ s.build.pMax < p.toNat)) ∧
    (r.status = .indexRange ↔ s.cfg.configured = true ∧ ∃ j, decode w = .ok (.readReg j) ∧ s.cfg.m ≤ j.toNat)

/-- 60_exceptions.md R203: a command that raises an error changes no state, responds with data 0, and leaves the CSE
ready for the next command once the response is taken. -/
def Obligations.ErrorsChangeNoState : Prop :=
  ∀ (w : Word) (s t : State) (r : Response), runWord w s = .next t → t.rspPending = some r → r.status ≠ .ok →
    r.data = 0 ∧ t.cfg = s.cfg ∧ t.mem = s.mem ∧ t.build = s.build ∧ t.env = s.env ∧ t.inFlight = none ∧
      (takeResponse r t).cmdReady false = true ∧ (takeResponse r t).cfg = s.cfg ∧ (takeResponse r t).mem = s.mem

/-- 60_exceptions.md R207: after a successful INIT, OBSERVE of any hash word, ESTIMATE, and INIT with a legal precision
raise no error, in any sequence. -/
def Obligations.NothingFailsAfterInit : Prop :=
  ∀ (is : List Instr) (s : State), s.cfg.configured = true →
    (∀ i ∈ is, (∃ x, i = .observe x) ∨ i = .estimate ∨
      (∃ p, i = .init p ∧ 1 ≤ p.toNat ∧ p.toNat ≤ s.build.pMax)) →
    ∃ t, execAll is s = .next t ∧ t.cfg.configured = true ∧
      (is ≠ [] → ∃ d, t.rspPending = some ⟨.ok, d⟩)

/-! ## A command in flight that has not executed -/

/-- 30_encoding.md R79 item 2, 20_memory.md R53: until the edge at which the command in flight takes its atomic step,
whatever the command is, no state of the CSE changes. That an edge says whether the command takes its step is the
model's choice (log 7). -/
def Obligations.StalledCommandChangesNothing : Prop :=
  ∀ (s : State) (w : Word), s.inFlight = some w → s.rspPending = none → s.nextEdge.rst = false →
    s.nextEdge.stall = true → holdBroken s.nextEdge s = false →
    ∃ t, step s = .next t ∧ t.cfg = s.cfg ∧ t.mem = s.mem ∧ t.busy = s.busy ∧ t.rspPending = none ∧
      t.inFlight = some w ∧ t.build = s.build ∧ t.env.received = s.env.received
end

