-- ==== Sys2Proof/Laws/Assembler.lean ====
section
/-! SUPPORT. The assembler: the numbers of digits, the parts of a line, and its comment (spec/30_encoding.md R82). -/

namespace Sys2Proof.Machine

/-! ## Digits -/

theorem digitValue_of_isDigit_10 {c : Char} {d : Nat} (h : IsDigit 10 c d) : digitValue 10 c = some d := by
  obtain ⟨hd, rfl | rfl⟩ := h <;> revert d <;> decide

theorem digitValue_of_isDigit_16 {c : Char} {d : Nat} (h : IsDigit 16 c d) : digitValue 16 c = some d := by
  obtain ⟨hd, rfl | rfl⟩ := h <;> revert d <;> decide

/-- Digits whose values are known make the number with those digits. -/
theorem digitsValue_of_digits {base : Nat} {cs : List Char} {ds : List Nat}
    (h : List.Forall₂ (fun c d => digitValue base c = some d) cs ds) (acc : Nat) :
    digitsValue base acc cs = some (acc * base ^ cs.length + Nat.ofDigits base ds.reverse) := by
  induction h generalizing acc with
  | nil => simp [digitsValue]
  | @cons c d cs ds hc h ih =>
    rw [digitsValue, hc, Option.bind_some, ih, List.reverse_cons, Nat.ofDigits_append, Nat.ofDigits_singleton,
      List.length_reverse, List.length_cons, pow_succ, ← h.length_eq]
    ring_nf

theorem isDigit_not_separator {base d : Nat} {c : Char} (hb : base ≤ 16) (h : IsDigit base c d) :
    c ≠ 'x' ∧ c ≠ ';' ∧ isBlank c = false := by
  obtain ⟨hd, h⟩ := h
  replace hd : d < 16 := lt_of_lt_of_le hd hb
  clear hb
  rcases h with rfl | rfl <;> revert d <;> decide

theorem forall₂_left {α β : Type} {R : α → β → Prop} {p : α → Prop} (hp : ∀ a b, R a b → p a) {as : List α}
    {bs : List β} (h : List.Forall₂ R as bs) : ∀ a ∈ as, p a := by
  induction h with
  | nil => simp
  | cons h _ ih => simpa using ⟨hp _ _ h, ih⟩

/-- Every way to write a number is read as that number. -/
theorem numberValue_of_spells {arg : List Char} {n : Nat} (h : Spells arg n) : numberValue arg = some n := by
  cases h with
  | @decimal cs ds hne h =>
    have hv := digitsValue_of_digits (h.imp fun _ _ => digitValue_of_isDigit_10) 0
    have hx := forall₂_left (p := (· ≠ 'x')) (fun _ _ h => (isDigit_not_separator (base := 10) (by norm_num) h).1) h
    rw [Nat.zero_mul, Nat.zero_add] at hv
    unfold numberValue
    split
    · exact absurd rfl (hx 'x' (by simp))
    · exact hv
    · exact absurd rfl hne
  | @hexadecimal cs ds hne h =>
    have hv := digitsValue_of_digits (h.imp fun _ _ => digitValue_of_isDigit_16) 0
    rw [Nat.zero_mul, Nat.zero_add] at hv
    cases cs with
    | nil => exact absurd rfl hne
    | cons c cs => exact hv

/-- The `k` lowest hexadecimal digits of a number. -/
theorem hexDigits_digits (n : Nat) : ∀ k, ∃ ds, List.Forall₂ (IsDigit 16) (hexDigits k n) ds ∧
    Nat.ofDigits 16 ds.reverse = n % 16 ^ k ∧ ds.length = k
  | 0 => ⟨[], .nil, by simp [Nat.mod_one], rfl⟩
  | k + 1 => by
    obtain ⟨ds, h, hv, hk⟩ := hexDigits_digits n k
    refine ⟨n / 16 ^ k % 16 :: ds, .cons ?_ h, ?_, by simp [hk]⟩
    · have hd : n / 16 ^ k % 16 < 16 := Nat.mod_lt _ (by norm_num)
      generalize n / 16 ^ k % 16 = d at *
      refine ⟨hd, .inr ?_⟩
      revert d; decide
    · rw [List.reverse_cons, Nat.ofDigits_append, Nat.ofDigits_singleton, hv, List.length_reverse, hk, pow_succ,
        Nat.mod_mul]

/-- The hexadecimal text of a number is one way to write it. -/
theorem spells_hexDigits {k n : Nat} (hk : k ≠ 0) (h : n < 16 ^ k) : Spells ('0' :: 'x' :: hexDigits k n) n := by
  obtain ⟨ds, hd, hv, hl⟩ := hexDigits_digits n k
  have hs : Spells ('0' :: 'x' :: hexDigits k n) (Nat.ofDigits 16 ds.reverse) := by
    refine .hexadecimal ?_ hd
    intro h0
    rw [h0] at hd
    cases hd
    exact hk hl.symm
  rwa [hv, Nat.mod_eq_of_lt h] at hs

/-! ## The parts of a line -/

/-- A part of a line: it is not empty and holds neither white space nor the start of a comment. -/
def IsPart (w : List Char) : Prop := w ≠ [] ∧ ∀ c ∈ w, isBlank c = false ∧ c ≠ ';'

theorem Spells.isPart {arg : List Char} {n : Nat} (h : Spells arg n) : IsPart arg := by
  cases h with
  | decimal hne h =>
    exact ⟨hne, forall₂_left (p := fun c => isBlank c = false ∧ c ≠ ';')
      (fun _ _ h => (isDigit_not_separator (base := 10) (by norm_num) h).2.symm) h⟩
  | @hexadecimal cs ds hne h =>
    have h := forall₂_left (p := fun c => isBlank c = false ∧ c ≠ ';')
      (fun _ _ h => (isDigit_not_separator (base := 16) le_rfl h).2.symm) h
    exact ⟨by simp, fun c hc => by
      rcases List.mem_cons.mp hc with rfl | hc
      · decide
      rcases List.mem_cons.mp hc with rfl | hc
      · decide
      exact h c hc⟩

theorem mnemonic_isPart (i : Instr) : IsPart i.mnemonic.toList := by
  cases i <;> simp [IsPart, Instr.mnemonic, isBlank]

theorem dropComment_append {w : List Char} (h : ∀ c ∈ w, c ≠ ';') (rest : List Char) :
    dropComment (w ++ rest) = w ++ dropComment rest := by
  induction w with
  | nil => rfl
  | cons c w ih =>
    simp only [List.cons_append, dropComment, h c (by simp), if_false]
    rw [ih fun d hd => h d (by simp [hd])]

theorem Blank.ne_comment {b : List Char} (h : Blank b) : ∀ c ∈ b, c ≠ ';' := fun c hc => by
  rcases h c hc with rfl | rfl <;> decide

theorem Blank.isBlank {b : List Char} (h : Blank b) : ∀ c ∈ b, isBlank c = true := fun c hc => by
  rcases h c hc with rfl | rfl <;> decide

theorem dropComment_lineEnd {e : List Char} (h : LineEnd e) : Blank (dropComment e) := by
  obtain ⟨b, hb, rfl | ⟨comment, rfl⟩⟩ := h
  · have := dropComment_append hb.ne_comment []
    simp only [List.append_nil, dropComment] at this
    rwa [this]
  · rw [dropComment_append hb.ne_comment]
    simpa [dropComment] using hb

theorem splitBlanks_blank {b : List Char} (h : Blank b) (rest : List Char) :
    splitBlanks [] (b ++ rest) = splitBlanks [] rest := by
  induction b with
  | nil => rfl
  | cons c b ih =>
    have hc := h.isBlank c (by simp)
    simp only [List.cons_append, splitBlanks, hc, if_true, List.isEmpty_nil]
    exact ih fun d hd => h d (by simp [hd])

theorem splitBlanks_part {w : List Char} (h : ∀ c ∈ w, isBlank c = false) (acc rest : List Char) :
    splitBlanks acc (w ++ rest) = splitBlanks (w.reverse ++ acc) rest := by
  induction w generalizing acc with
  | nil => rfl
  | cons c w ih =>
    have hc := h c (by simp)
    simp only [List.cons_append, splitBlanks, hc, Bool.false_eq_true, if_false]
    rw [ih fun d hd => h d (by simp [hd])]
    simp

/-- A part before white space, or at the end of the line, is one of the parts of the line. -/
theorem splitBlanks_part_blank {w b : List Char} (hw : IsPart w) (hb : Blank b) (rest : List Char)
    (hr : b ≠ [] ∨ rest = []) : splitBlanks [] (w ++ (b ++ rest)) = w :: splitBlanks [] rest := by
  have hne : w.reverse ≠ [] := by simpa using hw.1
  rw [splitBlanks_part fun c hc => (hw.2 c hc).1]
  cases b with
  | nil =>
    obtain rfl : rest = [] := hr.resolve_left (· rfl)
    simp [splitBlanks, hw.1]
  | cons c b =>
    have hc := hb.isBlank c (by simp)
    simp only [List.cons_append, splitBlanks, hc, if_true, List.append_nil, List.isEmpty_iff, hne, if_false,
      List.reverse_reverse]
    rw [splitBlanks_blank fun d hd => hb d (by simp [hd])]

/-- A line of one part. -/
theorem parts_of_one {lead w ending : List Char} (hl : Blank lead) (hw : IsPart w) (he : LineEnd ending) :
    splitBlanks [] (dropComment (lead ++ w ++ ending)) = [w] := by
  rw [List.append_assoc, dropComment_append hl.ne_comment, dropComment_append fun c hc => (hw.2 c hc).2,
    splitBlanks_blank hl]
  simpa [splitBlanks] using splitBlanks_part_blank hw (dropComment_lineEnd he) [] (.inr rfl)

/-- A line of two parts. -/
theorem parts_of_two {lead w gap v ending : List Char} (hl : Blank lead) (hw : IsPart w) (hg : Blank gap)
    (hne : gap ≠ []) (hv : IsPart v) (he : LineEnd ending) :
    splitBlanks [] (dropComment (lead ++ w ++ gap ++ v ++ ending)) = [w, v] := by
  simp only [List.append_assoc]
  rw [dropComment_append hl.ne_comment, dropComment_append fun c hc => (hw.2 c hc).2, dropComment_append hg.ne_comment,
    splitBlanks_blank hl, splitBlanks_part_blank hw hg _ (.inl hne)]
  have := parts_of_one (lead := []) (fun _ h => by simp at h) hv he
  simpa using this

/-! ## What a line stands for -/

theorem operandOf_map {f : Operand → Instr} (hf : ∀ x, (f x).wellFormed = true) {n : Nat} {i : Instr}
    (h : (operandOf n).map f = some i) : i.wellFormed = true := by
  obtain ⟨x, _, rfl⟩ := Option.map_eq_some_iff.mp h
  exact hf x

/-- A line stands for a well-formed instruction only. -/
theorem wellFormed_of_parseLine {line : List Char} {i : Instr} (h : parseLine line = some i) : i.wellFormed = true := by
  unfold parseLine at h
  split at h
  · split at h
    · cases h; rfl
    · cases h
  · split at h
    · cases h
    · split at h
      · exact operandOf_map (fun _ => rfl) h
      split at h
      · exact operandOf_map (fun _ => rfl) h
      split at h
      · exact operandOf_map (fun _ => rfl) h
      split at h
      · split at h
        · rename_i h3
          cases h
          simp [Instr.wellFormed, Instr.selectorInRange]; omega
        · cases h
      · cases h
  · cases h

end Sys2Proof.Machine
end

