-- ==== Sys2Proof/Laws/Exp.lean ====
section
/-! SUPPORT. The exponential of a rational number is irrational, and how near that of a dyadic number can be to a dyadic
number, by Hermite's polynomials; and so how near a logarithm can be to the middle of two binary64 numbers. It bounds the
search of `ln64` (log 13). -/

namespace Sys2Proof.Laws

open Polynomial
open scoped Nat

/-- Hermite's polynomial `X^n (u - qX)^n`. -/
noncomputable def hermite (u q n : ℕ) : ℤ[X] := X ^ n * (C (u : ℤ) - C (q : ℤ) * X) ^ n

theorem natDegree_hermite_le (u q n : ℕ) : (hermite u q n).natDegree ≤ 2 * n := by
  unfold hermite
  refine natDegree_mul_le.trans ?_
  have h1 : (C (u : ℤ) - C (q : ℤ) * X).natDegree ≤ 1 := by
    compute_degree
  have h2 := natDegree_pow_le_of_le n h1
  have h3 := natDegree_X_pow_le (R := ℤ) n
  omega

theorem abs_coeff_linear_mul_le (u q : ℕ) (p : ℤ[X]) (B : ℤ) (h : ∀ j, |p.coeff j| ≤ B) (j : ℕ) :
    |((C (u : ℤ) - C (q : ℤ) * X) * p).coeff j| ≤ ((u : ℤ) + q) * B := by
  have hB : 0 ≤ B := (abs_nonneg _).trans (h 0)
  have hX : |(X * p).coeff j| ≤ B := by
    cases j with
    | zero => rw [coeff_X_mul_zero, abs_zero]; exact hB
    | succ j => rw [coeff_X_mul]; exact h j
  rw [sub_mul, coeff_sub, coeff_C_mul, mul_assoc, coeff_C_mul]
  refine (abs_sub _ _).trans ?_
  rw [abs_mul, abs_mul, Nat.abs_cast, Nat.abs_cast, add_mul]
  exact add_le_add (mul_le_mul_of_nonneg_left (h j) (by positivity))
    (mul_le_mul_of_nonneg_left hX (by positivity))

theorem abs_coeff_linear_pow_le (u q n : ℕ) :
    ∀ j, |((C (u : ℤ) - C (q : ℤ) * X) ^ n).coeff j| ≤ ((u : ℤ) + q) ^ n := by
  induction n with
  | zero =>
    intro j
    rw [pow_zero, pow_zero, coeff_one]
    split <;> simp
  | succ n ih =>
    intro j
    rw [pow_succ', pow_succ' ((u : ℤ) + q)]
    exact abs_coeff_linear_mul_le u q _ _ ih j

theorem abs_coeff_hermite_le (u q n j : ℕ) : |(hermite u q n).coeff j| ≤ ((u : ℤ) + q) ^ n := by
  unfold hermite
  rw [coeff_X_pow_mul']
  split
  · exact abs_coeff_linear_pow_le u q n _
  · rw [abs_zero]; positivity

theorem eval_zero_iterate_derivative (p : ℤ[X]) (k : ℕ) : (derivative^[k] p).eval 0 = (k ! : ℤ) * p.coeff k := by
  rw [← coeff_zero_eq_eval_zero, coeff_iterate_derivative, zero_add, Nat.descFactorial_self, nsmul_eq_mul]

theorem abs_sumIDeriv_hermite_zero_le (u q n : ℕ) :
    |(sumIDeriv (hermite u q n)).eval 0| ≤ (2 * n + 1) * ((2 * n)! : ℤ) * ((u : ℤ) + q) ^ n := by
  rw [sumIDeriv_apply_of_le (natDegree_hermite_le u q n), eval_finsetSum]
  refine (Finset.abs_sum_le_sum_abs _ _).trans ?_
  have : ∀ k ∈ Finset.range (2 * n + 1), |(derivative^[k] (hermite u q n)).eval 0| ≤ ((2 * n)! : ℤ) * ((u : ℤ) + q) ^ n := by
    intro k hk
    rw [eval_zero_iterate_derivative, abs_mul, Nat.abs_cast]
    have h1 : k ! ≤ (2 * n)! := Nat.factorial_le (by have := Finset.mem_range.mp hk; omega)
    have h2 := abs_coeff_hermite_le u q n k
    gcongr
  refine (Finset.sum_le_sum this).trans ?_
  simp only [Finset.sum_const, Finset.card_range, nsmul_eq_mul]
  push_cast
  exact le_of_eq (by ring)

/-- Clearing the denominators of an integer polynomial of degree at most `n` at `u/q`. -/
theorem exists_int_eval_div (p : ℤ[X]) (n u q : ℕ) (hq : q ≠ 0) (hd : p.natDegree ≤ n) :
    ∃ z : ℤ, (q : ℝ) ^ n * aeval ((u : ℝ) / q) p = z := by
  refine ⟨∑ i ∈ Finset.range (n + 1), p.coeff i * (u : ℤ) ^ i * (q : ℤ) ^ (n - i), ?_⟩
  rw [aeval_eq_sum_range' (Nat.lt_succ_of_le hd), Finset.mul_sum]
  push_cast
  refine Finset.sum_congr rfl fun i hi => ?_
  have hi' : i ≤ n := Nat.lt_succ_iff.mp (Finset.mem_range.mp hi)
  have hq' : (q : ℝ) ≠ 0 := by exact_mod_cast hq
  rw [zsmul_eq_mul, div_pow, ← Nat.sub_add_cancel hi', pow_add, Nat.add_sub_cancel]
  field_simp

/-- `-e^(-x) F(x)`, `F` the sum of the iterated derivatives of Hermite's polynomial. -/
noncomputable def hermitePrimitive (u q n : ℕ) (x : ℝ) : ℝ := -(Real.exp (-x) * aeval x (sumIDeriv (hermite u q n)))

theorem aeval_hermite (u q n : ℕ) (x : ℝ) : aeval x (hermite u q n) = x ^ n * (u - q * x) ^ n := by
  simp [hermite]

theorem hasDerivAt_hermitePrimitive (u q n : ℕ) (x : ℝ) :
    HasDerivAt (hermitePrimitive u q n) (Real.exp (-x) * (x ^ n * (u - q * x) ^ n)) x := by
  have h1 : HasDerivAt (fun x : ℝ => aeval x (sumIDeriv (hermite u q n)))
      (aeval x (derivative (sumIDeriv (hermite u q n)))) x := by
    exact Polynomial.hasDerivAt_aeval _ _
  have h2 : HasDerivAt (fun x : ℝ => Real.exp (-x)) (-Real.exp (-x)) x := by
    simpa using (hasDerivAt_neg x).exp
  have h3 := (h2.mul h1).neg
  have h4 : aeval x (sumIDeriv (hermite u q n)) =
      x ^ n * (u - q * x) ^ n + aeval x (derivative (sumIDeriv (hermite u q n))) := by
    rw [← aeval_hermite, ← map_add, ← sumIDeriv_eq_self_add]
  refine h3.congr_deriv ?_
  rw [h4]; ring

theorem exists_hermitePrimitive_sub (u q n : ℕ) {a b : ℝ} (h : a < b) :
    ∃ x ∈ Set.Ioo a b, hermitePrimitive u q n b - hermitePrimitive u q n a =
      (b - a) * (Real.exp (-x) * (x ^ n * (u - q * x) ^ n)) := by
  obtain ⟨x, hx, he⟩ := exists_hasDerivAt_eq_slope (hermitePrimitive u q n) _ h
    (fun y _ => (hasDerivAt_hermitePrimitive u q n y).continuousAt.continuousWithinAt)
    (fun y _ => hasDerivAt_hermitePrimitive u q n y)
  refine ⟨x, hx, ?_⟩
  rw [he]
  have : b - a ≠ 0 := sub_ne_zero.mpr h.ne'
  field_simp

/-- The remainder of Hermite's approximation of `e^(u/q)`, between two positive bounds. -/
theorem hermite_remainder_bounds (u q n : ℕ) (hu : u ≠ 0) (hq : q ≠ 0) :
    let c : ℝ := u / q
    let R := Real.exp c * aeval (0 : ℝ) (sumIDeriv (hermite u q n)) - aeval c (sumIDeriv (hermite u q n))
    c / 2 * (c * u / 16) ^ n ≤ R ∧ R ≤ Real.exp c * (c * (c * u) ^ n) := by
  intro c R
  have hu' : (0 : ℝ) < u := by positivity
  have hq' : (0 : ℝ) < q := by positivity
  have hc : 0 < c := div_pos hu' hq'
  have hqc : q * c = u := by simp only [c]; field_simp
  have hR : R = Real.exp c * (hermitePrimitive u q n c - hermitePrimitive u q n 0) := by
    simp only [R, hermitePrimitive, neg_zero, Real.exp_zero, one_mul, Real.exp_neg]
    have := (Real.exp_pos c).ne'
    field_simp
    ring
  have hlin {x : ℝ} (hx : x ≤ c) : (q : ℝ) * x ≤ u := by
    rw [← hqc]; gcongr
  have hstep {a b : ℝ} (ha : 0 ≤ a) (hab : a < b) (hb : b ≤ c) :
      hermitePrimitive u q n a ≤ hermitePrimitive u q n b := by
    obtain ⟨x, hx, he⟩ := exists_hermitePrimitive_sub u q n hab
    have h0 : 0 ≤ x := ha.trans hx.1.le
    have h1 : 0 ≤ (u : ℝ) - q * x := sub_nonneg.mpr (hlin (hx.2.le.trans hb))
    have h2 : 0 ≤ b - a := sub_nonneg.mpr hab.le
    have : 0 ≤ (b - a) * (Real.exp (-x) * (x ^ n * (u - q * x) ^ n)) := by positivity
    linarith
  constructor
  · obtain ⟨x, hx, he⟩ := exists_hermitePrimitive_sub u q n (show c / 4 < 3 * c / 4 by linarith)
    have h1 := hstep le_rfl (show (0 : ℝ) < c / 4 by linarith) (by linarith)
    have h2 := hstep (show 0 ≤ 3 * c / 4 by linarith) (show 3 * c / 4 < c by linarith) le_rfl
    have h3 : c / 2 * (Real.exp (-c) * (c * u / 16) ^ n) ≤
        hermitePrimitive u q n c - hermitePrimitive u q n 0 := by
      have h4 : hermitePrimitive u q n (3 * c / 4) - hermitePrimitive u q n (c / 4) ≤
          hermitePrimitive u q n c - hermitePrimitive u q n 0 := by linarith
      refine le_trans ?_ h4
      rw [he, ← mul_pow, show 3 * c / 4 - c / 4 = c / 2 by ring]
      have h5 : (u : ℝ) / 4 ≤ u - q * x := by
        have : (q : ℝ) * x ≤ q * (3 * c / 4) := by gcongr; exact hx.2.le
        have h6 : (q : ℝ) * (3 * c / 4) = 3 * u / 4 := by rw [← hqc]; ring
        linarith
      have h6 : c * u / 16 ≤ x * (u - q * x) := by
        calc c * u / 16 = c / 4 * (u / 4) := by ring
          _ ≤ x * (u - q * x) := mul_le_mul hx.1.le h5 (by positivity) (by linarith [hx.1])
      have h7 : Real.exp (-c) ≤ Real.exp (-x) := Real.exp_le_exp.mpr (by linarith [hx.2])
      gcongr
    rw [hR]
    calc c / 2 * (c * u / 16) ^ n = Real.exp c * (c / 2 * (Real.exp (-c) * (c * u / 16) ^ n)) := by
          rw [Real.exp_neg]
          have := (Real.exp_pos c).ne'
          field_simp
      _ ≤ _ := by gcongr
  · obtain ⟨x, hx, he⟩ := exists_hermitePrimitive_sub u q n hc
    rw [hR, he, sub_zero, ← mul_pow]
    have h1 : 0 ≤ (u : ℝ) - q * x := sub_nonneg.mpr (hlin hx.2.le)
    have h2 : x * (u - q * x) ≤ c * u := by
      have : (0 : ℝ) ≤ q * x := mul_nonneg hq'.le hx.1.le
      exact mul_le_mul hx.2.le (by linarith) h1 hc.le
    have h3 : Real.exp (-x) ≤ 1 := Real.exp_le_one_iff.mpr (by linarith [hx.1])
    have h4 : 0 ≤ x * (u - q * x) := mul_nonneg hx.1.le h1
    calc _ ≤ Real.exp c * (c * (1 * (c * u) ^ n)) := by gcongr
      _ = _ := by rw [one_mul]

/-- `e^(u/q)` keeps a distance from every fraction `s/t`. -/
theorem hermite_separation (u q s t n : ℕ) (hu : u ≠ 0) (hq : q ≠ 0) (ht : t ≠ 0)
    (hn : 2 * t * (q : ℝ) ^ n * (Real.exp (u / q) * ((u / q : ℝ) * ((u / q : ℝ) * u) ^ n)) ≤ (n ! : ℝ)) :
    min (1 / (2 * t * (q : ℝ) ^ n)) ((u / q : ℝ) / 2 * ((u / q : ℝ) * u / 16) ^ n / n !) ≤
      |Real.exp (u / q) - s / t| * ((2 * n + 1) * (2 * n)! * (u + q) ^ n : ℕ) := by
  obtain ⟨g, hgd, hg⟩ := aeval_sumIDeriv (R := ℤ) ℝ (hermite u q n) n
  have hgd : g.natDegree ≤ n := hgd.trans (by have := natDegree_hermite_le u q n; omega)
  have ht' : (0 : ℝ) < t := by positivity
  have hq' : (0 : ℝ) < q := by positivity
  have hf : (0 : ℝ) < n ! := by exact_mod_cast Nat.factorial_pos n
  have hmap : (hermite u q n).map (algebraMap ℤ ℝ) = X ^ n * (C (u : ℝ) - C (q : ℝ) * X) ^ n := by
    simp [hermite, Polynomial.map_mul, Polynomial.map_pow]
  have hg0 := hg 0 (by rw [hmap, C_0, sub_zero]; exact dvd_mul_right _ _)
  have hgc := hg ((u : ℝ) / q) (by
    rw [hmap]
    refine Dvd.dvd.mul_left (pow_dvd_pow_of_dvd ⟨C (-(q : ℝ)), ?_⟩ n) _
    rw [sub_mul, ← C_mul, C_neg, show (u : ℝ) / q * -(q : ℝ) = -u by field_simp, C_neg]
    ring)
  obtain ⟨zc, hzc⟩ := exists_int_eval_div g n u q hq hgd
  have hz0 : aeval (0 : ℝ) g = ((g.eval 0 : ℤ) : ℝ) := by
    have := aeval_algebraMap_apply ℝ (0 : ℤ) g
    simpa using this
  have hF0 : aeval (0 : ℝ) (sumIDeriv (hermite u q n)) = (((sumIDeriv (hermite u q n)).eval 0 : ℤ) : ℝ) := by
    have := aeval_algebraMap_apply ℝ (0 : ℤ) (sumIDeriv (hermite u q n))
    simpa using this
  obtain ⟨hlo, hhi⟩ := hermite_remainder_bounds u q n hu hq
  generalize hz : g.eval 0 = z0 at hz0
  have hz0le : |(z0 : ℝ)| ≤ ((2 * n + 1) * (2 * n)! * (u + q) ^ n : ℕ) := by
    have h1 := abs_sumIDeriv_hermite_zero_le u q n
    have h2 : (((sumIDeriv (hermite u q n)).eval 0 : ℤ) : ℝ) = n ! * z0 := by
      rw [← hF0, hg0, hz0, nsmul_eq_mul]
    have h3 : |(((sumIDeriv (hermite u q n)).eval 0 : ℤ) : ℝ)| ≤ ((2 * n + 1) * (2 * n)! * (u + q) ^ n : ℕ) := by
      rw [← Int.cast_abs]
      exact_mod_cast h1
    rw [h2, abs_mul, Nat.abs_cast] at h3
    have h4 : (1 : ℝ) ≤ n ! := by exact_mod_cast Nat.factorial_pos n
    exact (le_mul_of_one_le_left (abs_nonneg _) h4).trans h3
  rw [hg0, hgc, hz0, nsmul_eq_mul, nsmul_eq_mul] at hlo hhi
  generalize hB : (((2 * n + 1) * (2 * n)! * (u + q) ^ n : ℕ) : ℝ) = B at *
  generalize hE : Real.exp ((u : ℝ) / q) = E at *
  generalize hC : aeval ((u : ℝ) / q) g = γ at *
  generalize hL : (u / q : ℝ) / 2 * ((u / q : ℝ) * u / 16) ^ n = L at *
  generalize hU : (u / q : ℝ) * ((u / q : ℝ) * u) ^ n = U at *
  have hR : E * (n ! * z0) - n ! * γ = n ! * (E * z0 - γ) := by ring
  rw [hR] at hlo hhi
  have hM : ((s * q ^ n * z0 - t * zc : ℤ) : ℝ) = t * (q : ℝ) ^ n * ((s / t - E) * z0 + (E * z0 - γ)) := by
    push_cast
    rw [← hzc]
    field_simp
    ring
  have hbound : |E - s / t| * |(z0 : ℝ)| ≤ |E - s / t| * B := by gcongr
  refine le_trans ?_ hbound
  by_cases hM0 : (s * q ^ n * z0 - t * zc : ℤ) = 0
  · rw [hM0, Int.cast_zero] at hM
    have h1 : (s / t - E) * z0 + (E * z0 - γ) = 0 := by
      have h2 : (t : ℝ) * (q : ℝ) ^ n ≠ 0 := by positivity
      exact (mul_eq_zero.mp hM.symm).resolve_left h2
    refine (min_le_right _ _).trans ?_
    rw [← abs_mul]
    refine le_trans ?_ (le_abs_self _)
    have h3 : (E - s / t) * z0 = E * z0 - γ := by linarith
    rw [h3, div_le_iff₀ hf]
    linarith
  · refine (min_le_left _ _).trans ?_
    have h1 : (1 : ℝ) ≤ |((s * q ^ n * z0 - t * zc : ℤ) : ℝ)| := by
      rw [← Int.cast_abs]
      exact_mod_cast Int.one_le_abs hM0
    have hT : (0 : ℝ) < t * (q : ℝ) ^ n := by positivity
    rw [hM, abs_mul, abs_of_pos hT] at h1
    have hpos : 0 ≤ E * z0 - γ := by
      have hL0 : 0 ≤ L := by rw [← hL]; positivity
      by_contra h
      have : n ! * (E * z0 - γ) < 0 := mul_neg_of_pos_of_neg hf (not_le.mp h)
      linarith
    have h2 : |(s / t - E) * z0 + (E * z0 - γ)| ≤ |E - s / t| * |(z0 : ℝ)| + (E * z0 - γ) := by
      refine (abs_add_le _ _).trans ?_
      rw [abs_mul, abs_sub_comm, abs_of_nonneg hpos]
    have h3 : t * (q : ℝ) ^ n * (E * z0 - γ) ≤ 1 / 2 := by
      have h4 : (n ! : ℝ) * (2 * (t * (q : ℝ) ^ n * (E * z0 - γ))) ≤ n ! * 1 := by
        calc (n ! : ℝ) * (2 * (t * (q : ℝ) ^ n * (E * z0 - γ)))
            = 2 * t * (q : ℝ) ^ n * (n ! * (E * z0 - γ)) := by ring
          _ ≤ 2 * t * (q : ℝ) ^ n * (E * U) := by gcongr
          _ ≤ n ! * 1 := by rw [mul_one]; exact hn
      have h5 := le_of_mul_le_mul_left h4 hf
      linarith
    have h6 : 1 ≤ t * (q : ℝ) ^ n * (|E - s / t| * |(z0 : ℝ)|) + 1 / 2 := by
      calc (1 : ℝ) ≤ t * (q : ℝ) ^ n * |(s / t - E) * z0 + (E * z0 - γ)| := h1
        _ ≤ t * (q : ℝ) ^ n * (|E - s / t| * |(z0 : ℝ)| + (E * z0 - γ)) := by gcongr
        _ ≤ _ := by rw [mul_add]; linarith
    rw [div_le_iff₀ (by positivity)]
    linarith

/-- The exponential of a positive rational number is no rational number. -/
theorem exp_ne_ratio (u q s t : ℕ) (hu : u ≠ 0) (hq : q ≠ 0) (ht : t ≠ 0) : Real.exp ((u : ℝ) / q) ≠ (s : ℝ) / t := by
  intro he
  have hq' : (0 : ℝ) < q := by positivity
  have ht' : (0 : ℝ) < t := by positivity
  have hu' : (0 : ℝ) < u := by positivity
  set K : ℝ := 2 * t * Real.exp (u / q) * (u / q) with hK
  set r : ℝ := q * ((u / q : ℝ) * u) with hr
  have hK0 : 0 < K := by positivity
  have hlim := (FloorSemiring.tendsto_pow_div_factorial_atTop r).eventually_lt_const (inv_pos.mpr hK0)
  obtain ⟨n, hn⟩ := hlim.exists
  have hf : (0 : ℝ) < n ! := by exact_mod_cast Nat.factorial_pos n
  rw [div_lt_iff₀ hf, inv_mul_eq_div, lt_div_iff₀ hK0] at hn
  have h := hermite_separation u q s t n hu hq ht (by
    refine le_trans (le_of_eq ?_) hn.le
    rw [hK, hr, mul_pow]
    ring)
  rw [he, sub_self, abs_zero, zero_mul] at h
  exact absurd h (not_le.mpr (lt_min (by positivity) (by positivity)))

/-- The logarithm of a rational number above 1 is no rational number. -/
theorem log_ne_ratio (s t u q : ℕ) (ht : t ≠ 0) (hq : q ≠ 0) (h : t < s) : Real.log ((s : ℝ) / t) ≠ (u : ℝ) / q := by
  intro he
  have ht' : (0 : ℝ) < t := by positivity
  have h1 : (1 : ℝ) < s / t := by rw [one_lt_div ht']; exact_mod_cast h
  have hu : u ≠ 0 := by
    rintro rfl
    have := Real.log_pos h1
    rw [he] at this
    simp at this
  refine exp_ne_ratio u q s t hu hq ht ?_
  rw [← he, Real.exp_log (by linarith)]

theorem exp_le_two_pow (c : ℝ) (h : c ≤ 64) : Real.exp c ≤ 2 ^ 128 := by
  calc Real.exp c ≤ Real.exp 64 := Real.exp_le_exp.mpr h
    _ = Real.exp 1 ^ 64 := by rw [← Real.exp_nat_mul]; norm_num
    _ ≤ 3 ^ 64 := by
      have := Real.exp_one_lt_d9
      gcongr
      linarith
    _ ≤ 2 ^ 128 := by norm_num

/-- The separation with explicit powers of 2, for a degree `n` whose factorial is large. -/
theorem exp_separation_of_factorial (e n u s : ℕ) (he : e = 4401) (hn : 1000 ≤ n) (hne : n ≤ 2 ^ e)
    (hf : 2 ^ (2200 * n) ≤ n !) (hu : u ≠ 0) (hu2 : u ≤ 2 ^ (1075 + 6)) :
    1 ≤ |Real.exp ((u : ℝ) / 2 ^ 1075) - (s : ℝ) / 2 ^ 1074| * 2 ^ (16384 * n) := by
  have hc1 : (u : ℝ) / 2 ^ 1075 ≤ 2 ^ 6 := by
    rw [div_le_iff₀ (by positivity), ← pow_add, Nat.add_comm]
    exact_mod_cast hu2
  have hu1 : (1 : ℝ) ≤ u := by exact_mod_cast Nat.one_le_iff_ne_zero.mpr hu
  have hu3 : (u : ℝ) ≤ 2 ^ (1075 + 6) := by exact_mod_cast hu2
  have hc0 : 1 / 2 ^ 1075 ≤ (u : ℝ) / 2 ^ 1075 := by gcongr
  have hsep := hermite_separation u (2 ^ 1075) s (2 ^ 1074) n hu (by positivity) (by positivity) (by
    rw [Nat.cast_pow, Nat.cast_pow, Nat.cast_two]
    have hE := exp_le_two_pow ((u : ℝ) / 2 ^ 1075) (by norm_num at hc1 ⊢; exact hc1)
    have h1 : (u : ℝ) / 2 ^ 1075 * u ≤ 2 ^ 6 * 2 ^ (1075 + 6) := by gcongr
    calc 2 * 2 ^ 1074 * ((2 : ℝ) ^ 1075) ^ n * (Real.exp (u / 2 ^ 1075) * (u / 2 ^ 1075 * (u / 2 ^ 1075 * u) ^ n))
        ≤ 2 * 2 ^ 1074 * (2 ^ 1075) ^ n * (2 ^ 128 * (2 ^ 6 * (2 ^ 6 * 2 ^ (1075 + 6)) ^ n)) := by gcongr
      _ = 2 ^ (1 + 1074 + 1075 * n + (128 + (6 + (6 + (1075 + 6)) * n))) := by
        simp only [pow_add, pow_mul, pow_one, mul_pow]
      _ ≤ 2 ^ (2200 * n) := pow_le_pow_right₀ (by norm_num) (by omega)
      _ ≤ (n ! : ℝ) := by exact_mod_cast hf)
  simp only [Nat.cast_mul, Nat.cast_add, Nat.cast_pow, Nat.cast_ofNat, Nat.cast_one] at hsep
  have hfac : n ! ≤ 2 ^ (e * n) := by
    rw [pow_mul]
    exact (Nat.factorial_le_pow n).trans (Nat.pow_le_pow_left hne n)
  have hfac2 : (2 * n)! ≤ 2 ^ ((e + 1) * (2 * n)) := by
    rw [pow_mul]
    refine (Nat.factorial_le_pow (2 * n)).trans (Nat.pow_le_pow_left ?_ _)
    rw [pow_succ]; omega
  have hmin : 1 / (2 : ℝ) ^ (1076 + 1079 * n + e * n) ≤
      min (1 / (2 * 2 ^ 1074 * ((2 : ℝ) ^ 1075) ^ n)) ((u / 2 ^ 1075 : ℝ) / 2 * ((u / 2 ^ 1075 : ℝ) * u / 16) ^ n / n !) := by
    refine le_min ?_ ?_
    · gcongr
      calc 2 * 2 ^ 1074 * ((2 : ℝ) ^ 1075) ^ n = 2 ^ (1 + 1074 + 1075 * n) := by
            simp only [pow_add, pow_mul, pow_one]
        _ ≤ 2 ^ (1076 + 1079 * n + e * n) := pow_le_pow_right₀ (by norm_num) (by omega)
    · have h1 : 1 / (2 : ℝ) ^ 1075 * 1 / 16 ≤ (u / 2 ^ 1075 : ℝ) * u / 16 := by gcongr
      have h2 : (n ! : ℝ) ≤ 2 ^ (e * n) := by exact_mod_cast hfac
      calc 1 / (2 : ℝ) ^ (1076 + 1079 * n + e * n)
          = 1 / 2 ^ 1075 / 2 * (1 / (2 : ℝ) ^ 1075 * 1 / 16) ^ n / 2 ^ (e * n) := by
            rw [show (1 : ℝ) / 2 ^ 1075 * 1 / 16 = 1 / 2 ^ (1075 + 4) by rw [pow_add]; field_simp; norm_num,
              one_div_pow, ← pow_mul, show 1076 + 1079 * n + e * n = 1075 + 1 + (1075 + 4) * n + e * n by ring]
            rw [pow_add _ _ (e * n), pow_add _ (1075 + 1), pow_add _ 1075 1]
            field_simp
        _ ≤ _ := by gcongr
  have hB : ((2 : ℝ) * n + 1) * (2 * n)! * (u + 2 ^ 1075) ^ n ≤ 2 ^ (e + 2 + (e + 1) * (2 * n) + 1082 * n) := by
    have h1 : (2 : ℝ) * n + 1 ≤ 2 ^ (e + 2) := by
      have : 2 * n + 1 ≤ 2 ^ (e + 2) := by rw [pow_add]; omega
      exact_mod_cast this
    have h2 : ((2 * n)! : ℝ) ≤ 2 ^ ((e + 1) * (2 * n)) := by exact_mod_cast hfac2
    have h3 : (u : ℝ) + 2 ^ 1075 ≤ 2 ^ 1082 := by
      have h4 : (2 : ℝ) ^ 1075 ≤ 2 ^ (1075 + 6) := pow_le_pow_right₀ (by norm_num) (by norm_num)
      exact (add_le_add hu3 h4).trans_eq (by rw [← mul_two, ← pow_succ])
    calc _ ≤ (2 : ℝ) ^ (e + 2) * 2 ^ ((e + 1) * (2 * n)) * (2 ^ 1082) ^ n := by gcongr
      _ = _ := by rw [← pow_mul, ← pow_add, ← pow_add]
  have h := hmin.trans (hsep.trans (mul_le_mul_of_nonneg_left hB (abs_nonneg _)))
  rw [div_le_iff₀ (by positivity), mul_assoc, ← pow_add] at h
  refine h.trans ?_
  gcongr
  · norm_num
  · subst he; omega

theorem two_pow_le_factorial (k : ℕ) : 2 ^ (k * 2 ^ k) ≤ (2 * 2 ^ k)! := by
  have h := Nat.factorial_mul_pow_le_factorial (m := 2 ^ k) (n := 2 ^ k)
  calc 2 ^ (k * 2 ^ k) = (2 ^ k) ^ 2 ^ k := by rw [pow_mul]
    _ ≤ (2 ^ k + 1) ^ 2 ^ k := Nat.pow_le_pow_left (Nat.le_succ _) _
    _ ≤ (2 ^ k)! * (2 ^ k + 1) ^ 2 ^ k := Nat.le_mul_of_pos_left _ (Nat.factorial_pos _)
    _ ≤ (2 ^ k + 2 ^ k)! := h
    _ = _ := by rw [two_mul]

/-- `e^c` for a dyadic `c` in `(0, 64]` keeps an explicit distance from every multiple of `2^-1074`. -/
theorem exp_dyadic_separation (u s : ℕ) (hu : u ≠ 0) (hu2 : u ≤ 2 ^ (1075 + 6)) :
    1 ≤ |Real.exp ((u : ℝ) / 2 ^ 1075) - (s : ℝ) / 2 ^ 1074| * 2 ^ (2 ^ (4400 + 15)) := by
  obtain ⟨k, hk⟩ : ∃ k, k = 4400 := ⟨_, rfl⟩
  have h := exp_separation_of_factorial (k + 1) (2 * 2 ^ k) u s (by omega) (by
      have : 2 ^ 10 ≤ 2 ^ k := Nat.pow_le_pow_right (by norm_num) (by omega)
      omega) (by rw [pow_succ]; omega) (by
      refine le_trans (Nat.pow_le_pow_right (by norm_num) ?_) (two_pow_le_factorial k)
      rw [← mul_assoc]
      exact Nat.mul_le_mul_right _ (by omega)) hu hu2
  rwa [show 16384 * (2 * 2 ^ k) = 2 ^ (k + 15) by rw [pow_add]; ring, hk] at h

theorem exp_sub_exp_le (x y : ℝ) : Real.exp x - Real.exp y ≤ Real.exp x * (x - y) := by
  have h : y - x + 1 ≤ Real.exp (y - x) := Real.add_one_le_exp _
  have h2 : Real.exp y = Real.exp x * Real.exp (y - x) := by rw [← Real.exp_add]; ring_nf
  have h3 := mul_le_mul_of_nonneg_left h (Real.exp_pos x).le
  rw [h2]
  linarith

theorem abs_exp_sub_exp_le {x y : ℝ} (hx : x ≤ 64) (hy : y ≤ 64) :
    |Real.exp x - Real.exp y| ≤ 2 ^ 128 * |x - y| := by
  have key {a b : ℝ} (ha : a ≤ 64) : Real.exp a - Real.exp b ≤ 2 ^ 128 * |a - b| :=
    (exp_sub_exp_le a b).trans ((mul_le_mul_of_nonneg_left (le_abs_self _) (Real.exp_pos a).le).trans
      (mul_le_mul_of_nonneg_right (exp_le_two_pow a ha) (abs_nonneg _)))
  rw [abs_le]
  constructor
  · have := key (b := x) hy
    rw [abs_sub_comm] at this
    linarith
  · exact key hx

/-- The logarithm of a multiple of `2^-1074` keeps an explicit distance from every positive multiple of `2^-1075`. -/
theorem log_dyadic_separation (u s : ℕ) (hu : u ≠ 0) (hu2 : u ≤ 2 ^ (1075 + 6)) (hs : s ≠ 0)
    (hl : Real.log ((s : ℝ) / 2 ^ 1074) ≤ 64) :
    1 ≤ |Real.log ((s : ℝ) / 2 ^ 1074) - (u : ℝ) / 2 ^ 1075| * 2 ^ (2 ^ (4400 + 16)) := by
  have hpos : (0 : ℝ) < (s : ℝ) / 2 ^ 1074 := 
    div_pos (Nat.cast_pos.mpr (Nat.pos_of_ne_zero hs)) (pow_pos two_pos _)
  have hc : (u : ℝ) / 2 ^ 1075 ≤ 64 := by
    rw [div_le_iff₀ (by positivity)]
    have h : (u : ℝ) ≤ 2 ^ (1075 + 6) := by exact_mod_cast hu2
    rwa [Nat.add_comm, pow_add, show (2 : ℝ) ^ 6 = 64 by norm_num] at h
  have h := exp_dyadic_separation u s hu hu2
  have h1 := abs_exp_sub_exp_le hc hl
  rw [Real.exp_log hpos, abs_sub_comm ((u : ℝ) / 2 ^ 1075)] at h1
  obtain ⟨k, hk⟩ : ∃ k, k = 4400 + 15 := ⟨_, rfl⟩
  rw [← hk] at h
  rw [show 4400 + 16 = k + 1 by omega]
  generalize |Real.log ((s : ℝ) / 2 ^ 1074) - (u : ℝ) / 2 ^ 1075| = d at *
  have hd : 0 ≤ d := nonneg_of_mul_nonneg_right ((abs_nonneg _).trans h1) (by positivity)
  have hexp : 128 + 2 ^ k ≤ 2 ^ (k + 1) := by
    have : 2 ^ 7 ≤ 2 ^ k := Nat.pow_le_pow_right (by norm_num) (by omega)
    rw [pow_succ]; omega
  calc (1 : ℝ) ≤ 2 ^ 128 * d * 2 ^ (2 ^ k) := h.trans (mul_le_mul_of_nonneg_right h1 (by positivity))
    _ = d * 2 ^ (128 + 2 ^ k) := by rw [pow_add]; ring
    _ ≤ d * 2 ^ (2 ^ (k + 1)) := mul_le_mul_of_nonneg_left (pow_le_pow_right₀ (by norm_num) hexp) hd

end Sys2Proof.Laws
end

