-- ==== Sys2Proof/Laws/Float.lean ====
section
/-! SUPPORT. The laws of binary64 rounding: the nearest integer, the encoding a number rounds to and what that encoding
stands for, monotonicity, exactness on binary64 numbers, the order of encodings, and what lies
between two numbers that round differently. -/

namespace Sys2Proof.Machine

/-! ## The nearest integer -/

theorem roundHalfEven_near {num den : Nat} (h : 0 < den) :
    2 * num ≤ 2 * (roundHalfEven num den * den) + den ∧ 2 * (roundHalfEven num den * den) ≤ 2 * num + den := by
  have hd := Nat.div_add_mod num den
  have hm := Nat.mod_lt num h
  have hc := Nat.mul_comm den (num / den)
  unfold roundHalfEven
  split
  · constructor <;> omega
  · split
    · rw [Nat.add_mul, Nat.one_mul]; constructor <;> omega
    · have h2 : num / den % 2 = 0 ∨ num / den % 2 = 1 := by omega
      rcases h2 with h2 | h2 <;> rw [h2, Nat.add_mul] <;> constructor <;> omega

/-- At a tie the result is even. -/
theorem roundHalfEven_tie {num den : Nat} (h : 0 < den)
    (ht : 2 * num = 2 * (roundHalfEven num den * den) + den ∨ 2 * (roundHalfEven num den * den) = 2 * num + den) :
    roundHalfEven num den % 2 = 0 := by
  have hd := Nat.div_add_mod num den
  have hm := Nat.mod_lt num h
  have hc := Nat.mul_comm den (num / den)
  unfold roundHalfEven at *
  split at ht
  · omega
  · split at ht
    · rw [Nat.add_mul, Nat.one_mul] at ht; omega
    · rw [if_neg ‹_›, if_neg ‹_›]; omega

/-- The nearest integer is the only integer that is at most as far, but for ties. -/
theorem le_roundHalfEven {num den k : Nat} (h : 0 < den) (hk : k * den ≤ num) : k ≤ roundHalfEven num den := by
  have hq : k ≤ num / den := (Nat.le_div_iff_mul_le h).mpr hk
  unfold roundHalfEven; split
  · exact hq
  · split <;> omega

theorem roundHalfEven_le {num den k : Nat} (h : 0 < den) (hk : num ≤ k * den) : roundHalfEven num den ≤ k := by
  have hn := (roundHalfEven_near (num := num) h).2
  by_contra hlt
  have h1 : (k + 1) * den ≤ roundHalfEven num den * den := Nat.mul_le_mul_right _ (by omega)
  rw [Nat.add_mul, Nat.one_mul] at h1
  omega

theorem roundHalfEven_exact {k den : Nat} (h : 0 < den) : roundHalfEven (k * den) den = k :=
  le_antisymm (roundHalfEven_le h le_rfl) (le_roundHalfEven h le_rfl)

/-- Rounding is monotone in the fraction. -/
theorem roundHalfEven_mono {a b c d : Nat} (hb : 0 < b) (hd : 0 < d) (h : a * d ≤ c * b) :
    roundHalfEven a b ≤ roundHalfEven c d := by
  by_contra hlt
  have hlt : roundHalfEven c d + 1 ≤ roundHalfEven a b := by omega
  have h1 := (roundHalfEven_near (num := a) hb).2
  have h2 := (roundHalfEven_near (num := c) hd).1
  generalize hx : roundHalfEven a b = x at *
  generalize hy : roundHalfEven c d = y at *
  have e1 : (2 * (x * b)) * d ≤ (2 * a + b) * d := Nat.mul_le_mul_right _ h1
  have e2 : (2 * c) * b ≤ (2 * (y * d) + d) * b := Nat.mul_le_mul_right _ h2
  have e3 : (y + 1) * (b * d) ≤ x * (b * d) := Nat.mul_le_mul_right _ hlt
  have e4 : 2 * (x * (b * d)) ≤ 2 * (a * d) + b * d := by nlinarith
  have e5 : 2 * (c * b) ≤ 2 * (y * (b * d)) + b * d := by nlinarith
  have e6 : y * (b * d) + b * d ≤ x * (b * d) := by rw [Nat.add_mul, Nat.one_mul] at e3; exact e3
  have hpos : 0 < b * d := Nat.mul_pos hb hd
  -- both fractions lie at the tie between y and y + 1, and both results are even
  have e7 : x * (b * d) = y * (b * d) + b * d := by omega
  have e8 : x = y + 1 := by
    have : x * (b * d) = (y + 1) * (b * d) := by rw [Nat.add_mul, Nat.one_mul]; exact e7
    exact Nat.eq_of_mul_eq_mul_right hpos this
  have e9 : 2 * (a * d) = 2 * (y * (b * d)) + b * d := by omega
  have e10 : 2 * (c * b) = 2 * (y * (b * d)) + b * d := by omega
  have t1 : x % 2 = 0 := by
    rw [← hx]
    refine roundHalfEven_tie hb (.inr ?_)
    rw [hx]
    have : (2 * (x * b)) * d = (2 * a + b) * d := by nlinarith
    exact Nat.eq_of_mul_eq_mul_right hd this
  have t2 : y % 2 = 0 := by
    rw [← hy]
    refine roundHalfEven_tie hd (.inl ?_)
    rw [hy]
    have : (2 * c) * b = (2 * (y * d) + d) * b := by nlinarith
    exact Nat.eq_of_mul_eq_mul_right hb this
  omega

/-! ## The parts of an encoding -/

/-- The rounded significand of `r`. -/
def significand (r : Ratio) : Nat := roundHalfEven (r.num * 2 ^ F64.unitExp) (r.den * 2 ^ F64.excessBits r)

theorem f64_toNat (r : Ratio) :
    (f64 r).toNat = min (F64.excessBits r * 2 ^ 52 + significand r) F64.infinityBits := by
  show (BitVec.ofNat 64 _).toNat = _
  rw [BitVec.toNat_ofNat]
  refine Nat.mod_eq_of_lt (lt_of_le_of_lt (Nat.min_le_right _ _) (by decide))

/-- Where `r` lies, by its number of excess bits. -/
theorem excessBits_bounds {r : Ratio} (h : 0 < r.den) :
    r.num * 2 ^ F64.unitExp < 2 ^ (53 + F64.excessBits r) * r.den ∧
    (F64.excessBits r ≠ 0 → 2 ^ (52 + F64.excessBits r) * r.den ≤ r.num * 2 ^ F64.unitExp) := by
  unfold F64.excessBits
  generalize hn : r.num * 2 ^ F64.unitExp = n
  have h1 : n / r.den < 2 ^ (Nat.log2 (n / r.den) + 1) := Nat.lt_log2_self
  constructor
  · rw [← Nat.div_lt_iff_lt_mul h]
    exact lt_of_lt_of_le h1 (Nat.pow_le_pow_right (by norm_num) (by omega))
  · intro he
    rw [← Nat.le_div_iff_mul_le h]
    have h0 : n / r.den ≠ 0 := by
      intro h0; rw [h0] at he; exact he (by decide)
    exact le_trans (Nat.pow_le_pow_right (by norm_num) (by omega)) (Nat.log2_self_le h0)

theorem significand_le {r : Ratio} (h : 0 < r.den) : significand r ≤ 2 ^ 53 := by
  refine roundHalfEven_le (Nat.mul_pos h (Nat.two_pow_pos _)) ?_
  have := (excessBits_bounds h).1
  rw [Nat.pow_add] at this
  calc _ ≤ 2 ^ 53 * 2 ^ F64.excessBits r * r.den := this.le
    _ = _ := by ring

theorem le_significand {r : Ratio} (h : 0 < r.den) (he : F64.excessBits r ≠ 0) : 2 ^ 52 ≤ significand r := by
  refine le_roundHalfEven (Nat.mul_pos h (Nat.two_pow_pos _)) ?_
  have := (excessBits_bounds h).2 he
  rw [Nat.pow_add] at this
  calc _ = 2 ^ 52 * 2 ^ F64.excessBits r * r.den := by ring
    _ ≤ _ := this

/-- What the encoding put together from `e` excess bits and a significand stands for. -/
theorem units_of_parts {e m : Nat} (hm : m ≤ 2 ^ 53) (he : e = 0 ∨ 2 ^ 52 ≤ m)
    (hb : e * 2 ^ 52 + m < 2 ^ 63) : F64.units (BitVec.ofNat 64 (e * 2 ^ 52 + m)) = m * 2 ^ e := by
  have hx : (BitVec.ofNat 64 (e * 2 ^ 52 + m)).toNat = e * 2 ^ 52 + m := by
    rw [BitVec.toNat_ofNat]; exact Nat.mod_eq_of_lt (by omega)
  unfold F64.units F64.exponent F64.fraction
  rw [hx]
  have hd : (e * 2 ^ 52 + m) / 2 ^ 52 = e + m / 2 ^ 52 := by
    rw [Nat.add_comm, Nat.add_mul_div_right _ _ (by norm_num), Nat.add_comm]
  have hr : (e * 2 ^ 52 + m) % 2 ^ 52 = m % 2 ^ 52 := by
    rw [Nat.add_comm, Nat.add_mul_mod_self_right]
  rw [hd, hr, Nat.mod_eq_of_lt (a := e + m / 2 ^ 52) (by omega)]
  rcases Nat.lt_trichotomy m (2 ^ 52) with h | h | h
  · have h0 : e = 0 := by omega
    subst h0
    rw [Nat.div_eq_of_lt h, Nat.mod_eq_of_lt h]; simp
  · subst h
    rw [Nat.div_self (by norm_num), Nat.mod_self]; simp
  · rcases Nat.eq_or_lt_of_le hm with h53 | h53
    · subst h53
      norm_num
      rw [Nat.pow_succ]; ring
    · have h1 : m / 2 ^ 52 = 1 := by omega
      have h2 : m % 2 ^ 52 = m - 2 ^ 52 := by omega
      rw [h1, h2, if_neg (by omega), Nat.add_sub_cancel, Nat.add_sub_cancel' (by omega)]

/-- A finite result stands for its significand and its excess bits. -/
theorem units_f64 {r : Ratio} (h : 0 < r.den) (hf : F64.finite (f64 r)) :
    (f64 r).toNat = F64.excessBits r * 2 ^ 52 + significand r ∧
    F64.units (f64 r) = significand r * 2 ^ F64.excessBits r := by
  have ht := f64_toNat r
  unfold F64.finite at hf
  have hlt : F64.excessBits r * 2 ^ 52 + significand r < F64.infinityBits := by omega
  have hn : (f64 r).toNat = F64.excessBits r * 2 ^ 52 + significand r := by omega
  refine ⟨hn, ?_⟩
  have hb : f64 r = BitVec.ofNat 64 (F64.excessBits r * 2 ^ 52 + significand r) := by
    apply BitVec.eq_of_toNat_eq
    rw [hn, BitVec.toNat_ofNat]
    exact (Nat.mod_eq_of_lt (lt_trans hlt (by decide))).symm
  rw [hb]
  refine units_of_parts (significand_le h) ?_ (lt_trans hlt (by decide))
  by_cases he : F64.excessBits r = 0
  · exact .inl he
  · exact .inr (le_significand h he)

/-! ## Monotonicity -/

theorem excessBits_mono {r q : Ratio} (hr : 0 < r.den) (hq : 0 < q.den) (h : r.num * q.den ≤ q.num * r.den) :
    F64.excessBits r ≤ F64.excessBits q := by
  have hdiv : r.num * 2 ^ F64.unitExp / r.den ≤ q.num * 2 ^ F64.unitExp / q.den := by
    rw [Nat.le_div_iff_mul_le hq]
    have h1 : r.num * 2 ^ F64.unitExp / r.den * r.den ≤ r.num * 2 ^ F64.unitExp := Nat.div_mul_le_self _ _
    have h2 : r.num * 2 ^ F64.unitExp / r.den * q.den * r.den ≤ q.num * 2 ^ F64.unitExp * r.den := by
      calc _ = r.num * 2 ^ F64.unitExp / r.den * r.den * q.den := by ring
        _ ≤ r.num * 2 ^ F64.unitExp * q.den := Nat.mul_le_mul_right _ h1
        _ = r.num * q.den * 2 ^ F64.unitExp := by ring
        _ ≤ q.num * r.den * 2 ^ F64.unitExp := Nat.mul_le_mul_right _ h
        _ = _ := by ring
    exact Nat.le_of_mul_le_mul_right h2 hr
  unfold F64.excessBits
  have : Nat.log2 (r.num * 2 ^ F64.unitExp / r.den) ≤ Nat.log2 (q.num * 2 ^ F64.unitExp / q.den) := by
    rw [Nat.log2_eq_log_two, Nat.log2_eq_log_two]; exact Nat.log_mono_right hdiv
  omega

/-- A greater number rounds to a greater or equal encoding. -/
theorem f64_mono {r q : Ratio} (hr : 0 < r.den) (hq : 0 < q.den) (h : r.num * q.den ≤ q.num * r.den) :
    (f64 r).toNat ≤ (f64 q).toNat := by
  rw [f64_toNat, f64_toNat]
  refine min_le_min_right _ ?_
  rcases Nat.eq_or_lt_of_le (excessBits_mono hr hq h) with he | he
  · rw [he]
    refine Nat.add_le_add_left ?_ _
    unfold significand
    rw [he]
    refine roundHalfEven_mono (Nat.mul_pos hr (Nat.two_pow_pos _)) (Nat.mul_pos hq (Nat.two_pow_pos _)) ?_
    calc _ = r.num * q.den * (2 ^ F64.unitExp * 2 ^ F64.excessBits q) := by ring
      _ ≤ q.num * r.den * (2 ^ F64.unitExp * 2 ^ F64.excessBits q) := Nat.mul_le_mul_right _ h
      _ = _ := by ring
  · have h1 := significand_le hr
    have h2 := le_significand hq (by omega)
    have h3 : (F64.excessBits r + 1) * 2 ^ 52 ≤ F64.excessBits q * 2 ^ 52 := Nat.mul_le_mul_right _ he
    rw [Nat.add_mul] at h3
    omega

/-! ## Exactness -/

/-- A multiple of `2^e` with at most 53 significant bits is a binary64 number, and rounds to itself. -/
theorem f64_exact {r : Ratio} {m e : Nat} (h : 0 < r.den) (hm : m < 2 ^ 53) (he : e ≤ 2045)
    (hv : r.num * 2 ^ F64.unitExp = m * 2 ^ e * r.den) :
    F64.finite (f64 r) ∧ F64.units (f64 r) = m * 2 ^ e := by
  have hdiv : r.num * 2 ^ F64.unitExp / r.den = m * 2 ^ e := by
    rw [hv]; exact Nat.mul_div_cancel _ h
  -- the excess bits of r are at most e, so its value is a whole number of quanta
  have hxe : F64.excessBits r ≤ e := by
    unfold F64.excessBits
    rw [hdiv]
    by_cases h0 : m * 2 ^ e = 0
    · rw [h0]; simp
    · have : Nat.log2 (m * 2 ^ e) < 53 + e := by
        rw [Nat.log2_lt h0, Nat.pow_add]
        exact Nat.mul_lt_mul_of_pos_right hm (Nat.two_pow_pos _)
      omega
  obtain ⟨d, hd⟩ := Nat.exists_eq_add_of_le hxe
  have hs : significand r = m * 2 ^ d := by
    unfold significand
    have hpow : 2 ^ e = 2 ^ F64.excessBits r * 2 ^ d := by rw [← Nat.pow_add, ← hd]
    rw [hv, hpow, show m * (2 ^ F64.excessBits r * 2 ^ d) * r.den = m * 2 ^ d * (r.den * 2 ^ F64.excessBits r) by ring]
    exact roundHalfEven_exact (Nat.mul_pos h (Nat.two_pow_pos _))
  have hfin : F64.finite (f64 r) := by
    unfold F64.finite
    rw [f64_toNat]
    have hlt : significand r < 2 ^ 53 := by
      have hb := (excessBits_bounds h).1
      rw [hv] at hb
      have hb := Nat.lt_of_mul_lt_mul_right hb
      rw [hs]
      rw [hd, Nat.pow_add, Nat.pow_add, show m * (2 ^ F64.excessBits r * 2 ^ d) = m * 2 ^ d * 2 ^ F64.excessBits r by ring]
        at hb
      exact Nat.lt_of_mul_lt_mul_right hb
    have h3 : F64.excessBits r * 2 ^ 52 ≤ 2045 * 2 ^ 52 := Nat.mul_le_mul_right _ (by omega)
    refine lt_of_le_of_lt (Nat.min_le_left _ _) ?_
    calc F64.excessBits r * 2 ^ 52 + significand r < 2045 * 2 ^ 52 + 2 ^ 53 := Nat.add_lt_add_of_le_of_lt h3 hlt
      _ = F64.infinityBits := by norm_num [F64.infinityBits]
  refine ⟨hfin, ?_⟩
  rw [(units_f64 h hfin).2, hs, hd, Nat.pow_add]; ring

/-! ## The order of encodings -/

theorem units_lt (a : F64) : F64.units a < 2 ^ (52 + a.exponent) := by
  have hf : a.fraction < 2 ^ 52 := Nat.mod_lt _ (by norm_num)
  unfold F64.units
  split
  · rename_i h; rw [h]; exact hf
  · obtain ⟨x, hx⟩ : ∃ x, a.exponent = x + 1 := ⟨a.exponent - 1, by omega⟩
    rw [hx, Nat.add_sub_cancel, show 52 + (x + 1) = 53 + x by omega, Nat.pow_add]
    exact Nat.mul_lt_mul_of_pos_right (by omega) (Nat.two_pow_pos _)

theorem le_units {a : F64} (h : a.exponent ≠ 0) : 2 ^ (51 + a.exponent) ≤ F64.units a := by
  unfold F64.units
  obtain ⟨x, hx⟩ : ∃ x, a.exponent = x + 1 := ⟨a.exponent - 1, by omega⟩
  rw [if_neg h, hx, Nat.add_sub_cancel, show 51 + (x + 1) = 52 + x by omega, Nat.pow_add]
  exact Nat.mul_le_mul_right _ (by omega)

theorem toNat_eq_parts {a : F64} (h : a.toNat < 2 ^ 63) : a.toNat = a.exponent * 2 ^ 52 + a.fraction := by
  unfold F64.exponent F64.fraction
  rw [Nat.mod_eq_of_lt (a := a.toNat / 2 ^ 52) (by omega)]
  omega

/-- Finite encodings are ordered as their numbers. -/
theorem units_strictMono {a b : F64} (hb : F64.finite b) (h : a.toNat < b.toNat) : F64.units a < F64.units b := by
  have hb' : b.toNat < 2 ^ 63 := lt_trans hb (by decide)
  have ea := toNat_eq_parts (a := a) (by omega)
  have eb := toNat_eq_parts hb'
  have fa : a.fraction < 2 ^ 52 := Nat.mod_lt _ (by norm_num)
  have fb : b.fraction < 2 ^ 52 := Nat.mod_lt _ (by norm_num)
  rcases Nat.lt_trichotomy a.exponent b.exponent with hx | hx | hx
  · refine lt_of_lt_of_le (units_lt a) (le_trans ?_ (le_units (by omega)))
    exact Nat.pow_le_pow_right (by norm_num) (by omega)
  · have hf : a.fraction < b.fraction := by rw [hx] at ea; omega
    unfold F64.units
    rw [hx]
    split
    · exact hf
    · exact Nat.mul_lt_mul_of_pos_right (by omega) (Nat.two_pow_pos _)
  · have : (b.exponent + 1) * 2 ^ 52 ≤ a.exponent * 2 ^ 52 := Nat.mul_le_mul_right _ hx
    rw [Nat.add_mul] at this
    omega

theorem units_injective {a b : F64} (ha : F64.finite a) (hb : F64.finite b) (h : F64.units a = F64.units b) : a = b := by
  apply BitVec.eq_of_toNat_eq
  rcases Nat.lt_trichotomy a.toNat b.toNat with hl | hl | hl
  · exact absurd (units_strictMono hb hl) (by omega)
  · exact hl
  · exact absurd (units_strictMono ha hl) (by omega)

theorem units_le_iff {a b : F64} (ha : F64.finite a) (hb : F64.finite b) :
    F64.units a ≤ F64.units b ↔ a.toNat ≤ b.toNat := by
  constructor
  · intro h
    by_contra hlt
    exact absurd (units_strictMono ha (Nat.lt_of_not_le hlt)) (by omega)
  · intro h
    rcases Nat.eq_or_lt_of_le h with h | h
    · rw [BitVec.eq_of_toNat_eq h]
    · exact (units_strictMono hb h).le

/-- A number is a multiple of `2^e` units, or has fewer than 53 bits above them. -/
theorem units_dvd_or_lt (c : F64) (e : Nat) : 2 ^ e ∣ F64.units c ∨ F64.units c < 2 ^ (52 + e) := by
  by_cases h : c.exponent ≤ e
  · exact .inr (lt_of_lt_of_le (units_lt c) (Nat.pow_le_pow_right (by norm_num) (by omega)))
  · left
    unfold F64.units
    rw [if_neg (by omega)]
    exact Dvd.dvd.mul_left (Nat.pow_dvd_pow 2 (by omega)) _

/-! ## Nearest -/

/-- The finite result is at most half of its quantum away. -/
theorem f64_near {r : Ratio} (h : 0 < r.den) (hf : F64.finite (f64 r)) :
    2 * (r.num * 2 ^ F64.unitExp) ≤ 2 * (F64.units (f64 r) * r.den) + r.den * 2 ^ F64.excessBits r ∧
    2 * (F64.units (f64 r) * r.den) ≤ 2 * (r.num * 2 ^ F64.unitExp) + r.den * 2 ^ F64.excessBits r := by
  have hn := roundHalfEven_near (num := r.num * 2 ^ F64.unitExp)
    (Nat.mul_pos h (Nat.two_pow_pos (F64.excessBits r)))
  have hs : F64.units (f64 r) * r.den =
      roundHalfEven (r.num * 2 ^ F64.unitExp) (r.den * 2 ^ F64.excessBits r) * (r.den * 2 ^ F64.excessBits r) := by
    rw [(units_f64 h hf).2]; unfold significand; ring
  rw [hs]
  exact hn

theorem f64_finite_of_lt {r : Ratio} (h : 0 < r.den) (hlt : r.num * 2 ^ F64.unitExp * 2 < (2 ^ 54 - 1) * 2 ^ 2045 * r.den) :
    F64.finite (f64 r) := by
  unfold F64.finite
  rw [f64_toNat]
  refine lt_of_le_of_lt (Nat.min_le_left _ _) ?_
  have hinf : F64.infinityBits = 2046 * 2 ^ 52 + 2 ^ 52 := by norm_num [F64.infinityBits]
  have hs := significand_le h
  have hlt54 (x : Nat) (hx : 0 < x) : (2 ^ 54 - 1) * x * r.den < 2 ^ 54 * x * r.den :=
    Nat.mul_lt_mul_of_pos_right (Nat.mul_lt_mul_of_pos_right (by norm_num) hx) h
  have h54 := hlt54 (2 ^ 2045) (Nat.two_pow_pos _)
  -- at most 2045 excess bits
  have hx : F64.excessBits r ≤ 2045 := by
    by_contra hgt
    have hb := (excessBits_bounds h).2 (by omega)
    have h1 (x : Nat) (hx : x < F64.excessBits r) : 2 ^ 54 * 2 ^ x * r.den ≤ 2 ^ (52 + F64.excessBits r) * r.den * 2 := by
      have : 2 ^ (53 + x) * r.den ≤ 2 ^ (52 + F64.excessBits r) * r.den :=
        Nat.mul_le_mul_right _ (Nat.pow_le_pow_right (by norm_num) (by omega))
      calc _ = 2 ^ (53 + x) * r.den * 2 := by rw [Nat.pow_add]; ring
        _ ≤ _ := Nat.mul_le_mul_right _ this
    have h2 := h1 2045 (by omega)
    omega
  rcases Nat.eq_or_lt_of_le hx with hx | hx
  · rw [hx, hinf]
    have hlt53 : significand r < 2 ^ 53 := by
      rcases Nat.eq_or_lt_of_le hs with he | he
      · exfalso
        have hn := (roundHalfEven_near (num := r.num * 2 ^ F64.unitExp)
          (Nat.mul_pos h (Nat.two_pow_pos (F64.excessBits r)))).2
        rw [show roundHalfEven (r.num * 2 ^ F64.unitExp) (r.den * 2 ^ F64.excessBits r) = 2 ^ 53 from he, hx] at hn
        have h1 : 2 * (2 ^ 53 * (r.den * 2 ^ 2045)) = (2 ^ 54 - 1) * 2 ^ 2045 * r.den + r.den * 2 ^ 2045 := by
          generalize (2 : Nat) ^ 2045 = x
          rw [show (2 ^ 54 - 1 : Nat) = 18014398509481983 by norm_num, show (2 ^ 53 : Nat) = 9007199254740992 by norm_num]
          ring
        omega
      · exact he
    omega
  · rw [hinf]
    have : F64.excessBits r * 2 ^ 52 ≤ 2044 * 2 ^ 52 := Nat.mul_le_mul_right _ (by omega)
    omega

/-- Two fractions that round to different numbers have a multiple of half a unit between them. -/
theorem exists_half_unit_between {r q : Ratio} (hr : 0 < r.den) (hq : 0 < q.den) (h : r.num * q.den ≤ q.num * r.den)
    (fr : F64.finite (f64 r)) (fq : F64.finite (f64 q)) (hne : f64 r ≠ f64 q) :
    ∃ c : Nat, 2 * (r.num * 2 ^ F64.unitExp) ≤ c * r.den ∧ c * q.den ≤ 2 * (q.num * 2 ^ F64.unitExp) := by
  have hbr := (excessBits_bounds hr).1
  have nr := f64_near hr fr
  have nq := f64_near hq fq
  rcases Nat.eq_or_lt_of_le (excessBits_mono hr hq h) with he | he
  · refine ⟨2 * F64.units (f64 r) + 2 ^ F64.excessBits r, ?_, ?_⟩
    · calc _ ≤ _ := nr.1
        _ = _ := by ring
    · have hs : significand r < significand q := by
        have hle := f64_mono hr hq h
        have h1 := (units_f64 hr fr).1
        have h2 := (units_f64 hq fq).1
        have h3 : (f64 r).toNat ≠ (f64 q).toNat := fun h => hne (BitVec.eq_of_toNat_eq h)
        rw [he] at h1
        omega
      have hu : F64.units (f64 r) + 2 ^ F64.excessBits r ≤ F64.units (f64 q) := by
        rw [(units_f64 hr fr).2, (units_f64 hq fq).2, he]
        calc _ = (significand r + 1) * 2 ^ F64.excessBits q := by ring
          _ ≤ _ := Nat.mul_le_mul_right _ hs
      have h4 : (2 * (F64.units (f64 r) + 2 ^ F64.excessBits r)) * q.den ≤ 2 * (F64.units (f64 q) * q.den) := by
        rw [← Nat.mul_assoc]
        exact Nat.mul_le_mul_right _ (Nat.mul_le_mul_left _ hu)
      have h5 := nq.2
      rw [← he] at h5
      have h6 : (2 * F64.units (f64 r) + 2 ^ F64.excessBits r) * q.den + q.den * 2 ^ F64.excessBits r =
          (2 * (F64.units (f64 r) + 2 ^ F64.excessBits r)) * q.den := by ring
      omega
  · have hbq := (excessBits_bounds hq).2 (by omega)
    refine ⟨2 * 2 ^ (52 + F64.excessBits q), ?_, ?_⟩
    · have : 2 ^ (53 + F64.excessBits r) * r.den ≤ 2 ^ (52 + F64.excessBits q) * r.den :=
        Nat.mul_le_mul_right _ (Nat.pow_le_pow_right (by norm_num) (by omega))
      rw [Nat.mul_assoc]
      omega
    · rw [Nat.mul_assoc]
      omega

/-! ## Numbers as rationals -/

theorem unitExp_eq : F64.unitExp = 1074 := by rw [F64.unitExp]

theorem unit_pos : (0 : ℚ) < 2 ^ F64.unitExp := pow_pos two_pos _

theorem toRat_eq (a : F64) : F64.toRat a = (F64.units a : ℚ) / 2 ^ F64.unitExp := by
  unfold F64.toRat Ratio.toRat F64.value
  rw [Nat.cast_pow, Nat.cast_ofNat]

theorem den_value_pos (a : F64) : 0 < (F64.value a).den := Nat.two_pow_pos _

theorem toRat_le_iff {a b : F64} : F64.toRat a ≤ F64.toRat b ↔ F64.units a ≤ F64.units b := by
  rw [toRat_eq, toRat_eq, div_le_div_iff_of_pos_right unit_pos, Nat.cast_le]

theorem toRat_injective {a b : F64} (ha : F64.finite a) (hb : F64.finite b) (h : F64.toRat a = F64.toRat b) : a = b :=
  units_injective ha hb (le_antisymm (toRat_le_iff.mp h.le) (toRat_le_iff.mp h.ge))

theorem toRat_nonneg (a : F64) : 0 ≤ F64.toRat a := by rw [toRat_eq]; exact div_nonneg (Nat.cast_nonneg _) unit_pos.le

/-- The order of fractions as an order of products. -/
theorem num_mul_le_iff {r q : Ratio} (hr : 0 < r.den) (hq : 0 < q.den) :
    r.num * q.den ≤ q.num * r.den ↔ r.toRat ≤ q.toRat := by
  unfold Ratio.toRat
  rw [div_le_div_iff₀ (Nat.cast_pos.mpr hr) (Nat.cast_pos.mpr hq)]
  exact_mod_cast Iff.rfl

/-- Rounding depends on the number, not on the fraction. -/
theorem f64_congr {r q : Ratio} (hr : 0 < r.den) (hq : 0 < q.den) (h : r.toRat = q.toRat) : f64 r = f64 q :=
  BitVec.eq_of_toNat_eq (le_antisymm (f64_mono hr hq ((num_mul_le_iff hr hq).mpr h.le))
    (f64_mono hq hr ((num_mul_le_iff hq hr).mpr h.ge)))

/-- A number of at most 53 significant bits rounds to itself. -/
theorem toRat_f64 {r : Ratio} {m e : Nat} (h : 0 < r.den) (hm : m < 2 ^ 53) (he : e ≤ 2045)
    (hv : r.toRat * 2 ^ F64.unitExp = m * 2 ^ e) : F64.finite (f64 r) ∧ F64.toRat (f64 r) = r.toRat := by
  have hd : (r.den : ℚ) ≠ 0 := Nat.cast_ne_zero.mpr h.ne'
  have hn : r.num * 2 ^ F64.unitExp = m * 2 ^ e * r.den := by
    unfold Ratio.toRat at hv
    rw [div_mul_eq_mul_div, div_eq_iff hd] at hv
    exact_mod_cast hv
  obtain ⟨hf, hu⟩ := f64_exact h hm he hn
  refine ⟨hf, ?_⟩
  rw [toRat_eq, hu, div_eq_iff unit_pos.ne', hv]
  push_cast
  rfl

/-- The significand and the power of a finite number. -/
theorem exists_parts {a : F64} (ha : F64.finite a) :
    ∃ m, m < 2 ^ 53 ∧ a.exponent - 1 ≤ 2045 ∧ F64.units a = m * 2 ^ (a.exponent - 1) := by
  have hf : a.fraction < 2 ^ 52 := Nat.mod_lt _ (by norm_num)
  have hp := toNat_eq_parts (a := a) (lt_trans ha (by decide))
  have hx : a.exponent ≤ 2046 := by
    unfold F64.finite at ha
    rw [hp, show F64.infinityBits = 2047 * 2 ^ 52 by norm_num [F64.infinityBits]] at ha
    by_contra hgt
    have : 2047 * 2 ^ 52 ≤ a.exponent * 2 ^ 52 := Nat.mul_le_mul_right _ (by omega)
    omega
  unfold F64.units
  by_cases h0 : a.exponent = 0
  · exact ⟨a.fraction, by omega, by omega, by rw [if_pos h0, h0]; simp⟩
  · exact ⟨2 ^ 52 + a.fraction, by omega, by omega, by rw [if_neg h0]⟩

/-- A finite number rounds to itself. -/
theorem f64_value {a : F64} (ha : F64.finite a) : f64 (F64.value a) = a := by
  obtain ⟨m, hm, he, hu⟩ := exists_parts ha
  have h := toRat_f64 (r := F64.value a) (den_value_pos a) hm he (by
    rw [show (F64.value a).toRat = F64.toRat a from rfl, toRat_eq, div_mul_cancel₀ _ unit_pos.ne', hu]
    push_cast
    rfl)
  exact toRat_injective h.1 ha h.2

/-- Rounding keeps a number on its side of every finite number. -/
theorem f64_le {r : Ratio} {c : F64} (h : 0 < r.den) (hc : F64.finite c) (hle : r.toRat ≤ F64.toRat c) :
    F64.finite (f64 r) ∧ F64.toRat (f64 r) ≤ F64.toRat c := by
  have hm := f64_mono h (den_value_pos c) ((num_mul_le_iff h (den_value_pos c)).mpr hle)
  rw [f64_value hc] at hm
  have hf : F64.finite (f64 r) := lt_of_le_of_lt hm hc
  exact ⟨hf, toRat_le_iff.mpr ((units_le_iff hf hc).mpr hm)⟩

theorem le_f64 {r : Ratio} {c : F64} (h : 0 < r.den) (hc : F64.finite c) (hf : F64.finite (f64 r))
    (hle : F64.toRat c ≤ r.toRat) : F64.toRat c ≤ F64.toRat (f64 r) := by
  have hm := f64_mono (den_value_pos c) h ((num_mul_le_iff (den_value_pos c) h).mpr hle)
  rw [f64_value hc] at hm
  exact toRat_le_iff.mpr ((units_le_iff hc hf).mpr hm)

/-- `f64(2^p)` is exact. -/
theorem toRat_f64OfNat_two_pow {p : Nat} (hp : p ≤ 64) :
    F64.finite (f64OfNat (2 ^ p)) ∧ F64.toRat (f64OfNat (2 ^ p)) = 2 ^ p := by
  have hv : (Ratio.ofNat (2 ^ p)).toRat = 2 ^ p := by simp [Ratio.toRat, Ratio.ofNat]
  have h := toRat_f64 (r := Ratio.ofNat (2 ^ p)) (m := 1) (e := p + F64.unitExp) Nat.one_pos (by norm_num)
    (by rw [unitExp_eq]; omega) (by rw [hv, pow_add, Nat.cast_one, one_mul])
  exact ⟨h.1, h.2.trans hv⟩

/-- `f64(n)` is exact for `n < 2^53`. -/
theorem toRat_f64OfNat {n : Nat} (hn : n < 2 ^ 53) : F64.finite (f64OfNat n) ∧ F64.toRat (f64OfNat n) = n := by
  have hv : (Ratio.ofNat n).toRat = n := by simp [Ratio.toRat, Ratio.ofNat]
  have h := toRat_f64 (r := Ratio.ofNat n) (m := n) (e := F64.unitExp) Nat.one_pos hn
    (by rw [unitExp_eq]; omega) (by rw [hv])
  exact ⟨h.1, h.2.trans hv⟩

theorem toRat_value_mul (a b : F64) : ((F64.value a).mul (F64.value b)).toRat = F64.toRat a * F64.toRat b := by
  unfold F64.toRat Ratio.toRat Ratio.mul
  push_cast
  exact mul_div_mul_comm _ _ _ _

theorem toRat_value_div (a b : F64) : ((F64.value a).div (F64.value b)).toRat = F64.toRat a / F64.toRat b := by
  unfold F64.toRat Ratio.toRat Ratio.div
  push_cast
  exact (div_div_div_eq _ _ _ _).symm

/-- A product by `f64(2^p)` is exact where it stays in range. -/
theorem toRat_fmul_two_pow {a b : F64} {p : Nat} (ha : F64.finite a) (hp : p ≤ 64) (hx : a.exponent + p ≤ 2046)
    (hb : F64.toRat b = 2 ^ p) :
    F64.finite (fmul a b) ∧ F64.toRat (fmul a b) = F64.toRat a * 2 ^ p := by
  obtain ⟨m, hm, he, hu⟩ := exists_parts ha
  have hv := toRat_value_mul a b
  have h := toRat_f64 (r := (F64.value a).mul (F64.value b)) (m := m) (e := a.exponent - 1 + p)
    (Nat.mul_pos (den_value_pos a) (den_value_pos b)) hm (by omega) (by
      rw [hv, hb, toRat_eq, hu, pow_add]
      push_cast
      rw [div_mul_eq_mul_div, div_mul_cancel₀ _ unit_pos.ne']
      ring)
  rw [hv, hb] at h
  exact h

theorem fmul_comm (a b : F64) : fmul a b = fmul b a := by
  unfold fmul Ratio.mul
  rw [Nat.mul_comm (F64.value a).num, Nat.mul_comm (F64.value a).den]

theorem exponent_of_units {a : F64} {k : Nat} (h : F64.units a < 2 ^ (51 + k)) : a.exponent < k ∨ a.exponent = 0 := by
  by_contra hc
  have h0 : a.exponent ≠ 0 := by omega
  have := lt_of_le_of_lt (le_units h0) h
  have := (Nat.pow_lt_pow_iff_right (by norm_num : 1 < 2)).mp this
  omega

/-! ## Distances and overflow -/

/-- A distance between a binary64 number and a fraction, in units. -/
theorem dist_eq (r : Ratio) (h : 0 < r.den) (c : F64) :
    |F64.toRat c - r.toRat| = ((|((F64.units c * r.den : Nat) : ℤ) - (r.num * 2 ^ F64.unitExp : Nat)| : ℤ) : ℚ) /
      (2 ^ F64.unitExp * r.den) := by
  have h1 : (0 : ℚ) < r.den := by exact_mod_cast h
  have h2 : (0 : ℚ) < 2 ^ F64.unitExp := unit_pos
  have h3 : F64.toRat c - r.toRat = (((F64.units c * r.den : Nat) : ℚ) - ((r.num * 2 ^ F64.unitExp : Nat) : ℚ)) /
      (2 ^ F64.unitExp * r.den) := by
    rw [toRat_eq, Ratio.toRat, Nat.cast_mul, Nat.cast_mul, Nat.cast_pow, Nat.cast_ofNat]
    field_simp
  rw [h3, abs_div, abs_of_pos (mul_pos h2 h1)]
  push_cast
  rfl

theorem lt_overflow_iff {a b c e : Nat} (hc : c = 54 + a) (he : e = a + b + 1) (n d : Nat) (hd : 0 < d) :
    (n : ℚ) / d < 2 ^ c - 2 ^ a ↔ n * 2 ^ b * 2 < (2 ^ 54 - 1) * 2 ^ e * d := by
  subst hc he
  have h1 : (0 : ℚ) < d := Nat.cast_pos.mpr hd
  have h2 : ((2 : ℚ) ^ (54 + a) - 2 ^ a) * d = (((2 ^ 54 - 1) * 2 ^ a * d : Nat) : ℚ) := by
    rw [Nat.cast_mul, Nat.cast_mul, Nat.cast_sub (by norm_num), pow_add]
    push_cast
    ring
  rw [div_lt_iff₀ h1, h2, Nat.cast_lt]
  have h3 : n * 2 ^ b * 2 = n * 2 ^ (b + 1) := by rw [pow_succ]; ring
  have h4 : (2 ^ 54 - 1) * 2 ^ (a + b + 1) * d = (2 ^ 54 - 1) * 2 ^ a * d * 2 ^ (b + 1) := by
    rw [add_assoc, pow_add]; ring
  rw [h3, h4]
  exact (Nat.mul_lt_mul_right (Nat.two_pow_pos _)).symm

/-- The fractions that round to a finite number, as rationals and in units. -/
theorem toRat_lt_overflow_iff {r : Ratio} (h : 0 < r.den) :
    r.toRat < 2 ^ 1024 - 2 ^ 970 ↔ r.num * 2 ^ F64.unitExp * 2 < (2 ^ 54 - 1) * 2 ^ 2045 * r.den := by
  obtain ⟨c, hc⟩ : ∃ c, c = 1024 := ⟨_, rfl⟩
  obtain ⟨a, ha⟩ : ∃ a, a = 970 := ⟨_, rfl⟩
  obtain ⟨e, he⟩ : ∃ e, e = 2045 := ⟨_, rfl⟩
  rw [← hc, ← ha, ← he]
  exact lt_overflow_iff (by omega) (by rw [unitExp_eq]; omega) r.num r.den h

end Sys2Proof.Machine
end

