-- ==== Sys2Proof/Laws/Log.lean ====
section
/-! SUPPORT. The logarithm: exact fractions as rationals, the series of atanh, its bounds, and the bounds of `ln a`. -/

namespace Sys2Proof.Laws

open Sys2Proof Sys2Proof.Machine Finset

theorem toRat_add {a b : Ratio} (ha : a.den ≠ 0) (hb : b.den ≠ 0) : (a.add b).toRat = a.toRat + b.toRat := by
  have h1 : (a.den : ℚ) ≠ 0 := by exact_mod_cast ha
  have h2 : (b.den : ℚ) ≠ 0 := by exact_mod_cast hb
  simp only [Ratio.toRat, Ratio.add, Nat.cast_add, Nat.cast_mul]
  field_simp

theorem toRat_mul (a b : Ratio) : (a.mul b).toRat = a.toRat * b.toRat := by
  simp only [Ratio.toRat, Ratio.mul, Nat.cast_mul]
  exact mul_div_mul_comm _ _ _ _

theorem toRat_div (a b : Ratio) : (a.div b).toRat = a.toRat / b.toRat := by
  simp only [Ratio.toRat, Ratio.div, Nat.cast_mul]
  exact (div_div_div_eq _ _ _ _).symm

theorem toRat_ofNat (n : Nat) : (Ratio.ofNat n).toRat = n := by
  simp [Ratio.toRat, Ratio.ofNat]

/-! ## The series of atanh -/

theorem den_atanhHorner (u : Nat) {v : Nat} (hv : v ≠ 0) : ∀ n i, (atanhHorner u v n i).den ≠ 0
  | 0, _ => by simp [atanhHorner]
  | n + 1, i => by
    have := den_atanhHorner u hv n (i + 1)
    simp [atanhHorner, Ratio.add, Ratio.mul, hv, this]

theorem toRat_atanhHorner (u : Nat) {v : Nat} (hv : v ≠ 0) : ∀ n i,
    (atanhHorner u v n i).toRat = ∑ k ∈ range n, 1 / (2 * (i + k : ℚ) + 1) * ((u : ℚ) / v) ^ (2 * k)
  | 0, _ => by simp [atanhHorner, Ratio.toRat]
  | n + 1, i => by
    have hd := den_atanhHorner u hv n (i + 1)
    have hv' : (v : ℚ) ≠ 0 := by exact_mod_cast hv
    rw [atanhHorner, toRat_add (by simp) (by simp [Ratio.mul, hv, hd]), toRat_mul, toRat_atanhHorner u hv n (i + 1),
      sum_range_succ', mul_sum, add_comm]
    congr 1
    · refine sum_congr rfl fun k _ => ?_
      simp only [Ratio.toRat, Nat.cast_mul, Nat.cast_add, Nat.cast_one]
      rw [show 2 * (k + 1) = 2 + 2 * k by ring, pow_add, add_assoc (i : ℚ), add_comm (1 : ℚ) k]
      rw [← mul_assoc, ← mul_assoc]
      congr 1
      rw [div_pow]
      ring
    · simp [Ratio.toRat]

theorem den_twoAtanhLower (u : Nat) {v : Nat} (hv : v ≠ 0) (n : Nat) : (twoAtanhLower u v n).den ≠ 0 := by
  simp [twoAtanhLower, Ratio.mul, hv, den_atanhHorner u hv]

theorem toRat_twoAtanhLower (u : Nat) {v : Nat} (hv : v ≠ 0) (n : Nat) :
    (twoAtanhLower u v n).toRat = ∑ k ∈ range n, 2 * (1 / (2 * (k : ℚ) + 1)) * ((u : ℚ) / v) ^ (2 * k + 1) := by
  rw [twoAtanhLower, toRat_mul, toRat_atanhHorner u hv, mul_sum]
  refine sum_congr rfl fun k _ => ?_
  simp only [Ratio.toRat, Nat.cast_mul, Nat.cast_ofNat, Nat.cast_zero, zero_add]
  rw [pow_succ]
  ring

theorem den_twoAtanhTail {u v : Nat} (h : u < v) (n : Nat) : (twoAtanhTail u v n).den ≠ 0 := by
  have h1 : u * u < v * v := Nat.mul_self_lt_mul_self h
  have h2 : v ≠ 0 := by omega
  have h3 : v * v - u * u ≠ 0 := by omega
  have h4 : v ^ (2 * n + 1) ≠ 0 := pow_ne_zero _ h2
  simp only [twoAtanhTail]
  exact Nat.mul_ne_zero (Nat.mul_ne_zero (by omega) h4) h3

theorem toRat_twoAtanhTail {u v : Nat} (h : u < v) (n : Nat) :
    (twoAtanhTail u v n).toRat =
      2 * ((u : ℚ) / v) ^ (2 * n + 1) / ((2 * (n : ℚ) + 1) * (1 - ((u : ℚ) / v) ^ 2)) := by
  have h1 : u * u ≤ v * v := (Nat.mul_self_lt_mul_self h).le
  have hv : (v : ℚ) ≠ 0 := by have : v ≠ 0 := by omega
                              exact_mod_cast this
  have h2 : ((v : ℚ) * v - u * u) ≠ 0 := by
    have : (u : ℚ) * u < v * v := by exact_mod_cast Nat.mul_self_lt_mul_self h
    linarith
  have h3 : (1 - ((u : ℚ) / v) ^ 2) = (v * v - u * u) / (v * v) := by field_simp
  have h4 : (2 * (n : ℚ) + 1) ≠ 0 := by positivity
  rw [h3]
  simp only [Ratio.toRat, twoAtanhTail, Nat.cast_mul, Nat.cast_add, Nat.cast_sub h1, Nat.cast_pow, Nat.cast_ofNat,
    Nat.cast_one, div_pow]
  field_simp

theorem den_twoAtanhUpper {u v : Nat} (h : u < v) (n : Nat) : (twoAtanhUpper u v n).den ≠ 0 :=
  Nat.mul_ne_zero (den_twoAtanhLower u (by omega) n) (den_twoAtanhTail h n)

theorem toRat_twoAtanhUpper {u v : Nat} (h : u < v) (n : Nat) :
    (twoAtanhUpper u v n).toRat = (twoAtanhLower u v n).toRat + (twoAtanhTail u v n).toRat :=
  toRat_add (den_twoAtanhLower u (by omega) n) (den_twoAtanhTail h n)

/-- The partial sum and the partial sum with the tail enclose `log ((1 + z) / (1 - z))`. -/
theorem log_series_bounds {z : ℝ} (h0 : 0 ≤ z) (h1 : z < 1) (n : Nat) :
    let S := ∑ k ∈ range n, 2 * (1 / (2 * (k : ℝ) + 1)) * z ^ (2 * k + 1)
    S ≤ Real.log (1 + z) - Real.log (1 - z) ∧
    Real.log (1 + z) - Real.log (1 - z) ≤ S + 2 * z ^ (2 * n + 1) / ((2 * (n : ℝ) + 1) * (1 - z ^ 2)) := by
  intro S
  have hs := Real.hasSum_log_sub_log_of_abs_lt_one (abs_lt.mpr ⟨by linarith, h1⟩ : |z| < 1)
  have hterm (k : Nat) : 0 ≤ 2 * (1 / (2 * (k : ℝ) + 1)) * z ^ (2 * k + 1) := by positivity
  have hz2 : z ^ 2 < 1 := by nlinarith
  refine ⟨sum_le_hasSum _ (fun k _ => hterm k) hs, ?_⟩
  have ht := (hasSum_nat_add_iff' n).mpr hs
  have hg := (hasSum_geometric_of_lt_one (sq_nonneg z) hz2).mul_left (2 * z ^ (2 * n + 1) / (2 * (n : ℝ) + 1))
  have hle := hasSum_le (fun k => ?_) ht hg
  · rw [div_mul_eq_mul_div, ← div_eq_mul_inv, div_div, mul_comm (1 - z ^ 2)] at hle
    linarith
  · rw [show 2 * (k + n) + 1 = (2 * n + 1) + 2 * k by ring, pow_add, pow_mul]
    have hk : (1 : ℝ) / (2 * ((k + n : ℕ) : ℝ) + 1) ≤ 1 / (2 * (n : ℝ) + 1) := by
      push_cast
      gcongr
      linarith [Nat.cast_nonneg (α := ℝ) k]
    calc 2 * (1 / (2 * ((k + n : ℕ) : ℝ) + 1)) * (z ^ (2 * n + 1) * (z ^ 2) ^ k)
        ≤ 2 * (1 / (2 * (n : ℝ) + 1)) * (z ^ (2 * n + 1) * (z ^ 2) ^ k) := by gcongr
      _ = _ := by ring

/-- The two bounds of `2 atanh (u/v)` as reals. -/
theorem twoAtanh_bounds {u v : Nat} (h : u < v) (n : Nat) :
    (((twoAtanhLower u v n).toRat : ℚ) : ℝ) ≤ Real.log (((v : ℝ) + u) / (v - u)) ∧
    Real.log (((v : ℝ) + u) / (v - u)) ≤ (((twoAtanhUpper u v n).toRat : ℚ) : ℝ) := by
  have hv : (0 : ℝ) < v := by exact_mod_cast (by omega : 0 < v)
  have hu : (u : ℝ) < v := by exact_mod_cast h
  have h0 : 0 ≤ (u : ℝ) / v := by positivity
  have h1 : (u : ℝ) / v < 1 := (div_lt_one hv).mpr hu
  have hlog : Real.log (((v : ℝ) + u) / (v - u)) = Real.log (1 + (u : ℝ) / v) - Real.log (1 - (u : ℝ) / v) := by
    rw [← Real.log_div (by positivity) (by linarith)]
    congr 1
    field_simp
  rw [hlog, toRat_twoAtanhUpper h, toRat_twoAtanhLower u (by omega), toRat_twoAtanhTail h]
  push_cast
  exact log_series_bounds h0 h1 n

/-- The two bounds of `2 atanh (u/v)`, `u/v <= 1/3`, are near. -/
theorem twoAtanhTail_le {u v : Nat} (h : 3 * u ≤ v) (hv : v ≠ 0) (n : Nat) :
    (twoAtanhTail u v n).toRat ≤ (1 / 9) ^ n := by
  rw [toRat_twoAtanhTail (by omega)]
  have hv' : (0 : ℚ) < v := by exact_mod_cast Nat.pos_of_ne_zero hv
  have h0 : 0 ≤ (u : ℚ) / v := by positivity
  have h1 : (u : ℚ) / v ≤ 1 / 3 := by
    rw [div_le_div_iff₀ hv' (by norm_num)]
    have : (3 : ℚ) * u ≤ v := by exact_mod_cast h
    linarith
  have h2 : ((u : ℚ) / v) ^ 2 ≤ 1 / 9 := by nlinarith
  have hn : (0 : ℚ) ≤ n := Nat.cast_nonneg n
  rw [div_le_iff₀ (by nlinarith)]
  have h3 : ((u : ℚ) / v) ^ (2 * n + 1) ≤ (1 / 9) ^ n * (1 / 3) := by
    rw [pow_succ, pow_mul]
    gcongr
  have h4 : (0 : ℚ) < (1 / 9) ^ n := by positivity
  have h5 : (8 : ℚ) / 9 ≤ (2 * n + 1) * (1 - ((u : ℚ) / v) ^ 2) := by nlinarith
  nlinarith

/-! ## Numbers that are 1 or more -/

theorem fraction_lt (a : F64) : a.fraction < 2 ^ 52 := Nat.mod_lt _ (by norm_num)

theorem one_le_toRat_iff (a : F64) : 1 ≤ F64.toRat a ↔ 2 ^ F64.unitExp ≤ a.units := by
  rw [toRat_eq, one_le_div unit_pos]
  exact_mod_cast Iff.rfl

/-- A number that is 1 or more has a biased exponent of 1023 or more. -/
theorem exponent_of_one_le {a : F64} (h : 1 ≤ F64.toRat a) : 1023 ≤ a.exponent := by
  rw [one_le_toRat_iff] at h
  by_contra hlt
  have hlt : a.exponent < 1023 := not_le.mp hlt
  have hf := fraction_lt a
  have hu : a.units < 2 ^ F64.unitExp := by
    unfold F64.units
    split
    · exact hf.trans (Nat.pow_lt_pow_right one_lt_two (by rw [unitExp_eq]; decide))
    · calc (2 ^ 52 + a.fraction) * 2 ^ (a.exponent - 1)
          < 2 ^ 53 * 2 ^ (a.exponent - 1) := Nat.mul_lt_mul_of_pos_right (by omega) (pow_pos two_pos _)
        _ = 2 ^ (53 + (a.exponent - 1)) := (pow_add _ _ _).symm
        _ ≤ 2 ^ F64.unitExp := Nat.pow_le_pow_right two_pos (by rw [unitExp_eq]; omega)
  exact absurd h (not_le.mpr hu)

/-- The value of such a number, by its binade and fraction. -/
theorem toRat_of_one_le {a : F64} (h : 1 ≤ F64.toRat a) :
    F64.toRat a = 2 ^ a.binade * ((2 ^ 52 + a.fraction) / 2 ^ 52) := by
  have he := exponent_of_one_le h
  have hu : a.units * 2 ^ 52 = 2 ^ a.binade * (2 ^ 52 + a.fraction) * 2 ^ F64.unitExp := by
    unfold F64.units F64.binade
    rw [if_neg (by omega), show F64.unitExp = 52 + 1022 from unitExp_eq,
      show a.exponent - 1 = a.exponent - 1023 + 1022 by omega, pow_add, pow_add]
    generalize (2 : Nat) ^ 1022 = x
    generalize (2 : Nat) ^ (a.exponent - 1023) = y
    ring
  rw [toRat_eq, div_eq_iff unit_pos.ne', ← mul_div_assoc, div_mul_eq_mul_div, eq_div_iff (by norm_num)]
  exact_mod_cast hu

theorem log_of_one_le {a : F64} (h : 1 ≤ F64.toRat a) :
    Real.log (F64.toRat a : ℝ) = a.binade * Real.log (((3 : ℕ) + (1 : ℕ) : ℝ) / ((3 : ℕ) - (1 : ℕ))) +
      Real.log ((((2 ^ 53 + a.fraction : ℕ) : ℝ) + a.fraction) / (((2 ^ 53 + a.fraction : ℕ) : ℝ) - a.fraction)) := by
  have h1 : ((2 ^ 53 + a.fraction : ℕ) : ℝ) = 2 ^ 53 + a.fraction := by norm_num
  have h2 : ((2 : ℝ) ^ 53 + a.fraction + a.fraction) / (2 ^ 53 + a.fraction - a.fraction) =
      (2 ^ 52 + a.fraction) / 2 ^ 52 := by
    rw [add_sub_cancel_right, div_eq_div_iff (by positivity) (by positivity)]
    ring
  have h3 : (((3 : ℕ) : ℝ) + (1 : ℕ)) / ((3 : ℕ) - (1 : ℕ)) = 2 := by norm_num
  rw [toRat_of_one_le h, h1, h2, h3, Rat.cast_mul, Real.log_mul, Rat.cast_pow, Rat.cast_ofNat, Real.log_pow,
    Rat.cast_div, Rat.cast_add, Rat.cast_pow, Rat.cast_ofNat, Rat.cast_natCast]
  · exact Rat.cast_ne_zero.mpr (pow_ne_zero _ two_ne_zero)
  · exact Rat.cast_ne_zero.mpr (by positivity)

/-! ## The bounds of the logarithm -/

theorem third_lt (a : F64) : a.fraction < 2 ^ 53 + a.fraction := by omega

theorem den_lnLower (a : F64) (n : Nat) : (lnLower a n).den ≠ 0 :=
  Nat.mul_ne_zero (Nat.mul_ne_zero one_ne_zero (den_twoAtanhLower 1 (by omega) n)) (den_twoAtanhLower _ (by omega) n)

theorem den_lnUpper (a : F64) (n : Nat) : (lnUpper a n).den ≠ 0 :=
  Nat.mul_ne_zero (Nat.mul_ne_zero one_ne_zero (den_twoAtanhUpper (by omega) n)) (den_twoAtanhUpper (third_lt a) n)

theorem toRat_lnLower (a : F64) (n : Nat) : (lnLower a n).toRat =
    a.binade * (twoAtanhLower 1 3 n).toRat + (twoAtanhLower a.fraction (2 ^ 53 + a.fraction) n).toRat := by
  rw [lnLower, toRat_add (Nat.mul_ne_zero one_ne_zero (den_twoAtanhLower 1 (by omega) n))
    (den_twoAtanhLower _ (by omega) n), toRat_mul, toRat_ofNat]

theorem toRat_lnUpper (a : F64) (n : Nat) : (lnUpper a n).toRat =
    a.binade * (twoAtanhUpper 1 3 n).toRat + (twoAtanhUpper a.fraction (2 ^ 53 + a.fraction) n).toRat := by
  rw [lnUpper, toRat_add (Nat.mul_ne_zero one_ne_zero (den_twoAtanhUpper (by omega) n))
    (den_twoAtanhUpper (third_lt a) n), toRat_mul, toRat_ofNat]

/-- The two bounds differ by at most `(binade + 1) / 9^n`. -/
theorem lnUpper_sub_lnLower_le (a : F64) (n : Nat) :
    (lnUpper a n).toRat - (lnLower a n).toRat ≤ (a.binade + 1) * (1 / 9) ^ n := by
  rw [toRat_lnUpper, toRat_lnLower, toRat_twoAtanhUpper (by omega), toRat_twoAtanhUpper (third_lt a)]
  have hf := fraction_lt a
  have h1 := twoAtanhTail_le (u := 1) (v := 3) (by omega) (by omega) n
  have h2 := twoAtanhTail_le (u := a.fraction) (v := 2 ^ 53 + a.fraction) (by omega) (by omega) n
  have h3 : (a.binade : ℚ) * (twoAtanhTail 1 3 n).toRat ≤ a.binade * (1 / 9) ^ n :=
    mul_le_mul_of_nonneg_left h1 (Nat.cast_nonneg _)
  linarith

/-! ## The search -/

/-- The search answers a settled lower bound, if it meets one. -/
theorem lnSearch_settled (a : F64) : ∀ fuel n, (∃ k < fuel, lnSettled a (n * 2 ^ k) = true) →
    ∃ j, lnSettled a (n * 2 ^ j) = true ∧ lnSearch a fuel n = f64 (lnLower a (n * 2 ^ j))
  | 0, n, ⟨k, hk, _⟩ => absurd hk (Nat.not_lt_zero _)
  | fuel + 1, n, ⟨k, hk, hs⟩ => by
    unfold lnSearch
    by_cases h : lnSettled a n = true
    · exact ⟨0, by simpa using h, by simp [h]⟩
    · rw [if_neg h]
      have hk0 : k ≠ 0 := by rintro rfl; exact h (by simpa using hs)
      obtain ⟨k', rfl⟩ : ∃ k', k = k' + 1 := ⟨k - 1, by omega⟩
      obtain ⟨j, hj, he⟩ := lnSearch_settled a fuel (2 * n) ⟨k', by omega, by
        rw [show 2 * n * 2 ^ k' = n * 2 ^ (k' + 1) by rw [pow_succ]; ring]; exact hs⟩
      refine ⟨j + 1, ?_, ?_⟩
      · rw [show n * 2 ^ (j + 1) = 2 * n * 2 ^ j by rw [pow_succ]; ring]; exact hj
      · rw [show n * 2 ^ (j + 1) = 2 * n * 2 ^ j by rw [pow_succ]; ring]; exact he

/-- The search answers some rounded lower bound. -/
theorem lnSearch_eq (a : F64) : ∀ fuel n, ∃ j, lnSearch a fuel n = f64 (lnLower a (n * 2 ^ j))
  | 0, n => ⟨0, by simp [lnSearch]⟩
  | fuel + 1, n => by
    unfold lnSearch
    by_cases h : lnSettled a n = true
    · exact ⟨0, by simp [h]⟩
    · rw [if_neg h]
      obtain ⟨j, he⟩ := lnSearch_eq a fuel (2 * n)
      exact ⟨j + 1, by rw [he, show n * 2 ^ (j + 1) = 2 * n * 2 ^ j by rw [pow_succ]; ring]⟩

theorem binade_le {a : F64} (hf : F64.finite a) : a.binade ≤ 1023 := by
  have h := toNat_eq_parts (a := a) (lt_trans hf (by decide))
  unfold F64.finite at hf
  have hi : F64.infinityBits = 2047 * 2 ^ 52 := by norm_num [F64.infinityBits]
  rw [hi, h] at hf
  have : a.exponent < 2047 := by
    by_contra hge
    have : 2047 * 2 ^ 52 ≤ a.exponent * 2 ^ 52 := Nat.mul_le_mul_right _ (by omega)
    omega
  unfold F64.binade; omega

theorem binade_le_of_le {a : F64} (h1 : 1 ≤ F64.toRat a) (h2 : F64.toRat a ≤ 2 ^ 32) : a.binade ≤ 32 := by
  by_contra hlt
  rw [toRat_of_one_le h1] at h2
  have hf : (0 : ℚ) ≤ a.fraction := Nat.cast_nonneg _
  have h3 : (1 : ℚ) ≤ (2 ^ 52 + a.fraction) / 2 ^ 52 := by
    rw [le_div_iff₀ (by norm_num)]; linarith
  have h4 : (2 : ℚ) ^ 33 ≤ 2 ^ a.binade := pow_le_pow_right₀ (by norm_num) (by omega)
  have h5 : (2 : ℚ) ^ a.binade * 1 ≤ 2 ^ 32 := (mul_le_mul_of_nonneg_left h3 (by positivity)).trans h2
  norm_num at h4 h5
  linarith

theorem log_le {a : F64} (h1 : 1 ≤ F64.toRat a) : Real.log (F64.toRat a : ℝ) ≤ a.binade + 1 := by
  have h2 : Real.log 2 ≤ 1 := by linarith [Real.log_two_lt_d9]
  have hf := fraction_lt a
  have hx : (0 : ℝ) < (2 ^ 52 + a.fraction) / 2 ^ 52 := by positivity
  have hy : ((2 : ℝ) ^ 52 + a.fraction) / 2 ^ 52 ≤ 2 := by
    rw [div_le_iff₀ (by positivity)]
    have : (a.fraction : ℝ) ≤ 2 ^ 52 := by exact_mod_cast hf.le
    linarith
  rw [toRat_of_one_le h1, Rat.cast_mul, Real.log_mul, Rat.cast_pow, Rat.cast_ofNat, Real.log_pow,
    Rat.cast_div, Rat.cast_add, Rat.cast_pow, Rat.cast_ofNat, Rat.cast_natCast]
  · have h3 := Real.log_le_log hx hy
    have h4 : (a.binade : ℝ) * Real.log 2 ≤ a.binade * 1 := mul_le_mul_of_nonneg_left h2 (Nat.cast_nonneg _)
    linarith
  · exact Rat.cast_ne_zero.mpr (pow_ne_zero _ two_ne_zero)
  · exact Rat.cast_ne_zero.mpr (by positivity)

/-- The lower bound is not too near 0. -/
theorem lnLower_pos {a : F64} (h1 : 1 < F64.toRat a) (n : Nat) (hn : n ≠ 0) : (1 : ℚ) / 2 ^ 53 ≤ (lnLower a n).toRat := by
  have hL {u v : Nat} (hv : v ≠ 0) : (2 : ℚ) * (u / v) ≤ (twoAtanhLower u v n).toRat := by
    rw [toRat_twoAtanhLower u hv]
    have hterm : ∀ k ∈ Finset.range n, (0 : ℚ) ≤ 2 * (1 / (2 * (k : ℚ) + 1)) * ((u : ℚ) / v) ^ (2 * k + 1) := fun k _ => by positivity
    have := Finset.single_le_sum hterm (Finset.mem_range.mpr (Nat.pos_of_ne_zero hn))
    simpa using this
  have hf := fraction_lt a
  have l1 := hL (u := 1) (v := 3) (by omega)
  have l2 := hL (u := a.fraction) (v := 2 ^ 53 + a.fraction) (by omega)
  have hnn : (0 : ℚ) ≤ 2 * ((a.fraction : ℚ) / ((2 ^ 53 + a.fraction : Nat) : ℚ)) := by positivity
  rw [toRat_lnLower]
  by_cases hb : a.binade = 0
  · have hv := toRat_of_one_le h1.le
    rw [hb, pow_zero, one_mul] at hv
    have hfp : 1 ≤ a.fraction := by
      by_contra h0
      have : a.fraction = 0 := by omega
      rw [hv, this] at h1
      norm_num at h1
    have h3 : (1 : ℚ) / 2 ^ 53 ≤ 2 * ((a.fraction : ℚ) / ((2 ^ 53 + a.fraction : Nat) : ℚ)) := by
      have hW : 2 ^ 53 + a.fraction ≤ 2 ^ 53 * 2 := by omega
      have hW0 : 0 < 2 ^ 53 + a.fraction := by omega
      generalize 2 ^ 53 + a.fraction = W at hW hW0
      have h4 : (1 : ℚ) ≤ a.fraction := by exact_mod_cast hfp
      have h5 : (W : ℚ) ≤ 2 ^ 53 * 2 := by exact_mod_cast hW
      have h6 : (0 : ℚ) < W := Nat.cast_pos.mpr hW0
      rw [← mul_div_assoc, div_le_div_iff₀ (by norm_num) h6]
      calc 1 * (W : ℚ) ≤ 2 ^ 53 * 2 := by rw [one_mul]; exact h5
        _ ≤ 2 * a.fraction * 2 ^ 53 := by linarith
    rw [hb, Nat.cast_zero, zero_mul, zero_add]
    exact h3.trans l2
  · have h3 : (1 : ℚ) ≤ a.binade := by exact_mod_cast Nat.one_le_iff_ne_zero.mpr hb
    have h4 : (2 : ℚ) / 3 ≤ (twoAtanhLower 1 3 n).toRat := by
      refine le_trans ?_ l1; norm_num
    have h5 : (1 : ℚ) / 2 ^ 53 ≤ 2 / 3 := by norm_num
    nlinarith

end Sys2Proof.Laws
end

