-- ==== Sys2Proof/Laws/Memory.lean ====
section
/-! SUPPORT. The laws of the register array: what a read gives after each operation, that each operation keeps the
canonical form, and that canonical arrays with equal entries are equal. -/

namespace Sys2Proof.Machine

variable (m : Memory) (i j : Nat) (v : Entry)

@[simp] theorem read_nil : Memory.read [] j = Memory.unlisted := rfl

theorem read_write_other (h : i ≠ j) : Memory.read (Memory.write m j v) i = Memory.read m i := by
  induction m with
  | nil => unfold Memory.write; split <;> simp [Memory.read, h.symm]
  | cons c rest ih =>
    obtain ⟨k, u⟩ := c
    simp only [Memory.write]
    split
    · split <;> simp [Memory.read, h.symm]
    · split
      · next hjk => subst hjk; split <;> simp [Memory.read, h.symm]
      · simp only [Memory.read, ih]

/-- On any array a listed value is read back. -/
theorem read_write_self (h : v ≠ Memory.unlisted) : Memory.read (Memory.write m j v) j = v := by
  induction m with
  | nil => simp [Memory.write, h, Memory.read]
  | cons c rest ih =>
    obtain ⟨k, u⟩ := c
    simp only [Memory.write, if_neg h]
    split
    · simp [Memory.read]
    · split
      · simp [Memory.read]
      · next h1 h2 => rw [Memory.read, if_neg (fun hk => h2 hk.symm)]; exact ih

/-- An index below every listed one is not listed. -/
theorem read_of_lt_all (h : ∀ c ∈ m, i < c.1) : Memory.read m i = Memory.unlisted := by
  induction m with
  | nil => rfl
  | cons c rest ih =>
    have hc := h c (by simp)
    rw [Memory.read, if_neg (by omega)]
    exact ih (fun d hd => h d (by simp [hd]))

/-- On a canonical array every value is read back. -/
theorem read_write_self_of_wf (hm : Memory.wf m) : Memory.read (Memory.write m j v) j = v := by
  by_cases hv : v = Memory.unlisted
  · subst hv
    induction m with
    | nil => rfl
    | cons c rest ih =>
      obtain ⟨k, u⟩ := c
      have hp := List.pairwise_cons.mp hm.1
      have hrest : Memory.wf rest := ⟨hp.2, fun d hd => hm.2 d (by simp [hd])⟩
      simp only [Memory.write, if_true]
      split
      · exact read_of_lt_all _ _ (fun d hd => by
          rcases List.mem_cons.mp hd with rfl | hd
          · assumption
          · exact Nat.lt_trans ‹_› (hp.1 d hd))
      · split
        · next h => subst h; exact read_of_lt_all _ _ hp.1
        · next h1 h2 => rw [Memory.read, if_neg (fun hk => h2 hk.symm)]; exact ih hrest
  · exact read_write_self m j v hv

/-- A listed pair after a write was listed before, or is the one written. -/
theorem mem_write {c : Nat × Entry} (h : c ∈ Memory.write m j v) :
    c ∈ m ∨ (c = (j, v) ∧ v ≠ Memory.unlisted) := by
  induction m with
  | nil =>
    unfold Memory.write at h
    split at h
    · simp at h
    · right; exact ⟨by simpa using h, ‹_›⟩
  | cons d rest ih =>
    obtain ⟨k, u⟩ := d
    simp only [Memory.write] at h
    split at h
    · split at h
      · exact .inl h
      · rcases List.mem_cons.mp h with rfl | h
        · exact .inr ⟨rfl, ‹_›⟩
        · exact .inl h
    · split at h
      · split at h
        · exact .inl (by simp [h])
        · rcases List.mem_cons.mp h with rfl | h
          · exact .inr ⟨rfl, ‹_›⟩
          · exact .inl (by simp [h])
      · rcases List.mem_cons.mp h with rfl | h
        · exact .inl (by simp)
        · rcases ih h with h | h
          · exact .inl (by simp [h])
          · exact .inr h

/-- A write keeps the canonical form. -/
theorem write_wf (hm : Memory.wf m) : Memory.wf (Memory.write m j v) := by
  refine ⟨?_, fun c hc => ?_⟩
  · induction m with
    | nil => unfold Memory.write; split <;> simp
    | cons d rest ih =>
      obtain ⟨k, u⟩ := d
      have hp := List.pairwise_cons.mp hm.1
      have hrest : Memory.wf rest := ⟨hp.2, fun d hd => hm.2 d (by simp [hd])⟩
      simp only [Memory.write]
      split
      · split
        · exact hm.1
        · refine List.pairwise_cons.mpr ⟨fun c hc => ?_, hm.1⟩
          rcases List.mem_cons.mp hc with rfl | hc
          · assumption
          · exact Nat.lt_trans ‹_› (hp.1 c hc)
      · split
        · split
          · exact hp.2
          · next hjk _ => subst hjk; exact List.pairwise_cons.mpr ⟨hp.1, hp.2⟩
        · refine List.pairwise_cons.mpr ⟨fun c hc => ?_, ih hrest⟩
          rcases mem_write rest j v hc with hc | ⟨rfl, -⟩
          · exact hp.1 c hc
          · simp only; omega
  · rcases mem_write m j v hc with hc | ⟨rfl, hv⟩
    · exact hm.2 c hc
    · exact hv

theorem read_clearBelow_lt {bound : Nat} (h : i < bound) :
    Memory.read (Memory.clearBelow m bound) i = Memory.unlisted := by
  induction m with
  | nil => rfl
  | cons c rest ih =>
    rw [Memory.clearBelow, List.filter_cons]
    split
    · next hc =>
      rw [Memory.read, if_neg (by have := of_decide_eq_true hc; omega)]
      exact ih
    · exact ih

theorem read_clearBelow_ge {bound : Nat} (h : bound ≤ i) :
    Memory.read (Memory.clearBelow m bound) i = Memory.read m i := by
  induction m with
  | nil => rfl
  | cons c rest ih =>
    rw [Memory.clearBelow, List.filter_cons]
    split
    · rw [Memory.read, Memory.read]
      split
      · rfl
      · exact ih
    · next hc =>
      rw [Memory.read, if_neg (by simp at hc; omega)]
      exact ih

/-- Clearing keeps the canonical form. -/
theorem clearBelow_wf (bound : Nat) (hm : Memory.wf m) : Memory.wf (Memory.clearBelow m bound) :=
  ⟨hm.1.filter _, fun c hc => hm.2 c (List.mem_filter.mp hc).1⟩

/-- The array after reset is canonical. -/
theorem reset_mem_wf : Memory.wf State.reset.mem := by decide

/-- A canonical array reads every listed pair. -/
theorem read_of_mem {c : Nat × Entry} (hm : Memory.wf m) (hc : c ∈ m) : Memory.read m c.1 = c.2 := by
  induction m with
  | nil => simp at hc
  | cons d rest ih =>
    have hp := List.pairwise_cons.mp hm.1
    rcases List.mem_cons.mp hc with rfl | h
    · simp [Memory.read]
    · have := hp.1 c h
      rw [Memory.read, if_neg (by omega)]
      exact ih ⟨hp.2, fun d hd => hm.2 d (by simp [hd])⟩ h

/-- Canonical arrays with equal entries are equal. -/
theorem memory_ext {m n : Memory} (hm : Memory.wf m) (hn : Memory.wf n)
    (h : ∀ i, Memory.read m i = Memory.read n i) : m = n := by
  induction m generalizing n with
  | nil =>
    cases n with
    | nil => rfl
    | cons d rest =>
      have := h d.1
      rw [read_of_mem _ hn (List.mem_cons_self ..)] at this
      exact absurd this.symm (hn.2 d (by simp))
  | cons c ms ih =>
    cases n with
    | nil =>
      have := h c.1
      rw [read_of_mem _ hm (List.mem_cons_self ..)] at this
      exact absurd this (hm.2 c (by simp))
    | cons d ns =>
      have hpm := List.pairwise_cons.mp hm.1
      have hpn := List.pairwise_cons.mp hn.1
      have hkey : c.1 = d.1 := by
        rcases Nat.lt_trichotomy c.1 d.1 with hlt | heq | hlt
        · have h1 := h c.1
          rw [read_of_mem _ hm (List.mem_cons_self ..), read_of_lt_all (d :: ns) c.1 (fun e he => by
            rcases List.mem_cons.mp he with rfl | he
            · exact hlt
            · exact Nat.lt_trans hlt (hpn.1 e he))] at h1
          exact absurd h1 (hm.2 c (by simp))
        · exact heq
        · have h1 := h d.1
          rw [read_of_mem _ hn (List.mem_cons_self ..), read_of_lt_all (c :: ms) d.1 (fun e he => by
            rcases List.mem_cons.mp he with rfl | he
            · exact hlt
            · exact Nat.lt_trans hlt (hpm.1 e he))] at h1
          exact absurd h1.symm (hn.2 d (by simp))
      have hval : c.2 = d.2 := by
        have h1 := h c.1
        rw [read_of_mem _ hm (List.mem_cons_self ..), hkey, read_of_mem _ hn (List.mem_cons_self ..)] at h1
        exact h1
      have hcd : c = d := Prod.ext hkey hval
      subst hcd
      congr 1
      refine ih ⟨hpm.2, fun e he => hm.2 e (by simp [he])⟩ ⟨hpn.2, fun e he => hn.2 e (by simp [he])⟩ (fun i => ?_)
      by_cases hi : c.1 = i
      · subst hi
        rw [read_of_lt_all ms _ hpm.1, read_of_lt_all ns _ hpn.1]
      · have h1 := h i
        rw [Memory.read, Memory.read, if_neg hi, if_neg hi] at h1
        exact h1

end Sys2Proof.Machine
end

