-- ==== Sys2Proof/Laws/State.lean ====
section
/-! SUPPORT. One lemma per field per update of State, and the transitions of `step`. -/

namespace Sys2Proof.Machine

variable (s : State) (w : Word) (r : Response) (b : Config.Build) (e : Env) (n : Nat)

@[simp] theorem advance_build : s.advance.build = s.build := rfl
@[simp] theorem advance_cfg : s.advance.cfg = s.cfg := rfl
@[simp] theorem advance_mem : s.advance.mem = s.mem := rfl
@[simp] theorem advance_busy : s.advance.busy = s.busy := rfl
@[simp] theorem advance_rspPending : s.advance.rspPending = s.rspPending := rfl
@[simp] theorem advance_inFlight : s.advance.inFlight = s.inFlight := rfl
@[simp] theorem advance_edges : s.advance.env.edges = s.env.edges.tail := rfl
@[simp] theorem advance_held : s.advance.env.held = heldAfter s.nextEdge s := rfl
@[simp] theorem advance_received : s.advance.env.received = s.env.received := rfl

@[simp] theorem acceptCommand_build : (acceptCommand w s).build = s.build := rfl
@[simp] theorem acceptCommand_cfg : (acceptCommand w s).cfg = s.cfg := rfl
@[simp] theorem acceptCommand_mem : (acceptCommand w s).mem = s.mem := rfl
@[simp] theorem acceptCommand_busy : (acceptCommand w s).busy = true := rfl
@[simp] theorem acceptCommand_rspPending : (acceptCommand w s).rspPending = s.rspPending := rfl
@[simp] theorem acceptCommand_inFlight : (acceptCommand w s).inFlight = some w := rfl
@[simp] theorem acceptCommand_env : (acceptCommand w s).env = s.env := rfl

@[simp] theorem takeResponse_build : (takeResponse r s).build = s.build := rfl
@[simp] theorem takeResponse_cfg : (takeResponse r s).cfg = s.cfg := rfl
@[simp] theorem takeResponse_mem : (takeResponse r s).mem = s.mem := rfl
@[simp] theorem takeResponse_busy : (takeResponse r s).busy = false := rfl
@[simp] theorem takeResponse_rspPending : (takeResponse r s).rspPending = none := rfl
@[simp] theorem takeResponse_inFlight : (takeResponse r s).inFlight = s.inFlight := rfl
@[simp] theorem takeResponse_edges : (takeResponse r s).env.edges = s.env.edges := rfl
@[simp] theorem takeResponse_held : (takeResponse r s).env.held = s.env.held := rfl
@[simp] theorem takeResponse_received :
    (takeResponse r s).env.received = s.env.received ++ [r] := rfl

@[simp] theorem resetOf_build : (State.resetOf b e).build = b := rfl
@[simp] theorem resetOf_cfg : (State.resetOf b e).cfg = Cfg.reset := rfl
@[simp] theorem resetOf_mem : (State.resetOf b e).mem = [] := rfl
@[simp] theorem resetOf_busy : (State.resetOf b e).busy = false := rfl
@[simp] theorem resetOf_rspPending : (State.resetOf b e).rspPending = none := rfl
@[simp] theorem resetOf_inFlight : (State.resetOf b e).inFlight = none := rfl
@[simp] theorem resetOf_env : (State.resetOf b e).env = e := rfl
theorem resetState_eq : resetState s = State.resetOf s.build s.env := rfl

@[simp] theorem withInFlight_build : (s.withInFlight w).build = s.build := rfl
@[simp] theorem withInFlight_cfg : (s.withInFlight w).cfg = s.cfg := rfl
@[simp] theorem withInFlight_mem : (s.withInFlight w).mem = s.mem := rfl
@[simp] theorem withInFlight_busy : (s.withInFlight w).busy = true := rfl
@[simp] theorem withInFlight_rspPending : (s.withInFlight w).rspPending = none := rfl
@[simp] theorem withInFlight_inFlight : (s.withInFlight w).inFlight = some w := rfl
@[simp] theorem withInFlight_nextEdge : (s.withInFlight w).nextEdge = Edge.quiet := rfl
@[simp] theorem withInFlight_held : (s.withInFlight w).env.held = s.env.held := rfl

theorem step_eq : step s = edgeStep s := rfl

/-- `withFetchWord` makes the very next step run the word. -/
theorem step_withFetchWord (nbits : Nat) :
    step (s.withFetchWord nbits n) = runWord (tableWord nbits n) (s.withFetchWord nbits n).advance := by
  have hb : holdBroken Edge.quiet (s.withFetchWord nbits n) = false := by
    unfold holdBroken; cases (s.withFetchWord nbits n).env.held <;> rfl
  have ha : edgeAction (s.withFetchWord nbits n).nextEdge (s.withFetchWord nbits n)
      = .execute (tableWord nbits n) := by
    unfold edgeAction
    rw [State.withFetchWord, withInFlight_nextEdge, if_neg (by decide)]
    rw [if_neg (by rw [State.withFetchWord] at hb; simp [hb])]
    rfl
  rw [step, edgeStep, ha]

end Sys2Proof.Machine
end

