-- ==== Sys2Proof/Laws/Ops.lean ====
section
/-! SUPPORT. What each shared operation, `exec` and `step` can do, said once. -/

namespace Sys2Proof.Machine

/-! ## Responses -/

theorem respond_eq_next {st : Status} {d : Word} {s t : State} :
    respond st d s = .next t ↔ t = { s with rspPending := some ⟨st, d⟩, inFlight := none } := by
  unfold respond
  constructor
  · intro h; injection h with h; exact h.symm
  · intro h; rw [h]

theorem withSketch_of_configured {s : State} {go : Host.Outcome State Fault Refusal}
    (h : s.cfg.configured = true) : withSketch s go = go := if_pos h

theorem withSketch_of_unconfigured {s : State} {go : Host.Outcome State Fault Refusal}
    (h : s.cfg.configured = false) : withSketch s go = raiseError .notConfigured s := by
  unfold withSketch; rw [h]; rfl

/-! ## Operands -/

theorem bucketIndex_lt (p : Nat) (x : Operand) : bucketIndex p x < 2 ^ p :=
  Nat.lt_of_le_of_lt Nat.and_le_right (Nat.sub_lt (Nat.two_pow_pos p) Nat.one_pos)

theorem bitLength_pos {w : Nat} (h : w ≠ 0) : 0 < bitLength w := by
  unfold bitLength; rw [if_neg h]; omega

theorem bitLength_le {w n : Nat} (h : w < 2 ^ n) : bitLength w ≤ n := by
  unfold bitLength
  split
  · omega
  · next hw => have := (Nat.log2_lt hw).mpr h; omega

theorem highBits_lt (p : Nat) (x : Operand) : highBits p x < 2 ^ 32 :=
  Nat.lt_of_le_of_lt (Nat.shiftRight_le ..) x.isLt

theorem rank_pos (w : Nat) : 0 < rank w := by
  unfold rank; split
  · decide
  · exact bitLength_pos ‹_›

theorem hashRank_toNat (p : Nat) (x : Operand) : (hashRank p x).toNat = rank (highBits p x) := by
  have h : rank (highBits p x) ≤ 32 := by
    unfold rank; split
    · decide
    · exact bitLength_le (highBits_lt p x)
  unfold hashRank
  rw [BitVec.toNat_ofNat, Nat.mod_eq_of_lt (by omega)]

theorem entryMax_toNat (a b : Entry) : (entryMax a b).toNat = max a.toNat b.toNat := by
  unfold entryMax; split <;> omega

theorem observed_ne_unlisted (p : Nat) (x : Operand) (e : Entry) :
    entryMax e (hashRank p x) ≠ Memory.unlisted := by
  intro h
  have h1 := congrArg BitVec.toNat h
  have h2 := rank_pos (highBits p x)
  rw [entryMax_toNat, hashRank_toNat] at h1
  have h3 : (Memory.unlisted).toNat = 0 := rfl
  omega

theorem read_observeUpdate_bucket (p : Nat) (x : Operand) (m : Memory) :
    Memory.read (observeUpdate p x m) (bucketIndex p x)
      = entryMax (Memory.read m (bucketIndex p x)) (hashRank p x) :=
  read_write_self _ _ _ (observed_ne_unlisted p x _)

theorem read_observeUpdate_other (p : Nat) (x : Operand) (m : Memory) {j : Nat} (h : j ≠ bucketIndex p x) :
    Memory.read (observeUpdate p x m) j = Memory.read m j := read_write_other _ _ _ _ h

/-! ## Sums over the register array -/

theorem sumPow2_eq_sum (f : Nat → Nat) (k base : Nat) :
    sumPow2 f k base = ∑ i ∈ Finset.range (2 ^ k), f (base + i) := by
  induction k generalizing base with
  | zero => simp [sumPow2]
  | succ k ih =>
    rw [sumPow2, ih, ih, pow_succ, mul_two, Finset.sum_range_add]
    simp only [Nat.add_assoc]

theorem sumPow2_congr {f g : Nat → Nat} {k base : Nat} (h : ∀ j, base ≤ j → j < base + 2 ^ k → f j = g j) :
    sumPow2 f k base = sumPow2 g k base := by
  rw [sumPow2_eq_sum, sumPow2_eq_sum]
  exact Finset.sum_congr rfl fun i hi => h _ (by omega) (by have := Finset.mem_range.mp hi; omega)

/-! ## Commands -/

/-- What a command can do to the sketch: nothing, construct one, or update one bucket. -/
inductive SketchChange (i : Instr) (s t : State) : Prop where
  | unchanged (cfg : t.cfg = s.cfg) (mem : t.mem = s.mem)
  | constructed (p : Operand) (isInit : i = .init p) (ok : precisionOk s.build p = true)
      (cfg : t.cfg = Cfg.construct p) (mem : t.mem = Memory.clearBelow s.mem (2 ^ p.toNat))
  | updated (x : Operand) (isObserve : i = .observe x) (configured : s.cfg.configured = true)
      (cfg : t.cfg = s.cfg) (mem : t.mem = observeUpdate s.cfg.precision x s.mem)

/-- Every command answers a next state: it gives one response, is no longer in flight, and touches neither the build
nor `BUSY` nor the host's side. -/
theorem exec_next (i : Instr) (s : State) :
    ∃ t r, exec i s = .next t ∧ t.rspPending = some r ∧ (r.status ≠ .ok → r.data = 0 ∧ t.cfg = s.cfg ∧ t.mem = s.mem)
      ∧ t.inFlight = none ∧ t.build = s.build ∧ t.busy = s.busy ∧ t.env = s.env ∧ SketchChange i s t := by
  have hraise : ∀ st, ∃ t r, raiseError st s = .next t ∧ t.rspPending = some r
      ∧ (r.status ≠ .ok → r.data = 0 ∧ t.cfg = s.cfg ∧ t.mem = s.mem)
      ∧ t.inFlight = none ∧ t.build = s.build ∧ t.busy = s.busy ∧ t.env = s.env ∧ SketchChange i s t := fun st =>
    ⟨_, _, rfl, rfl, fun _ => ⟨rfl, rfl, rfl⟩, rfl, rfl, rfl, rfl, .unchanged rfl rfl⟩
  have hok : ∀ d, ∃ t r, respond .ok d s = .next t ∧ t.rspPending = some r
      ∧ (r.status ≠ .ok → r.data = 0 ∧ t.cfg = s.cfg ∧ t.mem = s.mem)
      ∧ t.inFlight = none ∧ t.build = s.build ∧ t.busy = s.busy ∧ t.env = s.env ∧ SketchChange i s t := fun d =>
    ⟨_, _, rfl, rfl, fun h => absurd rfl h, rfl, rfl, rfl, rfl, .unchanged rfl rfl⟩
  cases i with
  | init p =>
    simp only [exec, execInit]
    split
    · exact ⟨_, _, rfl, rfl, fun h => absurd rfl h, rfl, rfl, rfl, rfl, .constructed p rfl ‹_› rfl rfl⟩
    · exact hraise _
  | observe x =>
    simp only [exec, execObserve, withSketch]
    split
    · exact ⟨_, _, rfl, rfl, fun h => absurd rfl h, rfl, rfl, rfl, rfl, .updated x rfl ‹_› rfl rfl⟩
    · exact hraise _
  | estimate =>
    simp only [exec, execEstimate, withSketch]
    split
    · exact hok _
    · exact hraise _
  | readReg j =>
    simp only [exec, execReadReg, withSketch]
    split
    · split
      · exact hraise _
      · exact hok _
    · exact hraise _
  | info sel =>
    simp only [exec, execInfo, withSketch]
    repeat' split
    all_goals first | exact hok _ | exact hraise _

/-- A command word does what its command does, or answers ILLEGAL_COMMAND. -/
theorem runWord_cases (w : Word) (s : State) :
    (∃ i, decode w = .ok i ∧ runWord w s = exec i s) ∨
    (∃ e, decode w = .error e ∧ runWord w s = raiseError .illegalCommand s) := by
  unfold runWord
  cases h : decode w with
  | ok i => exact .inl ⟨i, rfl, rfl⟩
  | error e => exact .inr ⟨e, rfl, rfl⟩

/-! ## Rising edges -/

/-- What one rising edge can do, with the conditions under which it does it. -/
inductive StepKind (s : State) : Host.Outcome State Fault Refusal → Prop where
  | reset (rst : s.nextEdge.rst = true) : StepKind s (.next (resetState s.advance))
  | holdBroken (rst : s.nextEdge.rst = false) (broken : holdBroken s.nextEdge s = true) :
      StepKind s (.fault .hostChangedHeldCommand)
  | transfer (r : Response) (rst : s.nextEdge.rst = false) (held : holdBroken s.nextEdge s = false)
      (pending : s.rspPending = some r) (ready : s.nextEdge.rspReady = true) :
      StepKind s (.next (takeResponse r s.advance))
  | execute (w : Word) (rst : s.nextEdge.rst = false) (held : holdBroken s.nextEdge s = false)
      (pending : s.rspPending = none) (flight : s.inFlight = some w) (go : s.nextEdge.stall = false) :
      StepKind s (runWord w s.advance)
  | accept (rst : s.nextEdge.rst = false) (held : holdBroken s.nextEdge s = false)
      (pending : s.rspPending = none) (flight : s.inFlight = none) (valid : s.nextEdge.cmdValid = true)
      (notBusy : s.busy = false) : StepKind s (.next (acceptCommand s.nextEdge.cmdData s.advance))
  | wait (rst : s.nextEdge.rst = false) (held : holdBroken s.nextEdge s = false) : StepKind s (.next s.advance)

theorem step_kind (s : State) : StepKind s (step s) := by
  rw [step, edgeStep, edgeAction]
  by_cases hr : s.nextEdge.rst = true
  · rw [if_pos hr]; exact .reset hr
  · rw [if_neg hr]
    have hr' : s.nextEdge.rst = false := by simpa using hr
    by_cases hh : holdBroken s.nextEdge s = true
    · rw [if_pos hh]; exact .holdBroken hr' hh
    · rw [if_neg hh]
      have hh' : holdBroken s.nextEdge s = false := by simpa using hh
      cases hp : s.rspPending with
      | some r =>
        by_cases hy : s.nextEdge.rspReady = true
        · simp only [if_pos hy]; exact .transfer r hr' hh' hp hy
        · simp only [if_neg hy]; exact .wait hr' hh'
      | none =>
        cases hf : s.inFlight with
        | some w =>
          by_cases hs : s.nextEdge.stall = true
          · simp only [if_pos hs]; exact .wait hr' hh'
          · simp only [if_neg hs]; exact .execute w hr' hh' hp hf (by simpa using hs)
        | none =>
          by_cases hv : (s.nextEdge.cmdValid && s.cmdReady s.nextEdge.rst) = true
          · simp only [if_pos hv]
            rw [State.cmdReady, hr'] at hv
            simp only [Bool.not_false, Bool.true_and, Bool.and_eq_true, Bool.not_eq_true'] at hv
            exact .accept hr' hh' hp hf hv.1 hv.2
          · simp only [if_neg hv]; exact .wait hr' hh'

end Sys2Proof.Machine
end

