-- ==== Sys2Proof/Laws/PerInstr.lean ====
section
/-! SUPPORT. The family `Layout`: the fields of each command's word are those of spec/30_encoding.md R70 and R71. -/

namespace Sys2Proof.Laws.Layout

/-- The opcode of R73. -/
def opcode : Instr → BitVec 8
  | .init _ => 0x01
  | .observe _ => 0x02
  | .estimate => 0x03
  | .readReg _ => 0x04
  | .info _ => 0x05

/-- The `SEL` field of R71. -/
def selector : Instr → BitVec 8
  | .init _ => 0
  | .observe _ => 0
  | .estimate => 0
  | .readReg _ => 0
  | .info sel => sel

/-- The `OPERAND` field of R71. -/
def operand : Instr → Operand
  | .init p => p
  | .observe x => x
  | .estimate => 0
  | .readReg j => j
  | .info _ => 0

/-- `OPC`, `SEL` and `OPERAND` are the instruction's, and `RSVD` is 0. -/
def Statement (i : Instr) : Prop :=
  opcField (encode i) = opcode i ∧ selField (encode i) = selector i ∧ rsvdField (encode i) = 0
    ∧ operandField (encode i) = operand i

theorem fields_of_pack (opc sel : BitVec 8) (rsvd : BitVec 16) (opnd : Operand) :
    opcField (packFields opc sel rsvd opnd) = opc ∧ selField (packFields opc sel rsvd opnd) = sel
      ∧ rsvdField (packFields opc sel rsvd opnd) = rsvd ∧ operandField (packFields opc sel rsvd opnd) = opnd := by
  refine ⟨?_, ?_, ?_, ?_⟩ <;>
    (apply BitVec.eq_of_getElem_eq; intro i hi
     simp only [opcField, selField, rsvdField, operandField, packFields, BitVec.getElem_extractLsb',
       BitVec.getLsbD_append])
  · rw [if_neg (by omega), if_neg (by omega), if_neg (by omega)]
    rw [← BitVec.getLsbD_eq_getElem]; congr 1; omega
  · rw [if_neg (by omega), if_neg (by omega), if_pos (by omega)]
    rw [← BitVec.getLsbD_eq_getElem]; congr 1; omega
  · rw [if_neg (by omega), if_pos (by omega)]
    rw [← BitVec.getLsbD_eq_getElem]; congr 1; omega
  · rw [if_pos (by omega)]
    rw [← BitVec.getLsbD_eq_getElem]; congr 1; omega

theorem init (p : Operand) : Statement (.init p) := fields_of_pack ..
theorem observe (x : Operand) : Statement (.observe x) := fields_of_pack ..
theorem estimate : Statement .estimate := fields_of_pack ..
theorem readReg (j : Operand) : Statement (.readReg j) := fields_of_pack ..
theorem info (sel : BitVec 8) : Statement (.info sel) := fields_of_pack ..

end Sys2Proof.Laws.Layout
end

