-- ==== Sys2Proof/Tests/Slice0.lean ====
section
/-! SUPPORT. Tests of the model, their expected results from spec/30_encoding.md R84 and the vectors of
spec/95_test_vectors.md, and for each statement a state and operands that meet its hypotheses. -/

namespace Sys2Proof.Tests

-- One check at a time: the kernel checks of the tests are not run side by side, which would need memory for each.
set_option Elab.async false

open Sys2Proof Sys2Proof.Machine

/-- A sketch of precision `p` with the listed entries, idle. -/
def sketch (p : Operand) (m : Memory) : State := { State.reset with cfg := Cfg.construct p, mem := m }

/-- The state with the given edges to come. -/
def withEdges (s : State) (es : List Edge) : State := { s with env := { s.env with edges := es } }

/-- The state with a response pending. -/
def answered (s : State) (r : Response) : State := { s with busy := true, rspPending := some r }

/-- The response a step leaves pending. -/
def responseOf : Host.Outcome State Fault Refusal → Option Response
  | .next t => t.rspPending
  | .fault _ => none
  | .refused _ => none

/-- The entry `j` after a step. -/
def entryOf (j : Nat) : Host.Outcome State Fault Refusal → Option Entry
  | .next t => some (Memory.read t.mem j)
  | .fault _ => none
  | .refused _ => none

/-! ## Well-formedness and decoding -/

/-- WellFormed refuses INFO with a selector above 3 (R71). -/
theorem test_wellFormed_refuses_info_4 : (Instr.info 4).wellFormed = false := by decide

theorem test_wellFormed_takes_info_3 : (Instr.info 3).wellFormed = true := by decide

/-- R84: `{0x01, 0x00, 0x0000, 4}`. -/
theorem test_decode_init : decode 0b0000000100000000000000000000000000000000000000000000000000000100 = .ok (.init 4) := by
  decide

/-- R84: `{0x02, 0x00, 0x0000, 0x12345678}`. -/
theorem test_decode_observe :
    decode 0b0000001000000000000000000000000000010010001101000101011001111000 = .ok (.observe 0x12345678) := by decide

theorem test_decode_estimate : decode 0b0000001100000000000000000000000000000000000000000000000000000000 = .ok .estimate := by
  decide

theorem test_decode_readReg : decode 0b0000010000000000000000000000000000000000000000000000000000001000 = .ok (.readReg 8) := by
  decide

theorem test_decode_info : decode 0b0000010100000011000000000000000000000000000000000000000000000000 = .ok (.info 3) := by
  decide

/-- 95 X12: ESTIMATE with `SEL = 0x80`. -/
theorem test_decode_rejects_estimate_with_selector : decode 0x0380000000000000 = .error .selectorNotZero := by decide

/-- R55: byte 0 holds bits 7:0. -/
theorem test_decodeBytes_little_endian :
    decodeBytes [0x78, 0x56, 0x34, 0x12, 0, 0, 0, 0x02, 0xAA] = .ok (.observe 0x12345678, [0xAA]) := by decide

theorem test_decodeBytes_truncated : decodeBytes [0, 0, 0, 0, 0, 0, 3] = .error .truncated := by decide

/-- R82: decimal and hexadecimal operands, a comment, an operand out of range. -/
theorem test_assemble : assembleLine "READ_REG 16 ; the last but one".toList = some 0x0400000000000010
    ∧ assembleLine "INIT 0xFFFFFFFF".toList = some 0x01000000FFFFFFFF
    ∧ assembleLine "INIT 4294967296".toList = none ∧ assembleLine "INFO 4".toList = none
    ∧ assembleLine "ESTIMATE 1".toList = none := by decide

/-! ## Commands, one step each -/

/-- 95 IN3. -/
theorem test_init_4 : (match exec (.init 4) State.reset with
    | .next t => decide (t.cfg = ⟨true, 4, 0x3FE589374BC6A7F0, 0x4044000000000000⟩)
    | _ => false) = true := by decide +kernel

/-- 95 IN7: the precision is not truncated. -/
theorem test_init_68 : responseOf (step (State.reset.withFetchWord 64 0x0100000000000044)) = some ⟨.configError, 0⟩ := by
  decide

/-- 95 O22: `w = 0` has the rank 32. -/
theorem test_observe_zero_high_part :
    entryOf 8 (step ((sketch 4 [(8, 25)]).withFetchWord 64 0x0200000000000008)) = some 32 := by decide +kernel

/-- 95 O21: a lower rank changes nothing. -/
theorem test_observe_lower_rank :
    entryOf 8 (step ((sketch 4 [(8, 25)]).withFetchWord 64 0x0200000000000018)) = some 25 := by decide +kernel

/-- 95 E3: linear counting. -/
theorem test_estimate_linear : responseOf (exec .estimate (sketch 4 [(8, 25)])) = some ⟨.ok, 0x3FF08598B59E3A06⟩ := by
  decide +kernel

/-- 95 E5: the raw estimate with an empty bucket. -/
theorem test_estimate_raw :
    responseOf (exec .estimate (sketch 2 [(1, 32), (2, 32), (3, 32)])) = some ⟨.ok, 0x402589374B860C4A⟩ := by
  decide +kernel

/-- 95 Q1. -/
theorem test_readReg_8 : responseOf (exec (.readReg 8) (sketch 4 [(8, 25)])) = some ⟨.ok, 0x19⟩ := by decide +kernel

/-- 95 Q5: the index is not truncated. -/
theorem test_readReg_out_of_range :
    responseOf (exec (.readReg 0xFFFFFFFF) (sketch 4 [(8, 25)])) = some ⟨.indexRange, 0⟩ := by decide +kernel

/-- 95 Q9. -/
theorem test_info_3 : responseOf (exec (.info 3) State.reset) = some ⟨.ok, 0x0100000006202010⟩ := by decide

/-- 95 Q14. -/
theorem test_info_0 : responseOf (exec (.info 0) (sketch 10 [])) = some ⟨.ok, 0x0A01⟩ := by decide +kernel

/-- 95 Q11: another build. -/
theorem test_info_3_largest_build :
    responseOf (exec (.info 3) (State.resetOf ⟨31⟩ Env.initial)) = some ⟨.ok, 0x0100000006202020⟩ := by decide

/-- 95 X6, on a step. -/
theorem test_illegal_word : responseOf (step (State.reset.withFetchWord 64 0)) = some ⟨.illegalCommand, 0⟩ := by decide

/-- 95 RS2: reset drops a command in flight. -/
theorem test_reset_drops_command :
    (match step (withEdges (State.reset.withInFlight 0x0200000012345678) [Edge.resetOn]) with
      | .next t => decide (t.inFlight = none ∧ t.rspPending = none ∧ t.busy = false)
      | _ => false) = true := by decide

/-- R79 item 5: the host changes the word it must hold. -/
theorem test_host_changes_held_word :
    (match step { withEdges State.reset [Edge.offer 2] with env := ⟨[Edge.offer 2], some 1, []⟩ } with
      | .fault .hostChangedHeldCommand => true
      | _ => false) = true := by decide

/-! ## Witnesses: states and operands that meet the hypotheses of the statements -/

/-- Every non-negative rational is the value of some `Ratio`. -/
theorem exists_ratio {q : ℚ} (h : 0 ≤ q) : ∃ r : Ratio, 0 < r.den ∧ r.toRat = q := by
  refine ⟨⟨q.num.toNat, q.den⟩, q.den_pos, ?_⟩
  have h1 : ((q.num.toNat : ℤ) : ℚ) = q.num := by rw [Int.toNat_of_nonneg (Rat.num_nonneg.mpr h)]
  rw [Ratio.toRat, ← Int.cast_natCast q.num.toNat, h1]
  exact q.num_div_den

theorem sketch_4_constants : (sketch 4 [(8, 25)]).cfg.alpha = alphaOf (sketch 4 [(8, 25)]).cfg.precision ∧
    (sketch 4 [(8, 25)]).cfg.thresh = thresholdOf (sketch 4 [(8, 25)]).cfg.precision := by
  have hp : (sketch 4 [(8, 25)]).cfg.precision = (4 : Operand).toNat := by decide
  rw [hp]
  exact ⟨rfl, rfl⟩

/-- A configured state that meets the invariant. -/
theorem sketch_4_inv : (sketch 4 [(8, 25)]).Inv where
  canonical := by decide
  physical := by decide
  unconfigured := fun h => absurd h (by decide)
  precision := by decide
  constants := fun _ => sketch_4_constants
  entries := fun _ => by decide +kernel
  busy := rfl
  oneInFlight := .inl rfl
  errorData := fun _ h => absurd h (by simp [sketch, State.reset, State.resetOf])

theorem witness_DecodeOfEncodeIsIdentity : (Instr.info 3).wellFormed = true := by decide

theorem witness_EncodeOfDecodeIsIdentity : decode 0x0503000000000000 = .ok (.info 3) := by decide

theorem witness_ReservedEncodings_reserved : decode 0x0504000000000000 = .error .selectorRange := by decide

theorem witness_ReservedEncodings_legal :
    ¬((0x0503000000000000 : Word).extractLsb' 56 8 = 0x00 ∨ 0x06 ≤ ((0x0503000000000000 : Word).extractLsb' 56 8).toNat ∨
      (0x0503000000000000 : Word).extractLsb' 32 16 ≠ 0 ∨
      ((0x0503000000000000 : Word).extractLsb' 56 8 ≠ 0x05 ∧ (0x0503000000000000 : Word).extractLsb' 48 8 ≠ 0) ∨
      ((0x0503000000000000 : Word).extractLsb' 56 8 = 0x05 ∧ 4 ≤ ((0x0503000000000000 : Word).extractLsb' 48 8).toNat) ∨
      (((0x0503000000000000 : Word).extractLsb' 56 8 = 0x03 ∨ (0x0503000000000000 : Word).extractLsb' 56 8 = 0x05) ∧
        (0x0503000000000000 : Word).extractLsb' 0 32 ≠ 0)) := by decide

/-- R82: decimal, the largest operand. -/
theorem test_assemble_largest_decimal : assembleLine "READ_REG 4294967295".toList = some 0x04000000FFFFFFFF := by decide

theorem isDigit_of_lt {base d : Nat} (h : d < base) : IsDigit base (Nat.digitChar d) d := ⟨h, .inl rfl⟩

/-- A number of one digit. -/
theorem spells_one_digit {d : Nat} (h : d < 10) : Spells [Nat.digitChar d] d := by
  have hs := Spells.decimal (List.cons_ne_nil _ []) (.cons (isDigit_of_lt h) .nil)
  rwa [List.reverse_singleton, Nat.ofDigits_singleton] at hs

/-- `2^32` in decimal, the least operand out of range. -/
theorem spells_two_pow_32 : Spells "4294967296".toList (2 ^ 32) := by
  have hs := Spells.decimal (cs := "4294967296".toList) (ds := [4, 2, 9, 4, 9, 6, 7, 2, 9, 6]) (by decide) (by
    repeat' constructor)
  exact hs

/-- `2^32 - 1` in hexadecimal, with letters of both cases. -/
theorem spells_largest_operand : Spells "0xFFFFffff".toList (2 ^ 32 - 1) := by
  have hu : IsDigit 16 'F' 15 := ⟨by decide, .inr (by decide)⟩
  have hl : IsDigit 16 'f' 15 := isDigit_of_lt (d := 15) (by decide)
  exact Spells.hexadecimal (List.cons_ne_nil _ _)
    (.cons hu (.cons hu (.cons hu (.cons hu (.cons hl (.cons hl (.cons hl (.cons hl .nil))))))))

theorem blank_space : Blank [' '] := by intro c hc; simp at hc; simp [hc]

theorem lineEnd_comment : LineEnd " ; x".toList := ⟨[' '], blank_space, .inr ⟨[' ', 'x'], by decide⟩⟩

theorem witness_TextAssemblesToItsWord : (Instr.readReg 0xFFFFFFFF).wellFormed = true ∧ Blank [] ∧ Blank [' '] ∧
    LineEnd " ; x".toList ∧ textOperand (.readReg 0xFFFFFFFF) = some (2 ^ 32 - 1) ∧ [' '] ≠ [] ∧
    Spells "0xFFFFffff".toList (2 ^ 32 - 1) :=
  ⟨by decide, by simp [Blank], blank_space, lineEnd_comment, by decide, by decide, spells_largest_operand⟩

theorem witness_TextAssemblesToItsWord_estimate : Instr.estimate.wellFormed = true ∧ textOperand .estimate = none ∧
    LineEnd [] := ⟨by decide, rfl, [], by simp [Blank], .inl rfl⟩

theorem witness_AssembledWordsAreLegal : assembleLine "INFO 3".toList = some 0x0503000000000000 := by decide

theorem witness_AssembledWordsAreLegal_operand : Blank [' '] ∧ [' '] ≠ [] ∧ Spells "4294967296".toList (2 ^ 32) ∧
    LineEnd " ; x".toList ∧ (Instr.init 0).mnemonic ∈ ["INIT", "OBSERVE", "READ_REG"] ∧ 2 ^ 32 ≤ 2 ^ 32 :=
  ⟨blank_space, by decide, spells_two_pow_32, lineEnd_comment, by decide, le_rfl⟩

theorem witness_AssembledWordsAreLegal_info : Spells ['4'] 4 ∧ (Instr.info 0).mnemonic = "INFO" ∧ 4 ≤ 4 :=
  ⟨spells_one_digit (d := 4) (by decide), rfl, le_rfl⟩

theorem witness_AssembledWordsAreLegal_estimate : Spells ['0'] 0 ∧ Instr.estimate.mnemonic = "ESTIMATE" :=
  ⟨spells_one_digit (d := 0) (by decide), rfl⟩

/-- A command in flight at a quiet edge. -/
def inFlight4 : State := (sketch 4 [(8, 25)]).withInFlight 0x0400000000000008

theorem witness_StepRunsTheDecodedCommand :
    inFlight4.rspPending = none ∧ inFlight4.inFlight = some 0x0400000000000008 ∧
    decode 0x0400000000000008 = .ok (.readReg 8) ∧ inFlight4.nextEdge.rst = false ∧ inFlight4.nextEdge.stall = false ∧
    holdBroken inFlight4.nextEdge inFlight4 = false := by decide

theorem witness_FetchWordIsRunByTheNextStep : Instr.estimate.wellFormed = true := by decide

/-- The host offers a command to an idle sketch. -/
def offering : State := withEdges (sketch 4 [(8, 25)]) [Edge.offer 0x0300000000000000]

theorem witness_OfferedCommandIsAccepted :
    offering.Inv ∧ offering.nextEdge.rst = false ∧ offering.nextEdge.cmdValid = true ∧
    offering.cmdReady offering.nextEdge.rst = true ∧ holdBroken offering.nextEdge offering = false :=
  ⟨{ sketch_4_inv with }, by decide, by decide, by decide, by decide⟩

/-- A response waits and the host can accept it. -/
def taking : State := withEdges (answered (sketch 4 [(8, 25)]) ⟨.ok, 25⟩) [Edge.take]

theorem witness_ResponseIsTransferred :
    taking.rspPending = some ⟨.ok, 25⟩ ∧ taking.rspValid taking.nextEdge.rst = true ∧
    taking.nextEdge.rspReady = true ∧ holdBroken taking.nextEdge taking = false := by decide

/-- A response waits and the host does not take it. -/
def waiting : State := withEdges (answered (sketch 4 [(8, 25)]) ⟨.ok, 25⟩) []

theorem witness_ResponseIsHeldStable :
    waiting.rspValid waiting.nextEdge.rst = true ∧ waiting.nextEdge.rspReady = false ∧
    step waiting = .next waiting.advance := ⟨by decide, by decide, rfl⟩

theorem witness_NoCommandIsAcceptedWhileBusy : waiting.busy = true ∧ step waiting = .next waiting.advance :=
  ⟨rfl, rfl⟩

theorem witness_PortsShowTheState_pending : waiting.rspPending = some ⟨.ok, 25⟩ := rfl

theorem witness_PortsShowTheState_empty : State.reset.rspPending = none := rfl

theorem witness_ResetEdgeResetsAnyState : (withEdges inFlight4 [Edge.resetOn]).nextEdge.rst = true := rfl

theorem witness_IdleKeepsAllState : (sketch 4 [(8, 25)]).Inv ∧ (sketch 4 [(8, 25)]).busy = false ∧
    (sketch 4 [(8, 25)]).nextEdge.cmdValid = false ∧ (sketch 4 [(8, 25)]).nextEdge.rst = false :=
  ⟨sketch_4_inv, rfl, rfl, rfl⟩

/-- A command that stalls for two edges. -/
def stalling : State := withEdges inFlight4 [Edge.stalled, Edge.stalled, Edge.quiet, Edge.take]

theorem witness_CommandInFlightIsAnswered :
    stalling.inFlight = some 0x0400000000000008 ∧ stalling.rspPending = none ∧
    [Edge.stalled, Edge.stalled, Edge.quiet].length = 2 + 1 ∧
    stalling.env.edges = [Edge.stalled, Edge.stalled, Edge.quiet] ++ [Edge.take] ∧ stalling.env.held = none ∧
    (∀ e ∈ [Edge.stalled, Edge.stalled, Edge.quiet], e.rst = false ∧ e.cmdValid = false) ∧
    (∀ e ∈ [Edge.stalled, Edge.stalled, Edge.quiet].take 2, e.stall = true) ∧
    (∀ e ∈ [Edge.stalled, Edge.stalled, Edge.quiet].drop 2, e.stall = false) := by decide

/-- Two deliveries with different delays. -/
def twoDeliveries : List Delivery := [⟨0x0100000000000002, 1, 2, 0⟩, ⟨0x0400000000000003, 0, 0, 1⟩]

theorem witness_DeliveriesRefineTransactions :
    (withEdges State.reset (deliveryEdges twoDeliveries ++ [Edge.take])).Idle ∧
    (withEdges State.reset (deliveryEdges twoDeliveries ++ [Edge.take])).env.edges
      = deliveryEdges twoDeliveries ++ [Edge.take] := ⟨⟨rfl, rfl, rfl, rfl⟩, rfl⟩

theorem witness_StepKeepsTheInvariant : (sketch 4 [(8, 25)]).Inv ∧
    step (sketch 4 [(8, 25)]) = .next (sketch 4 [(8, 25)]).advance := ⟨sketch_4_inv, rfl⟩

/-- Unlike states after reset: other `ALPHA`, `THRESH` and entries. -/
theorem witness_UnspecifiedValuesAreNeverShown :
    SameSpecified State.reset { State.reset with cfg := ⟨false, 0, 7, 9⟩, mem := [(3, 5)] } where
  build := rfl
  configured := rfl
  p := rfl
  alpha := fun h => absurd h (by decide)
  thresh := fun h => absurd h (by decide)
  entries := fun h => absurd h (by decide)
  busy := rfl
  rspPending := rfl
  inFlight := rfl
  env := rfl

theorem witness_OnlyInitWritesTheConfiguration :
    step (State.reset.withFetchWord 64 0x0100000000000004)
      = runWord (tableWord 64 0x0100000000000004) (State.reset.withFetchWord 64 0x0100000000000004).advance ∧
    decode (tableWord 64 0x0100000000000004) = .ok (.init 4) := ⟨step_withFetchWord _ _ _, by decide⟩

theorem decode_observe_8 : decode 0x0200000000000008 = .ok (.observe 8) := by decide

/-- An OBSERVE in flight raises an entry. -/
def observing : State := (sketch 4 [(8, 25)]).withInFlight 0x0200000000000008

theorem witness_EntriesNeverDecrease :
    (∃ t, step observing = .next t) ∧ observing.nextEdge.rst = false ∧
    (observing.rspPending = none → observing.nextEdge.stall = false → ∀ w p, observing.inFlight = some w → decode w = .ok (.init p) →
      p.toNat = 0 ∨ observing.build.pMax < p.toNat) := by
  refine ⟨⟨_, rfl⟩, rfl, fun _ _ w p hw hd => ?_⟩
  have h : w = 0x0200000000000008 := (Option.some.inj hw).symm
  rw [h, decode_observe_8] at hd
  cases hd

/-- A legal INIT that stalls. -/
def stalledInit : State := withEdges ((sketch 4 [(8, 25)]).withInFlight 0x0100000000000004) [Edge.stalled]

theorem witness_EntriesNeverDecrease_stalled :
    step stalledInit = .next stalledInit.advance ∧ stalledInit.nextEdge.rst = false ∧
    (stalledInit.rspPending = none → stalledInit.nextEdge.stall = false → ∀ w p, stalledInit.inFlight = some w →
      decode w = .ok (.init p) → p.toNat = 0 ∨ stalledInit.build.pMax < p.toNat) :=
  ⟨rfl, rfl, fun _ h => absurd h (by decide)⟩

/-- A legal INIT in flight while a response is pending, which no run reaches. -/
def pendingInit : State := { stalledInit with rspPending := some ⟨.ok, 0⟩ }

theorem witness_EntriesNeverDecrease_pending :
    step pendingInit = .next pendingInit.advance ∧ pendingInit.nextEdge.rst = false ∧ pendingInit.rspPending ≠ none :=
  ⟨rfl, rfl, by decide⟩

theorem witness_StalledCommandChangesNothing :
    stalledInit.inFlight = some 0x0100000000000004 ∧ stalledInit.rspPending = none ∧ stalledInit.nextEdge.rst = false ∧
    stalledInit.nextEdge.stall = true ∧ holdBroken stalledInit.nextEdge stalledInit = false := by decide

theorem witness_OnlyInitAndObserveWriteEntries : ∃ t, exec (.observe 8) (sketch 4 [(8, 25)]) = .next t
    ∧ t.mem ≠ (sketch 4 [(8, 25)]).mem := ⟨_, rfl, by decide +kernel⟩

theorem witness_InitConstructsTheSketch : 1 ≤ (16 : Operand).toNat ∧ (16 : Operand).toNat ≤ State.reset.build.pMax := by
  decide

theorem witness_InitConstructsTheSketch_least :
    1 ≤ (1 : Operand).toNat ∧ (1 : Operand).toNat ≤ (sketch 4 [(8, 25)]).build.pMax := by decide

theorem witness_InitRejectsAnIllegalPrecision : (0 : Operand).toNat < 1 ∧ State.reset.build.pMax < (17 : Operand).toNat
    ∧ 32 < (33 : Operand).toNat := by decide

theorem witness_HashWordSplits : (32 : Nat) ≤ 32 := le_rfl

theorem witness_RankIsTheBitLength : (4 : Nat) ≤ 32 ∧ 0x0FFFFFFF < 2 ^ (32 - 4) ∧ (0x0FFFFFFF : Nat) ≠ 0 ∧ 1 ≤ 28 := by
  decide

theorem witness_configured : (sketch 4 [(8, 25)]).cfg.configured = true := rfl

theorem witness_ObserveIsIdempotent : Memory.wf (sketch 4 [(8, 25)]).mem ∧
    ∃ t, exec (.observe 0x12345678) (sketch 4 [(8, 25)]) = .next t := ⟨by decide, _, rfl⟩

theorem witness_ObserveOrderDoesNotMatter :
    Memory.wf (sketch 4 []).mem ∧ ([0x10, 0, 0x12345678] : List Operand).Perm [0x12345678, 0x10, 0] := by decide

theorem witness_estimate : (sketch 4 [(8, 25)]).Inv ∧ (sketch 4 [(8, 25)]).cfg.configured = true :=
  ⟨sketch_4_inv, rfl⟩

theorem witness_HarmonicRoundingIsExactUpTo20 : (sketch 4 [(8, 25)]).Inv ∧ (sketch 4 [(8, 25)]).cfg.configured = true ∧
    (sketch 4 [(8, 25)]).cfg.precision ≤ 20 := ⟨sketch_4_inv, rfl, by decide⟩

theorem witness_RawEstimateIsRoundedOnce : (sketch 4 [(8, 25)]).Inv ∧ (sketch 4 [(8, 25)]).cfg.configured = true ∧
    ∃ r : Ratio, 0 < r.den ∧ r.toRat = F64.toRat (numerator (sketch 4 [(8, 25)]).cfg) /
      F64.toRat (harmonic64 (sketch 4 [(8, 25)]).cfg.precision (sketch 4 [(8, 25)]).mem) :=
  ⟨sketch_4_inv, rfl, exists_ratio (by unfold F64.toRat Ratio.toRat; positivity)⟩

theorem witness_RawEstimateIsRoundedOnce_upTo20 : (sketch 4 [(8, 25)]).Inv ∧
    (sketch 4 [(8, 25)]).cfg.configured = true ∧ (sketch 4 [(8, 25)]).cfg.precision ≤ 20 ∧
    ∃ r : Ratio, 0 < r.den ∧ r.toRat = F64.toRat (sketch 4 [(8, 25)]).cfg.alpha * (sketch 4 [(8, 25)]).cfg.m ^ 2 /
      ((harmonicFx (sketch 4 [(8, 25)]).cfg.precision (sketch 4 [(8, 25)]).mem : ℚ) / 2 ^ 32) :=
  ⟨sketch_4_inv, rfl, by decide, exists_ratio (by unfold F64.toRat Ratio.toRat; positivity)⟩

/-- R140: at `p = 23` the value 10395027178832159 of `Zfx` gives `E = T`. -/
theorem test_equality_with_threshold_23 :
    fdiv (numerator (Cfg.construct 23)) (f64 { num := 10395027178832159, den := 2 ^ 32 }) = thresholdOf 23 := by
  decide +kernel

theorem witness_LinearCountingProductIsExact :
    zeroCount (sketch 4 [(8, 25)]).cfg.precision (sketch 4 [(8, 25)]).mem = 15 := by decide +kernel

theorem witness_EstimateHasTwoBranches_linear :
    fle (rawEstimate (sketch 4 [(8, 25)]).cfg [(8, 25)]) (sketch 4 [(8, 25)]).cfg.thresh = true
      ∧ 0 < zeroCount 4 [(8, 25)] := by decide +kernel

theorem witness_EstimateHasTwoBranches_raw : zeroCount 1 [(0, 31), (1, 1)] = 0 := by decide +kernel

theorem witness_FreshSketchEstimatesZero : 1 ≤ (4 : Operand).toNat ∧ (4 : Operand).toNat ≤ State.reset.build.pMax ∧
    ∃ t, exec (.init 4) State.reset = .next t := ⟨by decide, by decide, _, rfl⟩

theorem third_below_overflow (n : Nat) :
    0 < (Ratio.mk 1 3).den ∧ (Ratio.mk 1 3).toRat < 2 ^ (54 + n) - 2 ^ n := by
  refine ⟨by decide, ?_⟩
  have h : (Ratio.mk 1 3).toRat = 1 / 3 := by norm_num [Ratio.toRat]
  have h1 : (1 : ℚ) ≤ 2 ^ n := one_le_pow₀ (by norm_num)
  rw [h, pow_add]
  linarith

theorem witness_RoundingIsNearestEven : 0 < (Ratio.mk 1 3).den ∧ (Ratio.mk 1 3).toRat < 2 ^ 1024 - 2 ^ 970 :=
  third_below_overflow 970

theorem power_overflows (n k : Nat) : (2 : ℚ) ^ n - 2 ^ k ≤ (Ratio.mk (2 ^ n) 1).toRat := by
  have h : (0 : ℚ) ≤ 2 ^ k := by positivity
  simp [Ratio.toRat]

theorem witness_RoundingIsNearestEven_overflow : (2 : ℚ) ^ 1024 - 2 ^ 970 ≤ (Ratio.mk (2 ^ 1024) 1).toRat :=
  power_overflows 1024 970

/-- The least number that overflows, where the two clauses meet. -/
theorem overflow_boundary (n k : Nat) (h : k ≤ n) : (Ratio.mk (2 ^ n - 2 ^ k) 1).toRat = 2 ^ n - 2 ^ k := by
  rw [Ratio.toRat, Nat.cast_sub (Nat.pow_le_pow_right two_pos h)]
  simp

theorem witness_RoundingIsNearestEven_boundary :
    0 < (Ratio.mk (2 ^ 1024 - 2 ^ 970) 1).den ∧ (2 : ℚ) ^ 1024 - 2 ^ 970 ≤ (Ratio.mk (2 ^ 1024 - 2 ^ 970) 1).toRat :=
  ⟨Nat.one_pos, (overflow_boundary 1024 970 (by norm_num)).ge⟩

/-- One half below that boundary. -/
theorem below_overflow (n k : Nat) (h : k < n) : 0 < (Ratio.mk ((2 ^ n - 2 ^ k) * 2 - 1) 2).den ∧
    (Ratio.mk ((2 ^ n - 2 ^ k) * 2 - 1) 2).toRat < 2 ^ n - 2 ^ k := by
  have h1 : 2 ^ k < 2 ^ n := Nat.pow_lt_pow_right one_lt_two h
  refine ⟨two_pos, ?_⟩
  rw [Ratio.toRat, Nat.cast_sub (by omega), Nat.cast_mul, Nat.cast_sub h1.le]
  push_cast
  linarith

theorem witness_RoundingIsNearestEven_below : 0 < (Ratio.mk ((2 ^ 1024 - 2 ^ 970) * 2 - 1) 2).den ∧
    (Ratio.mk ((2 ^ 1024 - 2 ^ 970) * 2 - 1) 2).toRat < 2 ^ 1024 - 2 ^ 970 := below_overflow 1024 970 (by norm_num)

theorem toRat_of_units {a : F64} {k : Nat} (h : F64.units a = k * 2 ^ F64.unitExp) : F64.toRat a = k := by
  rw [F64.toRat, Ratio.toRat, F64.value, h]
  push_cast
  rw [mul_div_assoc, div_self (by positivity), mul_one]

/-- `2^53 + 1` is as near to `2^53`, which is even, as to `2^53 + 2`. -/
theorem witness_RoundingIsNearestEven_tie : F64.finite 0x4340000000000001 ∧
    (0x4340000000000001 : F64) ≠ f64 (Ratio.mk (2 ^ 53 + 1) 1) ∧
    |F64.toRat (f64 (Ratio.mk (2 ^ 53 + 1) 1)) - (Ratio.mk (2 ^ 53 + 1) 1).toRat| =
      |F64.toRat 0x4340000000000001 - (Ratio.mk (2 ^ 53 + 1) 1).toRat| := by
  have h1 : F64.toRat (f64 (Ratio.mk (2 ^ 53 + 1) 1)) = (2 ^ 53 : Nat) := toRat_of_units (by decide +kernel)
  have h2 : F64.toRat 0x4340000000000001 = (2 ^ 53 + 2 : Nat) := toRat_of_units (by decide +kernel)
  refine ⟨by unfold F64.finite; decide, by decide +kernel, ?_⟩
  rw [h1, h2]
  norm_num [Ratio.toRat]

/-- 2.0 as an argument of the logarithm. -/
theorem toRat_two : F64.toRat 0x4000000000000000 = 2 := toRat_of_units (k := 2) (by decide +kernel)

theorem witness_SettledLogIsCorrectlyRounded : F64.finite 0x4000000000000000 ∧ 1 ≤ F64.toRat 0x4000000000000000 ∧
    0 < lnDoublings ∧ lnSettled 0x4000000000000000 (lnFirstTerms * 2 ^ 0) = true ∧ F64.finite 0 ∧
    0 ≠ ln64 0x4000000000000000 := by
  refine ⟨?_, ?_, by decide, by decide +kernel, by unfold F64.finite; decide, by decide +kernel⟩
  · unfold F64.finite; decide
  · rw [toRat_two]; norm_num

theorem witness_logarithm : F64.finite 0x4000000000000000 ∧ 1 < F64.toRat 0x4000000000000000 ∧
    F64.toRat 0x4000000000000000 ≤ 2 ^ 32 := by
  refine ⟨?_, ?_, ?_⟩
  · unfold F64.finite; decide
  · rw [toRat_two]; norm_num
  · rw [toRat_two]; norm_num

theorem witness_unconfigured : State.reset.cfg.configured = false := rfl

theorem witness_ReadRegReadsOneEntry : (sketch 4 [(8, 25)]).cfg.configured = true ∧
    (15 : Operand).toNat < 2 ^ (sketch 4 [(8, 25)]).cfg.p.toNat ∧
    2 ^ (sketch 4 [(8, 25)]).cfg.p.toNat ≤ (16 : Operand).toNat := by decide

theorem witness_ReadOnlyCommandsChangeNoState : ∃ t, exec (.readReg 8) (sketch 4 [(8, 25)]) = .next t := ⟨_, rfl⟩

theorem witness_ErrorsChangeNoState : ∃ t, runWord 0 (sketch 4 [(8, 25)]) = .next t ∧
    t.rspPending = some ⟨.illegalCommand, 0⟩ ∧ Status.illegalCommand ≠ .ok := ⟨_, rfl, rfl, by decide⟩

theorem witness_NothingFailsAfterInit : ∀ i ∈ [Instr.observe 5, .estimate, .init 3],
    (∃ x, i = .observe x) ∨ i = .estimate ∨
      (∃ p, i = .init p ∧ 1 ≤ p.toNat ∧ p.toNat ≤ (sketch 4 [(8, 25)]).build.pMax) := by
  intro i hi
  simp only [List.mem_cons, List.not_mem_nil, or_false] at hi
  rcases hi with rfl | rfl | rfl
  · exact .inl ⟨_, rfl⟩
  · exact .inr (.inl rfl)
  · exact .inr (.inr ⟨_, rfl, by decide, by decide⟩)

end Sys2Proof.Tests
end

section
/-! SUPPORT. Proofs about the order of OBSERVE commands (spec/20_memory.md R52, R54). -/

namespace Sys2Proof.Machine

/-! ## The bucket update -/

/-- The maximum is taken in any order. -/
theorem entryMax_right_comm (a b c : Entry) : entryMax (entryMax a b) c = entryMax (entryMax a c) b :=
  BitVec.eq_of_toNat_eq (by simp only [entryMax_toNat, Nat.max_right_comm])

theorem observeUpdate_wf (p : Nat) (x : Operand) {m : Memory} (hm : Memory.wf m) :
    Memory.wf (observeUpdate p x m) := write_wf _ _ _ hm

/-- Every entry after an update, the bucket's and the others. -/
theorem read_observeUpdate (p : Nat) (x : Operand) (m : Memory) (j : Nat) :
    Memory.read (observeUpdate p x m) j =
      if j = bucketIndex p x then entryMax (Memory.read m j) (hashRank p x) else Memory.read m j := by
  split
  · next h => subst h; exact read_observeUpdate_bucket p x m
  · next h => exact read_observeUpdate_other p x m h

/-- Two updates commute: on one bucket because `max` does, on two because each leaves the other's bucket alone. -/
theorem observeUpdate_comm (p : Nat) (x y : Operand) {m : Memory} (hm : Memory.wf m) :
    observeUpdate p y (observeUpdate p x m) = observeUpdate p x (observeUpdate p y m) := by
  refine memory_ext (observeUpdate_wf p y (observeUpdate_wf p x hm))
    (observeUpdate_wf p x (observeUpdate_wf p y hm)) fun j => ?_
  simp only [read_observeUpdate]
  by_cases hx : j = bucketIndex p x
  · by_cases hy : j = bucketIndex p y
    · simp only [if_pos hx, if_pos hy]
      exact entryMax_right_comm ..
    · simp only [if_neg hy]
  · simp only [if_neg hx]

/-! ## The command -/

theorem exec_observe_of_configured (x : Operand) {s : State} (h : s.cfg.configured = true) :
    exec (.observe x) s = .next { s with
      mem := observeUpdate s.cfg.precision x s.mem, rspPending := some ⟨.ok, 0⟩, inFlight := none } :=
  withSketch_of_configured h

theorem exec_observe_of_unconfigured (x : Operand) {s : State} (h : s.cfg.configured = false) :
    exec (.observe x) s = .next { s with rspPending := some ⟨.notConfigured, 0⟩, inFlight := none } :=
  withSketch_of_unconfigured h

/-- Every command keeps the array canonical. -/
theorem exec_keeps_mem_wf {i : Instr} {s t : State} (hm : Memory.wf s.mem) (h : exec i s = .next t) :
    Memory.wf t.mem := by
  obtain ⟨u, r, hu, -, -, -, -, -, -, change⟩ := exec_next i s
  obtain rfl : u = t := by injection hu.symm.trans h
  cases change with
  | unchanged _ mem => exact mem ▸ hm
  | constructed p _ _ _ mem => exact mem ▸ clearBelow_wf s.mem _ hm
  | updated x _ _ _ mem => exact mem ▸ observeUpdate_wf _ x hm

/-! ## Sequences -/

theorem execAll_cons_of_next {i : Instr} {s t : State} (h : exec i s = .next t) (is : List Instr) :
    execAll (i :: is) s = execAll is t := by
  rw [execAll, h]

/-- The first two OBSERVE commands of a sequence can change places. -/
theorem execAll_observe_swap (x y : Operand) (is : List Instr) {s : State} (hm : Memory.wf s.mem) :
    execAll (.observe x :: .observe y :: is) s = execAll (.observe y :: .observe x :: is) s := by
  cases h : s.cfg.configured with
  | true => simp only [execAll, exec_observe_of_configured, h, observeUpdate_comm _ x y hm]
  | false => simp only [execAll, exec_observe_of_unconfigured, h]

/-- Settles O36, by induction on the permutation: one step is a change of places, or happens behind a command that
keeps the array canonical. -/
theorem observeOrderDoesNotMatter : Obligations.ObserveOrderDoesNotMatter := by
  intro xs ys s hm perm
  induction perm generalizing s with
  | nil => rfl
  | cons x _ ih =>
    obtain ⟨t, -, ht, -⟩ := exec_next (.observe x) s
    simp only [List.map_cons, execAll_cons_of_next ht]
    exact ih t (exec_keeps_mem_wf hm ht)
  | swap x y xs => exact execAll_observe_swap y x _ hm
  | trans _ _ ih₁ ih₂ => exact (ih₁ s hm).trans (ih₂ s hm)

end Sys2Proof.Machine
end

section
/-! SUPPORT. Proofs about the decoder: the fields of a word, the words that decode, the rows of the opcode map, the
reserved encodings and the examples (spec/30_encoding.md R70 to R75, R84). -/

namespace Sys2Proof

open Sys2Proof.Machine Laws.Layout

/-! ## A word and its fields -/

@[simp] theorem opcField_and (c d : Word) : opcField (c &&& d) = opcField c &&& opcField d :=
  BitVec.extractLsb'_and ..

@[simp] theorem selField_and (c d : Word) : selField (c &&& d) = selField c &&& selField d :=
  BitVec.extractLsb'_and ..

@[simp] theorem rsvdField_and (c d : Word) : rsvdField (c &&& d) = rsvdField c &&& rsvdField d :=
  BitVec.extractLsb'_and ..

@[simp] theorem operandField_and (c d : Word) : operandField (c &&& d) = operandField c &&& operandField d :=
  BitVec.extractLsb'_and ..

/-- A word is its four fields (R70). -/
theorem packFields_fields (c : Word) :
    packFields (opcField c) (selField c) (rsvdField c) (operandField c) = c := by
  simp only [packFields, opcField, selField, rsvdField, operandField]
  rw [BitVec.extractLsb'_append_extractLsb'_eq_extractLsb' (by rfl),
    BitVec.extractLsb'_append_extractLsb'_eq_extractLsb' (by rfl),
    BitVec.extractLsb'_append_extractLsb'_eq_extractLsb' (by rfl)]
  exact BitVec.extractLsb'_eq_self

theorem eq_packFields_iff {c : Word} {opc sel : BitVec 8} {rsvd : BitVec 16} {opnd : Operand} :
    c = packFields opc sel rsvd opnd ↔
      opcField c = opc ∧ selField c = sel ∧ rsvdField c = rsvd ∧ operandField c = opnd := by
  constructor
  · rintro rfl
    exact fields_of_pack ..
  · rintro ⟨rfl, rfl, rfl, rfl⟩
    exact (packFields_fields c).symm

/-- A match under a mask is a match of each field under the mask's field. -/
theorem and_packFields_eq_iff {c : Word} {opc sel opc' sel' : BitVec 8} {rsvd rsvd' : BitVec 16}
    {opnd opnd' : Operand} :
    c &&& packFields opc sel rsvd opnd = packFields opc' sel' rsvd' opnd' ↔
      opcField c &&& opc = opc' ∧ selField c &&& sel = sel' ∧ rsvdField c &&& rsvd = rsvd' ∧
        operandField c &&& opnd = opnd' := by
  obtain ⟨hopc, hsel, hrsvd, hopnd⟩ := fields_of_pack opc sel rsvd opnd
  rw [eq_packFields_iff, opcField_and, selField_and, rsvdField_and, operandField_and, hopc, hsel, hrsvd, hopnd]

/-! ## The words that decode -/

/-- A word decodes to an instruction exactly when it has the instruction's fields and the instruction is well-formed
(R71, R74). -/
theorem decode_eq_ok_iff {c : Word} {i : Instr} :
    decode c = .ok i ↔ i.wellFormed = true ∧ opcField c = opcode i ∧ selField c = selector i ∧ rsvdField c = 0 ∧
      operandField c = operand i := by
  constructor
  · intro h
    unfold decode at h
    -- only the five branches that answer `.ok` are left, each behind the checks of its command
    split_ifs at h <;> cases h
    all_goals simp_all [opcode, selector, operand, Instr.wellFormed, Instr.selectorInRange]
  · rintro ⟨hwf, hopc, hsel, hrsvd, hopnd⟩
    unfold decode
    cases i <;> simp_all [opcode, selector, operand, Instr.wellFormed, Instr.selectorInRange]

theorem exists_decode_eq_error_iff {c : Word} : (∃ e, decode c = .error e) ↔ ¬∃ i, decode c = .ok i := by
  cases decode c <;> simp

/-! ## The rows of the opcode map (R73) -/

/-- The rows that leave the whole operand free. -/
theorem decode_eq_ok_iff_of_operandRow {c pattern : Word} {i : Instr} (opc : BitVec 8) (hwf : i.wellFormed = true)
    (hopc : opcode i = opc) (hsel : selector i = 0) (hword : pattern = packFields opc 0 0 0) :
    decode c = .ok i ↔ c &&& 0xFFFFFFFF00000000 = pattern ∧ operand i = operandField c := by
  have hmask : (0xFFFFFFFF00000000 : Word) = packFields (.allOnes 8) (.allOnes 8) (.allOnes 16) 0 := by decide
  have hfree : operandField c &&& 0 = 0 := BitVec.and_zero
  rw [hmask, hword, and_packFields_eq_iff, decode_eq_ok_iff]
  simp only [BitVec.and_allOnes, hfree, hwf, hopc, hsel, true_and, and_true, and_assoc, eq_comm (a := operand i)]

theorem decode_eq_init_iff {c : Word} {p : Operand} : decode c = .ok (.init p) ↔
    c &&& 0xFFFFFFFF00000000 = 0x0100000000000000 ∧ p = operandField c :=
  decode_eq_ok_iff_of_operandRow 0x01 rfl rfl rfl (by decide)

theorem decode_eq_observe_iff {c : Word} {x : Operand} : decode c = .ok (.observe x) ↔
    c &&& 0xFFFFFFFF00000000 = 0x0200000000000000 ∧ x = operandField c :=
  decode_eq_ok_iff_of_operandRow 0x02 rfl rfl rfl (by decide)

theorem decode_eq_readReg_iff {c : Word} {j : Operand} : decode c = .ok (.readReg j) ↔
    c &&& 0xFFFFFFFF00000000 = 0x0400000000000000 ∧ j = operandField c :=
  decode_eq_ok_iff_of_operandRow 0x04 rfl rfl rfl (by decide)

/-- The row that leaves no bit free. -/
theorem decode_eq_estimate_iff {c : Word} : decode c = .ok .estimate ↔
    c &&& 0xFFFFFFFFFFFFFFFF = 0x0300000000000000 := by
  have hmask : (0xFFFFFFFFFFFFFFFF : Word) = .allOnes 64 := by decide
  have hword : (0x0300000000000000 : Word) = packFields 0x03 0 0 0 := by decide
  rw [hmask, hword, BitVec.and_allOnes, eq_packFields_iff, decode_eq_ok_iff]
  exact and_iff_right rfl

/-- The selectors that fit in `SEL[1:0]`. -/
theorem selector_and_mask_eq_zero_iff : ∀ sel : BitVec 8, sel &&& 0xFC = 0 ↔ sel.toNat ≤ 3 := by decide

/-- The row that leaves `SEL[1:0]` free. -/
theorem decode_eq_info_iff {c : Word} {sel : BitVec 8} : decode c = .ok (.info sel) ↔
    c &&& 0xFFFCFFFFFFFFFFFF = 0x0500000000000000 ∧ sel = selField c := by
  have hmask : (0xFFFCFFFFFFFFFFFF : Word) = packFields (.allOnes 8) 0xFC (.allOnes 16) (.allOnes 32) := by decide
  have hword : (0x0500000000000000 : Word) = packFields 0x05 0 0 0 := by decide
  rw [hmask, hword, and_packFields_eq_iff, decode_eq_ok_iff]
  simp only [BitVec.and_allOnes, selector_and_mask_eq_zero_iff, Instr.wellFormed, Instr.selectorInRange, opcode,
    selector, operand, decide_eq_true_eq]
  constructor
  · rintro ⟨hle, hopc, rfl, hrest⟩
    exact ⟨⟨hopc, hle, hrest⟩, rfl⟩
  · rintro ⟨⟨hopc, hle, hrest⟩, rfl⟩
    exact ⟨hle, hopc, rfl, hrest⟩

/-- A word decodes exactly when it selects a row. -/
theorem exists_decode_eq_ok_iff {c : Word} :
    (∃ i, decode c = .ok i) ↔ ∃ row ∈ opcodeTable, row.selects c = true := by
  simp only [opcodeTable, OpcodeRow.selects, List.exists_mem_cons_iff, List.not_mem_nil, false_and, exists_false,
    or_false, beq_iff_eq]
  constructor
  · rintro ⟨i, h⟩
    cases i with
    | init p => exact .inl (decode_eq_init_iff.mp h).1
    | observe x => exact .inr (.inl (decode_eq_observe_iff.mp h).1)
    | estimate => exact .inr (.inr (.inl (decode_eq_estimate_iff.mp h)))
    | readReg j => exact .inr (.inr (.inr (.inl (decode_eq_readReg_iff.mp h).1)))
    | info sel => exact .inr (.inr (.inr (.inr (decode_eq_info_iff.mp h).1)))
  · rintro (h | h | h | h | h)
    · exact ⟨_, decode_eq_init_iff.mpr ⟨h, rfl⟩⟩
    · exact ⟨_, decode_eq_observe_iff.mpr ⟨h, rfl⟩⟩
    · exact ⟨_, decode_eq_estimate_iff.mpr h⟩
    · exact ⟨_, decode_eq_readReg_iff.mpr ⟨h, rfl⟩⟩
    · exact ⟨_, decode_eq_info_iff.mpr ⟨h, rfl⟩⟩

/-- Settles O3, row by row; an illegal word is one that no row selects. -/
theorem decodeAgreesWithOpcodeMap : Obligations.DecodeAgreesWithOpcodeMap := by
  intro c
  refine ⟨fun _ => decode_eq_init_iff, fun _ => decode_eq_observe_iff, decode_eq_estimate_iff,
    fun _ => decode_eq_readReg_iff, fun _ => decode_eq_info_iff, ?_⟩
  rw [exists_decode_eq_error_iff, exists_decode_eq_ok_iff]
  simp only [not_exists, not_and, Bool.not_eq_true]

/-! ## The reserved encodings (R75) -/

/-- The clauses of R75. -/
def Reserved (c : Word) : Prop :=
  opcField c = 0x00 ∨ 0x06 ≤ (opcField c).toNat ∨ rsvdField c ≠ 0 ∨ (opcField c ≠ 0x05 ∧ selField c ≠ 0) ∨
    (opcField c = 0x05 ∧ 4 ≤ (selField c).toNat) ∨ ((opcField c = 0x03 ∨ opcField c = 0x05) ∧ operandField c ≠ 0)

/-- A word that decodes meets no clause of R75. -/
theorem not_reserved_of_decode_eq_ok {c : Word} {i : Instr} (h : decode c = .ok i) : ¬Reserved c := by
  obtain ⟨hwf, hopc, hsel, hrsvd, hopnd⟩ := decode_eq_ok_iff.mp h
  rw [Reserved, hopc, hsel, hrsvd, hopnd]
  cases i with
  | init p => simp [opcode, selector]
  | observe x => simp [opcode, selector]
  | estimate => simp [opcode, selector, operand]
  | readReg j => simp [opcode, selector]
  | info sel =>
    have hlt : sel.toNat < 4 := Nat.lt_succ_of_le (of_decide_eq_true hwf)
    simp [opcode, selector, operand, hlt]

/-- A word that meets no clause of R75 has one of the five opcodes, and decodes to that opcode's command. -/
theorem exists_decode_eq_ok_of_not_reserved {c : Word} (h : ¬Reserved c) : ∃ i, decode c = .ok i := by
  simp only [Reserved, not_or, not_and, not_not, not_le] at h
  obtain ⟨hzero, hmax, hrsvd, hsel, hinfo, hopnd⟩ := h
  have hopc : opcField c = 0x01 ∨ opcField c = 0x02 ∨ opcField c = 0x03 ∨ opcField c = 0x04 ∨ opcField c = 0x05 := by
    bv_omega
  rcases hopc with ho | ho | ho | ho | ho
  · exact ⟨.init (operandField c), decode_eq_ok_iff.mpr ⟨rfl, ho, hsel (by simp [ho]), hrsvd, rfl⟩⟩
  · exact ⟨.observe (operandField c), decode_eq_ok_iff.mpr ⟨rfl, ho, hsel (by simp [ho]), hrsvd, rfl⟩⟩
  · exact ⟨.estimate, decode_eq_ok_iff.mpr ⟨rfl, ho, hsel (by simp [ho]), hrsvd, hopnd (.inl ho)⟩⟩
  · exact ⟨.readReg (operandField c), decode_eq_ok_iff.mpr ⟨rfl, ho, hsel (by simp [ho]), hrsvd, rfl⟩⟩
  · have hle : (selField c).toNat ≤ 3 := Nat.le_of_lt_succ (hinfo ho)
    exact ⟨.info (selField c), decode_eq_ok_iff.mpr ⟨decide_eq_true hle, ho, rfl, hrsvd, hopnd (.inr ho)⟩⟩

/-- Settles O5: a reserved word decodes to no command, so it answers ILLEGAL_COMMAND; any other word decodes. -/
theorem reservedEncodingsAnswerIllegalCommand : Obligations.ReservedEncodingsAnswerIllegalCommand := by
  intro c s
  refine ⟨fun h => ?_, exists_decode_eq_ok_of_not_reserved⟩
  rcases runWord_cases c s with ⟨i, hi, -⟩ | ⟨e, -, hrun⟩
  · exact absurd h (not_reserved_of_decode_eq_ok hi)
  · exact hrun

/-! ## The examples (R84) -/

theorem execInit_of_not_precisionOk {p : Operand} {s : State} (h : precisionOk s.build p = false) :
    execInit p s = raiseError .configError s := by
  rw [execInit, h]
  rfl

/-- The precision 0 is legal in no build (40_construct.md R101). -/
theorem precisionOk_zero (b : Config.Build) : precisionOk b 0 = false :=
  decide_eq_false fun h => absurd h.1 (by decide)

/-- Settles O4: every text and word is closed and evaluated; INIT 0 by its precision check. -/
theorem decodesTheExamplesOfTheSpec : Obligations.DecodesTheExamplesOfTheSpec := by
  have init_zero (s : State) : ∃ t, exec (.init 0) s = .next t ∧ t.rspPending = some ⟨.configError, 0⟩ :=
    ⟨_, execInit_of_not_precisionOk (precisionOk_zero s.build), rfl⟩
  exact ⟨by decide, by decide, by decide, by decide, init_zero, by decide⟩

end Sys2Proof
end

section
/-! SUPPORT. Proofs about INIT: the precision check, what a legal INIT constructs, and the threshold it writes
(spec/40_construct.md R101, R102, R104 to R106). -/

namespace Sys2Proof.Machine

/-! ## The precision check (R101) -/

theorem pMax_le (b : Config.Build) : b.pMax ≤ 32 := b.pMaxLessOne.isLt

theorem precisionOk_eq_true_iff {b : Config.Build} {p : Operand} :
    precisionOk b p = true ↔ 1 ≤ p.toNat ∧ p.toNat ≤ b.pMax := decide_eq_true_iff

/-- The third cause, `p > 32`, is part of the second, since `P_MAX <= 32`. -/
theorem precisionOk_eq_false_iff {b : Config.Build} {p : Operand} :
    precisionOk b p = false ↔ p.toNat < 1 ∨ b.pMax < p.toNat ∨ 32 < p.toNat := by
  have hmax := pMax_le b
  rw [← Bool.not_eq_true, precisionOk_eq_true_iff]
  omega

/-! ## The command -/

theorem exec_init_of_precisionOk {p : Operand} {s : State} (h : precisionOk s.build p = true) :
    exec (.init p) s = .next { s with
      cfg := Cfg.construct p, mem := Memory.clearBelow s.mem (2 ^ p.toNat), rspPending := some ⟨.ok, 0⟩,
      inFlight := none } :=
  if_pos h

theorem exec_init_of_not_precisionOk {p : Operand} {s : State} (h : precisionOk s.build p = false) :
    exec (.init p) s = .next { s with rspPending := some ⟨.configError, 0⟩, inFlight := none } :=
  execInit_of_not_precisionOk h

/-- A legal precision fits in the 6 bits of `CFG.P`. -/
theorem construct_precision {b : Config.Build} {p : Operand} (h : p.toNat ≤ b.pMax) :
    (Cfg.construct p).precision = p.toNat := by
  have hmax := pMax_le b
  exact Nat.mod_eq_of_lt (by omega)

/-- Settles O28: the three causes are what the precision check refuses. -/
theorem initRejectsAnIllegalPrecision : Obligations.InitRejectsAnIllegalPrecision :=
  fun _ _ h => exec_init_of_not_precisionOk (precisionOk_eq_false_iff.mpr h)

/-- Settles O27: the next state is the one written out by `exec_init_of_precisionOk`, and its array reads as
`clearBelow` does on each side of `2^p`. -/
theorem initConstructsTheSketch : Obligations.InitConstructsTheSketch := by
  intro p s hmin hmax
  have hprecision := construct_precision hmax
  exact ⟨_, exec_init_of_precisionOk (precisionOk_eq_true_iff.mpr ⟨hmin, hmax⟩), rfl, rfl, hprecision,
    congrArg (2 ^ ·) hprecision, rfl, rfl, fun _ hj => read_clearBelow_lt _ _ hj, fun _ hj => read_clearBelow_ge _ _ hj,
    rfl, rfl, rfl, rfl⟩

/-! ## Products by a power of two -/

/-- Adding `p` to the exponent field multiplies a normal number by `2^p`. -/
theorem units_of_exponent_add {a c : F64} {p : Nat} (ha : F64.finite a) (hn : a.exponent ≠ 0)
    (hx : a.exponent + p ≤ 2046) (hc : c.toNat = a.toNat + p * 2 ^ 52) :
    F64.finite c ∧ F64.units c = F64.units a * 2 ^ p := by
  have hparts := toNat_eq_parts (lt_trans ha (by decide))
  have hfraction : a.fraction < 2 ^ 52 := Nat.mod_lt _ (by norm_num)
  have hcf : c.fraction = a.fraction := by
    rw [F64.fraction, hc, Nat.add_mul_mod_self_right, F64.fraction]
  have hcx : c.exponent = a.exponent + p := by
    rw [F64.exponent, hc]
    omega
  refine ⟨?_, ?_⟩
  · unfold F64.finite F64.infinityBits
    omega
  · rw [F64.units, F64.units, if_neg hn, if_neg (by omega), hcf, hcx, Nat.mul_assoc, ← Nat.pow_add,
      Nat.sub_add_comm (Nat.one_le_iff_ne_zero.mpr hn)]

/-- The product of a normal number by `f64(2^p)`, where it stays in range, is encoded with `p` added to the exponent. -/
theorem toNat_fmul_two_pow {a b : F64} {p : Nat} (ha : F64.finite a) (hn : a.exponent ≠ 0) (hp : p ≤ 64)
    (hx : a.exponent + p ≤ 2046) (hb : F64.toRat b = 2 ^ p) : (fmul a b).toNat = a.toNat + p * 2 ^ 52 := by
  obtain ⟨hfinite, hvalue⟩ := toRat_fmul_two_pow ha hp hx hb
  have hword : (BitVec.ofNat 64 (a.toNat + p * 2 ^ 52)).toNat = a.toNat + p * 2 ^ 52 := by
    have hlt : a.toNat < 2 ^ 63 := lt_trans ha (by decide)
    rw [BitVec.toNat_ofNat, Nat.mod_eq_of_lt (by omega)]
  obtain ⟨hwf, hunits⟩ := units_of_exponent_add ha hn hx hword
  rw [← hword]
  refine congrArg BitVec.toNat (toRat_injective hfinite hwf ?_)
  rw [hvalue, toRat_eq, toRat_eq, hunits, Nat.cast_mul, Nat.cast_pow, Nat.cast_ofNat, div_mul_eq_mul_div]

/-! ## The threshold (R104) -/

theorem lit_five_halves : lit 25 10 = 0x4004000000000000 := by decide +kernel

theorem toRat_five_halves : F64.toRat 0x4004000000000000 = 5 / 2 := by
  have hunits : F64.units 0x4004000000000000 = 5 * 2 ^ 1073 := by decide +kernel
  have hpow : (2 : ℚ) ^ 1074 = 2 * 2 ^ 1073 := pow_succ' 2 1073
  rw [toRat_eq, hunits, unitExp_eq, hpow, Nat.cast_mul, Nat.cast_pow]
  exact mul_div_mul_right _ _ (by positivity)

/-- The threshold is a product by `f64(2^p)`, so it is exact, and its exponent is that of 2.5 with `p` added. -/
theorem thresholdOf_exact {p : Nat} (hp : p ≤ 64) :
    F64.toRat (thresholdOf p) = 5 / 2 * 2 ^ p ∧ (thresholdOf p).toNat = 0x4004000000000000 + p * 2 ^ 52 := by
  have hexponent : F64.exponent 0x4004000000000000 = 1024 := by decide
  have hfinite : F64.finite 0x4004000000000000 := by unfold F64.finite; decide
  have hpow := (toRat_f64OfNat_two_pow hp).2
  rw [thresholdOf, lit_five_halves]
  refine ⟨?_, ?_⟩
  · rw [(toRat_fmul_two_pow hfinite hp (by omega) hpow).2, toRat_five_halves]
  · exact toNat_fmul_two_pow hfinite (by omega) hp (by omega) hpow

/-- Settles O31: the two examples are the encoding at `p = 1` and `p = 10`. -/
theorem thresholdIsExact : Obligations.ThresholdIsExact :=
  ⟨fun _ _ hp => thresholdOf_exact (hp.trans (by norm_num)),
    BitVec.eq_of_toNat_eq (thresholdOf_exact (by norm_num)).2,
    BitVec.eq_of_toNat_eq (thresholdOf_exact (by norm_num)).2⟩

end Sys2Proof.Machine
end

section
/-! SUPPORT. Proofs about OBSERVE: the two parts of a hash word, its rank, and the one entry the command raises
(spec/41_observe.md R120 to R126). -/

namespace Sys2Proof.Machine

/-! ## The two parts of a hash word (R122, R123) -/

theorem bucketIndex_eq_mod (p : Nat) (x : Operand) : bucketIndex p x = x.toNat % 2 ^ p :=
  Nat.and_two_pow_sub_one_eq_mod ..

theorem highBits_eq_div (p : Nat) (x : Operand) : highBits p x = x.toNat / 2 ^ p := Nat.shiftRight_eq_div_pow ..

/-- The high part has the `32 - p` bits that the bucket index leaves of the word. -/
theorem highBits_lt_two_pow_sub {p : Nat} (hp : p ≤ 32) (x : Operand) : highBits p x < 2 ^ (32 - p) := by
  have hsplit : 2 ^ 32 = 2 ^ p * 2 ^ (32 - p) := by rw [← Nat.pow_add, Nat.add_sub_cancel' hp]
  rw [highBits_eq_div]
  exact Nat.div_lt_of_lt_mul (hsplit ▸ x.isLt)

/-- Settles O32: the high part at `p = 32` is the one number below `2^0`. -/
theorem hashWordSplits : Obligations.HashWordSplits :=
  fun p x => ⟨bucketIndex_eq_mod p x, bucketIndex_lt p x, highBits_eq_div p x, fun hp => highBits_lt_two_pow_sub hp x,
    Nat.lt_one_iff.mp (highBits_lt_two_pow_sub le_rfl x)⟩

/-! ## The rank (R124) -/

/-- The rank of a non-zero `w` bounds `w` by a power of two, and is the least number that does. -/
theorem rank_le_iff {w : Nat} (hw : w ≠ 0) (k : Nat) : rank w ≤ k ↔ w < 2 ^ k := by
  rw [rank, if_neg hw, bitLength, if_neg hw, Nat.succ_le_iff, Nat.log2_lt hw]

/-- The values of rank `k` are those between two neighbouring powers of two. -/
theorem rank_eq_iff {w k : Nat} (hw : w ≠ 0) (hk : 1 ≤ k) : rank w = k ↔ 2 ^ (k - 1) ≤ w ∧ w ≤ 2 ^ k - 1 := by
  have hupper := rank_le_iff hw k
  have hlower := rank_le_iff hw (k - 1)
  have hpos : 0 < 2 ^ k := Nat.two_pow_pos k
  omega

/-- Settles O33: every clause on a non-zero `w` is a case of `rank_le_iff`. -/
theorem rankIsTheBitLength : Obligations.RankIsTheBitLength :=
  ⟨rfl, fun p w _ hlt hw => ⟨rank_pos w, (rank_le_iff hw (32 - p)).mpr hlt, (rank_le_iff hw _).mp le_rfl,
    fun k => (rank_le_iff hw k).mpr, fun _ hk => rank_eq_iff hw hk⟩⟩

/-! ## The command (R125, R126) -/

theorem toNat_read_observeUpdate_bucket (p : Nat) (x : Operand) (m : Memory) :
    (Memory.read (observeUpdate p x m) (bucketIndex p x)).toNat =
      max (Memory.read m (bucketIndex p x)).toNat (rank (highBits p x)) := by
  rw [read_observeUpdate_bucket, entryMax_toNat, hashRank_toNat]

/-- Settles O34: the next state is the one written out by `exec_observe_of_configured`; only its array and its
response differ from the state before, and the array is that of `observeUpdate`. -/
theorem observeRaisesOneBucket : Obligations.ObserveRaisesOneBucket :=
  fun x _ hconfigured => ⟨_, exec_observe_of_configured x hconfigured, rfl, toNat_read_observeUpdate_bucket _ x _,
    fun _ hj => read_observeUpdate_other _ x _ hj, rfl, rfl, rfl, rfl, rfl⟩

end Sys2Proof.Machine
end

section
/-! SUPPORT. Proofs about rounding: a fraction lies on its result's side of the middle between the result and any other
binary64 number, and the powers of two that bound what ESTIMATE computes (spec/00_scope.md R15). -/

namespace Sys2Proof.Machine

/-! ## The middle of two numbers -/

/-- No number lies within one quantum above a result. -/
theorem units_f64_add_quantum_le {r : Ratio} {c : F64} (h : 0 < r.den) (hf : F64.finite (f64 r))
    (hlt : F64.units (f64 r) < F64.units c) : F64.units (f64 r) + 2 ^ F64.excessBits r ≤ F64.units c := by
  have hu := (units_f64 h hf).2
  rcases units_dvd_or_lt c (F64.excessBits r) with ⟨k, hk⟩ | hsmall
  · rw [hu, hk, Nat.mul_comm _ k] at hlt ⊢
    have hs : significand r + 1 ≤ k := Nat.lt_of_mul_lt_mul_right hlt
    calc _ = (significand r + 1) * 2 ^ F64.excessBits r := by ring
      _ ≤ _ := Nat.mul_le_mul_right _ hs
  · have hs : significand r < 2 ^ 52 := by
      rw [hu] at hlt
      rw [Nat.pow_add] at hsmall
      exact Nat.lt_of_mul_lt_mul_right (hlt.trans hsmall)
    have he : F64.excessBits r = 0 := by
      by_contra he
      exact absurd (le_significand h he) (by omega)
    rw [he]
    exact hlt

/-- No number lies within one quantum below a result, but for a result at the lower end of its binade, which is not
above the fraction. -/
theorem units_add_quantum_le_f64 {r : Ratio} {c : F64} (h : 0 < r.den) (hf : F64.finite (f64 r))
    (hlt : F64.units c < F64.units (f64 r)) :
    F64.units c + 2 ^ F64.excessBits r ≤ F64.units (f64 r) ∨
      F64.units (f64 r) * r.den ≤ r.num * 2 ^ F64.unitExp := by
  have hu := (units_f64 h hf).2
  by_cases he : F64.excessBits r = 0
  · rw [he]
    exact .inl hlt
  rcases Nat.eq_or_lt_of_le (le_significand h he) with hs | hs
  · rw [hu, ← hs, ← Nat.pow_add]
    exact .inr ((excessBits_bounds h).2 he)
  · left
    rw [hu] at hlt ⊢
    rcases units_dvd_or_lt c (F64.excessBits r) with ⟨k, hk⟩ | hsmall
    · rw [hk, Nat.mul_comm _ k] at hlt ⊢
      have hk1 : k + 1 ≤ significand r := Nat.lt_of_mul_lt_mul_right hlt
      calc _ = (k + 1) * 2 ^ F64.excessBits r := by ring
        _ ≤ _ := Nat.mul_le_mul_right _ hk1
    · rw [Nat.pow_add] at hsmall
      calc _ ≤ (2 ^ 52 + 1) * 2 ^ F64.excessBits r := by rw [Nat.add_mul, Nat.one_mul]; omega
        _ ≤ _ := Nat.mul_le_mul_right _ hs

/-- The order of twice a fraction and a sum of two numbers, in units. -/
theorem two_mul_toRat_le_iff {r : Ratio} (h : 0 < r.den) (a c : F64) :
    2 * r.toRat ≤ F64.toRat a + F64.toRat c ↔
      2 * (r.num * 2 ^ F64.unitExp) ≤ (F64.units a + F64.units c) * r.den := by
  have hd : (0 : ℚ) < r.den := Nat.cast_pos.mpr h
  rw [toRat_eq, toRat_eq, ← add_div, Ratio.toRat, ← mul_div_assoc, div_le_div_iff₀ hd unit_pos, mul_assoc]
  exact_mod_cast Iff.rfl

theorem le_two_mul_toRat_iff {r : Ratio} (h : 0 < r.den) (a c : F64) :
    F64.toRat a + F64.toRat c ≤ 2 * r.toRat ↔
      (F64.units a + F64.units c) * r.den ≤ 2 * (r.num * 2 ^ F64.unitExp) := by
  have hd : (0 : ℚ) < r.den := Nat.cast_pos.mpr h
  rw [toRat_eq, toRat_eq, ← add_div, Ratio.toRat, ← mul_div_assoc, div_le_div_iff₀ unit_pos hd, mul_assoc]
  exact_mod_cast Iff.rfl

theorem toRat_lt_iff {a b : F64} : F64.toRat a < F64.toRat b ↔ F64.units a < F64.units b :=
  lt_iff_lt_of_le_iff_le toRat_le_iff

/-- A fraction is at most half-way from its result to a greater number. -/
theorem toRat_le_middle {r : Ratio} {c : F64} (h : 0 < r.den) (hf : F64.finite (f64 r))
    (hlt : F64.toRat (f64 r) < F64.toRat c) : 2 * r.toRat ≤ F64.toRat (f64 r) + F64.toRat c := by
  have hgap := Nat.mul_le_mul_right r.den (units_f64_add_quantum_le h hf (toRat_lt_iff.mp hlt))
  have hnear := (f64_near h hf).1
  rw [two_mul_toRat_le_iff h, Nat.add_mul]
  rw [Nat.add_mul, Nat.mul_comm (2 ^ F64.excessBits r)] at hgap
  omega

/-- A fraction is at least half-way from a smaller number to its result. -/
theorem middle_le_toRat {r : Ratio} {c : F64} (h : 0 < r.den) (hf : F64.finite (f64 r))
    (hlt : F64.toRat c < F64.toRat (f64 r)) : F64.toRat (f64 r) + F64.toRat c ≤ 2 * r.toRat := by
  have hlt := toRat_lt_iff.mp hlt
  rw [le_two_mul_toRat_iff h, Nat.add_mul]
  rcases units_add_quantum_le_f64 h hf hlt with hgap | hbelow
  · have hgap := Nat.mul_le_mul_right r.den hgap
    have hnear := (f64_near h hf).2
    rw [Nat.add_mul, Nat.mul_comm (2 ^ F64.excessBits r)] at hgap
    omega
  · have hc := Nat.mul_le_mul_right r.den hlt.le
    omega

/-! ## Powers of two -/

/-- A power of two in range is a binary64 number. -/
theorem toRat_f64_two_pow_div {p k : Nat} (hp : p ≤ 64) (hk : k ≤ 64) :
    F64.finite (f64 ⟨2 ^ p, 2 ^ k⟩) ∧ F64.toRat (f64 ⟨2 ^ p, 2 ^ k⟩) = 2 ^ p / 2 ^ k := by
  have hv : (Ratio.mk (2 ^ p) (2 ^ k)).toRat = 2 ^ p / 2 ^ k := by simp [Ratio.toRat]
  have hexp : F64.unitExp + p = p + (F64.unitExp - k) + k := by rw [unitExp_eq]; omega
  have h := toRat_f64 (r := ⟨2 ^ p, 2 ^ k⟩) (m := 1) (e := p + (F64.unitExp - k)) (Nat.two_pow_pos k) (by norm_num)
    (by rw [unitExp_eq]; omega) (by
      rw [hv, Nat.cast_one, one_mul, div_mul_eq_mul_div, div_eq_iff (by positivity), mul_comm, ← pow_add, hexp,
        pow_add])
  exact ⟨h.1, h.2.trans hv⟩

/-- A fraction between two numbers rounds to one between them. -/
theorem f64_between {r : Ratio} {lo hi : F64} (h : 0 < r.den) (hlo : F64.finite lo) (hhi : F64.finite hi)
    (hlower : F64.toRat lo ≤ r.toRat) (hupper : r.toRat ≤ F64.toRat hi) :
    F64.finite (f64 r) ∧ F64.toRat lo ≤ F64.toRat (f64 r) ∧ F64.toRat (f64 r) ≤ F64.toRat hi := by
  obtain ⟨hf, hle⟩ := f64_le h hhi hupper
  exact ⟨hf, le_f64 h hlo hf hlower, hle⟩

/-- A finite number of at least `2^-53` is normal. -/
theorem positiveNormal_of_le {a : F64} (ha : F64.finite a) (h : 1 / 2 ^ 53 ≤ F64.toRat a) : F64.positiveNormal a := by
  refine ⟨?_, ha⟩
  by_contra hlt
  have hunits : F64.units a < 2 ^ 52 := by
    have hexponent : a.exponent = 0 := by unfold F64.exponent; omega
    rw [F64.units, if_pos hexponent]
    exact Nat.mod_lt _ (by norm_num)
  have hlarge : 2 ^ F64.unitExp ≤ F64.units a * 2 ^ 53 := by
    rw [toRat_eq, div_le_div_iff₀ (by positivity) unit_pos, one_mul] at h
    exact_mod_cast h
  have hpow : 2 ^ (52 + 53) ≤ 2 ^ F64.unitExp := Nat.pow_le_pow_right two_pos (by rw [unitExp_eq]; norm_num)
  omega

/-! ## Quotients -/

theorem den_value_div_pos {a b : F64} (hb : 0 < F64.toRat b) : 0 < ((F64.value a).div (F64.value b)).den := by
  rw [toRat_eq, div_pos_iff_of_pos_right unit_pos] at hb
  exact Nat.mul_pos (den_value_pos a) (Nat.cast_pos.mp hb)

/-- A quotient is any fraction of its value, rounded once. -/
theorem fdiv_eq_f64 {a b : F64} {r : Ratio} (hb : 0 < F64.toRat b) (h : 0 < r.den)
    (hr : r.toRat = F64.toRat a / F64.toRat b) : fdiv a b = f64 r :=
  f64_congr (den_value_div_pos hb) h ((toRat_value_div a b).trans hr.symm)

/-- A quotient that is a binary64 number is exact. -/
theorem fdiv_eq {a b c : F64} (hb : 0 < F64.toRat b) (hc : F64.finite c) (h : F64.toRat c = F64.toRat a / F64.toRat b) :
    fdiv a b = c :=
  (fdiv_eq_f64 hb (den_value_pos c) h).trans (f64_value hc)

theorem fdiv_between {a b lo hi : F64} (hb : 0 < F64.toRat b) (hlo : F64.finite lo) (hhi : F64.finite hi)
    (hlower : F64.toRat lo ≤ F64.toRat a / F64.toRat b) (hupper : F64.toRat a / F64.toRat b ≤ F64.toRat hi) :
    F64.finite (fdiv a b) ∧ F64.toRat lo ≤ F64.toRat (fdiv a b) ∧ F64.toRat (fdiv a b) ≤ F64.toRat hi :=
  f64_between (den_value_div_pos hb) hlo hhi (hlower.trans_eq (toRat_value_div a b).symm)
    ((toRat_value_div a b).trans_le hupper)

end Sys2Proof.Machine
end

section
/-! SUPPORT. Proofs about `ln64`: the search settles, and so `ln64` is the correctly rounded logarithm
(spec/42_estimate.md R150). -/

namespace Sys2Proof.Laws

open Sys2Proof.Machine

/-! ## The bounds of the search -/

theorem lnLower_den_pos (a : F64) (n : Nat) : 0 < (lnLower a n).den := Nat.pos_of_ne_zero (den_lnLower a n)

theorem lnUpper_den_pos (a : F64) (n : Nat) : 0 < (lnUpper a n).den := Nat.pos_of_ne_zero (den_lnUpper a n)

/-- The bounds enclose the logarithm. -/
theorem log_mem_bounds {a : F64} (h : 1 ≤ F64.toRat a) (n : Nat) :
    (((lnLower a n).toRat : ℚ) : ℝ) ≤ Real.log (F64.toRat a : ℝ) ∧
      Real.log (F64.toRat a : ℝ) ≤ (((lnUpper a n).toRat : ℚ) : ℝ) := by
  obtain ⟨htwo, htwo'⟩ := twoAtanh_bounds (u := 1) (v := 3) (by norm_num) n
  obtain ⟨hfrac, hfrac'⟩ := twoAtanh_bounds (third_lt a) n
  rw [log_of_one_le h, toRat_lnLower, toRat_lnUpper, Rat.cast_add, Rat.cast_mul, Rat.cast_natCast, Rat.cast_add,
    Rat.cast_mul, Rat.cast_natCast]
  exact ⟨add_le_add (mul_le_mul_of_nonneg_left htwo (Nat.cast_nonneg _)) hfrac,
    add_le_add (mul_le_mul_of_nonneg_left htwo' (Nat.cast_nonneg _)) hfrac'⟩

theorem log_le_thirtyThree {a : F64} (h1 : 1 ≤ F64.toRat a) (h2 : F64.toRat a ≤ 2 ^ 32) :
    Real.log (F64.toRat a : ℝ) ≤ 33 := by
  have hb : (a.binade : ℝ) ≤ 32 := by exact_mod_cast binade_le_of_le h1 h2
  linarith [log_le h1]

theorem lnLower_le {a : F64} (h1 : 1 ≤ F64.toRat a) (h2 : F64.toRat a ≤ 2 ^ 32) (n : Nat) :
    (lnLower a n).toRat ≤ 33 := by
  exact_mod_cast (log_mem_bounds h1 n).1.trans (log_le_thirtyThree h1 h2)

/-- The distance of the bounds on `[1, 2^32]`. -/
theorem lnUpper_le_lnLower_add {a : F64} (h1 : 1 ≤ F64.toRat a) (h2 : F64.toRat a ≤ 2 ^ 32) (n : Nat) :
    (lnUpper a n).toRat ≤ (lnLower a n).toRat + 33 * (1 / 9) ^ n := by
  have hb : (a.binade : ℚ) ≤ 32 := by exact_mod_cast binade_le_of_le h1 h2
  have hw : (a.binade + 1 : ℚ) * (1 / 9) ^ n ≤ 33 * (1 / 9) ^ n :=
    mul_le_mul_of_nonneg_right (by linarith) (by positivity)
  linarith [lnUpper_sub_lnLower_le a n]

theorem lnUpper_le {a : F64} (h1 : 1 ≤ F64.toRat a) (h2 : F64.toRat a ≤ 2 ^ 32) {n : Nat} (hn : n ≠ 0) :
    (lnUpper a n).toRat ≤ 64 := by
  have hp : (1 / 9 : ℚ) ^ n ≤ 1 / 9 := pow_le_of_le_one (by norm_num) (by norm_num) hn
  linarith [lnUpper_le_lnLower_add h1 h2 n, lnLower_le h1 h2 n]

/-- What is at most 64 rounds to a finite number of at most 64. -/
theorem f64_le_sixtyFour {r : Ratio} (h : 0 < r.den) (hle : r.toRat ≤ 64) :
    F64.finite (f64 r) ∧ F64.toRat (f64 r) ≤ 64 := by
  obtain ⟨hf, hv⟩ := toRat_f64OfNat_two_pow (p := 6) (by norm_num)
  have h64 : F64.toRat (f64OfNat (2 ^ 6)) = 64 := by rw [hv]; norm_num
  simpa only [h64] using f64_le h hf (hle.trans_eq h64.symm)

theorem f64_lnLower_le {a : F64} (h1 : 1 ≤ F64.toRat a) (h2 : F64.toRat a ≤ 2 ^ 32) (n : Nat) :
    F64.finite (f64 (lnLower a n)) ∧ F64.toRat (f64 (lnLower a n)) ≤ 64 :=
  f64_le_sixtyFour (lnLower_den_pos a n) ((lnLower_le h1 h2 n).trans (by norm_num))

/-! ## The search settles -/

theorem toRat_cast_real (a : F64) : ((F64.toRat a : ℚ) : ℝ) = (F64.units a : ℝ) / 2 ^ F64.unitExp := by
  rw [toRat_eq, Rat.cast_div, Rat.cast_natCast, Rat.cast_pow, Rat.cast_ofNat]

/-- The logarithm keeps its distance from every positive multiple of half a unit up to 64. -/
theorem log_separation {a : F64} (h1 : 1 ≤ F64.toRat a) (h2 : F64.toRat a ≤ 2 ^ 32) {u : Nat} (hu : u ≠ 0)
    (hu64 : (u : ℝ) / 2 ^ (F64.unitExp + 1) ≤ 64) :
    1 ≤ |Real.log (F64.toRat a : ℝ) - (u : ℝ) / 2 ^ (F64.unitExp + 1)| * 2 ^ (2 ^ (4400 + 16)) := by
  have hlog := log_le_thirtyThree h1 h2
  have ha : F64.units a ≠ 0 := by
    intro h0
    rw [toRat_eq, h0, Nat.cast_zero, zero_div] at h1
    exact absurd h1 (by norm_num)
  have hu2 : u ≤ 2 ^ (F64.unitExp + 1 + 6) := by
    rw [div_le_iff₀ (by positivity)] at hu64
    have hpow : (2 : ℝ) ^ (F64.unitExp + 1 + 6) = 64 * 2 ^ (F64.unitExp + 1) := by rw [pow_add, mul_comm]; norm_num
    rw [← hpow] at hu64
    exact_mod_cast hu64
  have hexp : F64.unitExp + 1 = 1075 := by rw [unitExp_eq]
  rw [hexp] at hu2 ⊢
  rw [toRat_cast_real, unitExp_eq] at hlog ⊢
  exact log_dyadic_separation u _ hu hu2 ha (hlog.trans (by norm_num))

/-- Where the bounds round to different numbers, a positive multiple of half a unit lies between them. -/
theorem exists_half_unit_between_bounds {a : F64} (h1 : 1 < F64.toRat a) (h2 : F64.toRat a ≤ 2 ^ 32) {n : Nat}
    (hn : n ≠ 0) (hne : lnSettled a n = false) :
    ∃ u : Nat, u ≠ 0 ∧ (lnLower a n).toRat ≤ (u : ℚ) / 2 ^ (F64.unitExp + 1) ∧
      (u : ℚ) / 2 ^ (F64.unitExp + 1) ≤ (lnUpper a n).toRat := by
  have hl := lnLower_den_pos a n
  have hu := lnUpper_den_pos a n
  have hle : (lnLower a n).toRat ≤ (lnUpper a n).toRat := by
    exact_mod_cast (log_mem_bounds h1.le n).1.trans (log_mem_bounds h1.le n).2
  obtain ⟨c, hlower, hupper⟩ := exists_half_unit_between hl hu ((num_mul_le_iff hl hu).mpr hle)
    (f64_lnLower_le h1.le h2 n).1 (f64_le_sixtyFour hu (lnUpper_le h1.le h2 hn)).1 (by simpa [lnSettled] using hne)
  have hlc : (lnLower a n).toRat ≤ (c : ℚ) / 2 ^ (F64.unitExp + 1) := by
    rw [Ratio.toRat, div_le_div_iff₀ (Nat.cast_pos.mpr hl) (by positivity), pow_succ', mul_left_comm]
    exact_mod_cast hlower
  refine ⟨c, ?_, hlc, ?_⟩
  · rintro rfl
    rw [Nat.cast_zero, zero_div] at hlc
    exact absurd ((lnLower_pos h1 n hn).trans hlc) (by norm_num)
  · rw [Ratio.toRat, div_le_div_iff₀ (by positivity) (Nat.cast_pos.mpr hu), pow_succ', mul_left_comm]
    exact_mod_cast hupper

/-- Such a multiple is as near to the logarithm as the bounds are to each other. -/
theorem exists_half_unit_near_log {a : F64} (h1 : 1 < F64.toRat a) (h2 : F64.toRat a ≤ 2 ^ 32) {n : Nat}
    (hn : n ≠ 0) (hne : lnSettled a n = false) :
    ∃ u : Nat, u ≠ 0 ∧ (u : ℝ) / 2 ^ (F64.unitExp + 1) ≤ 64 ∧
      |Real.log (F64.toRat a : ℝ) - (u : ℝ) / 2 ^ (F64.unitExp + 1)| ≤ 33 * (1 / 9) ^ n := by
  obtain ⟨u, hu, hlower, hupper⟩ := exists_half_unit_between_bounds h1 h2 hn hne
  obtain ⟨hlo, hhi⟩ := log_mem_bounds h1.le n
  have hgap := Rat.cast_le (K := ℝ).mpr (lnUpper_le_lnLower_add h1.le h2 n)
  have hmax := Rat.cast_le (K := ℝ).mpr (hupper.trans (lnUpper_le h1.le h2 hn))
  have hlower := Rat.cast_le (K := ℝ).mpr hlower
  have hupper := Rat.cast_le (K := ℝ).mpr hupper
  push_cast at hgap hmax hlower hupper
  exact ⟨u, hu, hmax, abs_le.mpr ⟨by linarith, by linarith⟩⟩

/-- With `2^4416` terms the bounds are nearer to each other than the logarithm is to a multiple of half a unit. -/
theorem lnSettled_of_two_pow {a : F64} {k : Nat} (hk : k = 4400 + 16) (h1 : 1 < F64.toRat a)
    (h2 : F64.toRat a ≤ 2 ^ 32) : lnSettled a (2 ^ k) = true := by
  by_contra hns
  obtain ⟨u, hu, hu64, hnear⟩ := exists_half_unit_near_log h1 h2 (Nat.two_pow_pos k).ne' (by simpa using hns)
  have hsep := log_separation h1.le h2 hu hu64
  rw [← hk] at hsep
  have hn : 2 ^ 2 ≤ 2 ^ k := Nat.pow_le_pow_right two_pos (by omega)
  generalize 2 ^ k = n at hsep hnear hn
  have hsmall : ((1 : ℝ) / 9) ^ n * 2 ^ n ≤ (2 / 9) ^ 2 ^ 2 := by
    rw [← mul_pow, show (1 : ℝ) / 9 * 2 = 2 / 9 by norm_num]
    exact pow_le_pow_of_le_one (by norm_num) (by norm_num) hn
  have hbound : 1 ≤ 33 * ((1 : ℝ) / 9) ^ n * 2 ^ n := hsep.trans (mul_le_mul_of_nonneg_right hnear (by positivity))
  rw [mul_assoc] at hbound
  norm_num at hsmall
  linarith

/-- On `(1, 2^32]` the search answers the number to which both its bounds round. -/
theorem exists_ln64_eq {a : F64} (h1 : 1 < F64.toRat a) (h2 : F64.toRat a ≤ 2 ^ 32) :
    ∃ n, ln64 a = f64 (lnLower a n) ∧ ln64 a = f64 (lnUpper a n) := by
  have hsettled : ∃ j < lnDoublings, lnSettled a (lnFirstTerms * 2 ^ j) = true := by
    refine ⟨4411, by unfold lnDoublings; norm_num, ?_⟩
    rw [show lnFirstTerms = 2 ^ 5 from rfl, ← pow_add]
    exact lnSettled_of_two_pow rfl h1 h2
  obtain ⟨j, hj, hanswer⟩ := lnSearch_settled a lnDoublings lnFirstTerms hsettled
  exact ⟨_, hanswer, hanswer.trans (by simpa [lnSettled] using hj)⟩

/-! ## The logarithm of 1 -/

theorem toRat_one : F64.toRat 0x3FF0000000000000 = 1 := by
  have hunits : F64.units 0x3FF0000000000000 = 2 ^ F64.unitExp := by decide +kernel
  rw [toRat_eq, hunits, Nat.cast_pow, Nat.cast_ofNat, div_self unit_pos.ne']

theorem finite_one : F64.finite 0x3FF0000000000000 := by
  unfold F64.finite
  decide

theorem toRat_zero : F64.toRat 0 = 0 := by
  rw [toRat_eq, show F64.units 0 = 0 by decide, Nat.cast_zero, zero_div]

theorem f64_eq_zero {r : Ratio} (h : 0 < r.den) (h0 : r.toRat = 0) : f64 r = 0 :=
  (f64_congr (q := ⟨0, 1⟩) h Nat.one_pos (h0.trans (by simp [Ratio.toRat]))).trans (by decide +kernel)

theorem ln64_one : ln64 0x3FF0000000000000 = 0 := by
  obtain ⟨j, hj⟩ := lnSearch_eq 0x3FF0000000000000 lnDoublings lnFirstTerms
  refine hj.trans (f64_eq_zero (lnLower_den_pos _ _) ?_)
  have hb : F64.binade 0x3FF0000000000000 = 0 := by decide
  have hf : F64.fraction 0x3FF0000000000000 = 0 := by decide
  rw [toRat_lnLower, hb, hf, toRat_twoAtanhLower 0 (by norm_num)]
  simp

theorem eq_one_of_toRat {a : F64} (ha : F64.finite a) (h : F64.toRat a = 1) : a = 0x3FF0000000000000 :=
  toRat_injective ha finite_one (h.trans toRat_one.symm)

/-! ## The size of the result -/

/-- Above 1, the result is at least `2^-53` and at most 64, settled or not. -/
theorem ln64_bounds {a : F64} (h1 : 1 < F64.toRat a) (h2 : F64.toRat a ≤ 2 ^ 32) :
    F64.finite (ln64 a) ∧ 1 / 2 ^ 53 ≤ F64.toRat (ln64 a) ∧ F64.toRat (ln64 a) ≤ 64 := by
  obtain ⟨j, hj⟩ := lnSearch_eq a lnDoublings lnFirstTerms
  have hanswer : ln64 a = f64 (lnLower a (lnFirstTerms * 2 ^ j)) := hj
  have hn : lnFirstTerms * 2 ^ j ≠ 0 := Nat.mul_ne_zero (by decide) (Nat.two_pow_pos j).ne'
  obtain ⟨hfinite, hle⟩ := f64_lnLower_le h1.le h2 (lnFirstTerms * 2 ^ j)
  obtain ⟨hf, hv⟩ := toRat_f64_two_pow_div (p := 0) (k := 53) (by norm_num) (by norm_num)
  rw [pow_zero] at hv
  rw [hanswer]
  exact ⟨hfinite, hv ▸ le_f64 (lnLower_den_pos a _) hf hfinite (hv.trans_le (lnLower_pos h1 _ hn)), hle⟩

theorem ln64_finite {a : F64} (ha : F64.finite a) (h1 : 1 ≤ F64.toRat a) (h2 : F64.toRat a ≤ 2 ^ 32) :
    F64.finite (ln64 a) := by
  rcases h1.eq_or_lt with h | h
  · rw [eq_one_of_toRat ha h.symm, ln64_one]
    unfold F64.finite
    decide
  · exact (ln64_bounds h h2).1

/-! ## Correct rounding -/

/-- The logarithm of a number above 1 is irrational, so it is no middle of two numbers. -/
theorem two_mul_log_ne {a : F64} (h1 : 1 < F64.toRat a) (b c : F64) :
    2 * Real.log (F64.toRat a : ℝ) ≠ F64.toRat b + F64.toRat c := by
  have hlt : 2 ^ F64.unitExp < F64.units a := by
    rw [toRat_eq, one_lt_div unit_pos] at h1
    exact_mod_cast h1
  have hne := log_ne_ratio (F64.units a) (2 ^ F64.unitExp) (F64.units b + F64.units c) (2 * 2 ^ F64.unitExp)
    (Nat.two_pow_pos _).ne' (Nat.mul_ne_zero two_ne_zero (Nat.two_pow_pos _).ne') hlt
  have hpos : (0 : ℝ) < 2 ^ F64.unitExp := by positivity
  intro heq
  refine hne ?_
  push_cast
  rw [← toRat_cast_real, eq_div_iff (by positivity), ← mul_assoc, mul_comm _ (2 : ℝ), heq, toRat_cast_real,
    toRat_cast_real, ← add_div, div_mul_cancel₀ _ hpos.ne']

/-- The logarithm lies below the middle of the result and a greater number. -/
theorem log_lt_middle {a c : F64} (ha : F64.finite a) (h1 : 1 ≤ F64.toRat a) (h2 : F64.toRat a ≤ 2 ^ 32)
    (hc : F64.toRat (ln64 a) < F64.toRat c) :
    2 * Real.log (F64.toRat a : ℝ) < F64.toRat (ln64 a) + F64.toRat c := by
  rcases h1.eq_or_lt with h | h
  · rw [eq_one_of_toRat ha h.symm, ln64_one, toRat_zero] at hc ⊢
    rw [toRat_one, Rat.cast_one, Real.log_one, mul_zero, Rat.cast_zero, zero_add]
    exact_mod_cast hc
  · obtain ⟨n, -, hn⟩ := exists_ln64_eq h h2
    have hfinite := ln64_finite ha h1 h2
    rw [hn] at hc hfinite
    have hmiddle : (2 : ℝ) * (lnUpper a n).toRat ≤ F64.toRat (f64 (lnUpper a n)) + F64.toRat c := by
      exact_mod_cast toRat_le_middle (lnUpper_den_pos a n) hfinite hc
    rw [← hn] at hmiddle
    exact lt_of_le_of_ne (by linarith [(log_mem_bounds h1 n).2]) (two_mul_log_ne h _ _)

/-- The logarithm lies above the middle of the result and a smaller number. -/
theorem middle_lt_log {a c : F64} (ha : F64.finite a) (h1 : 1 ≤ F64.toRat a) (h2 : F64.toRat a ≤ 2 ^ 32)
    (hc : F64.toRat c < F64.toRat (ln64 a)) :
    F64.toRat (ln64 a) + F64.toRat c < 2 * Real.log (F64.toRat a : ℝ) := by
  rcases h1.eq_or_lt with h | h
  · rw [eq_one_of_toRat ha h.symm, ln64_one, toRat_zero] at hc
    exact absurd (toRat_nonneg c) (not_le.mpr hc)
  · obtain ⟨n, hn, -⟩ := exists_ln64_eq h h2
    have hfinite := ln64_finite ha h1 h2
    rw [hn] at hc hfinite
    have hmiddle : (F64.toRat (f64 (lnLower a n)) + F64.toRat c : ℝ) ≤ 2 * (lnLower a n).toRat := by
      exact_mod_cast middle_le_toRat (lnLower_den_pos a n) hfinite hc
    rw [← hn] at hmiddle
    exact lt_of_le_of_ne (by linarith [(log_mem_bounds h1 n).1]) (two_mul_log_ne h _ _).symm

/-- The result is strictly the nearest binary64 number. -/
theorem ln64_nearest {a c : F64} (ha : F64.finite a) (h1 : 1 ≤ F64.toRat a) (h2 : F64.toRat a ≤ 2 ^ 32)
    (hc : F64.finite c) (hne : c ≠ ln64 a) :
    |(F64.toRat (ln64 a) : ℝ) - Real.log (F64.toRat a : ℝ)| <
      |(F64.toRat c : ℝ) - Real.log (F64.toRat a : ℝ)| := by
  have hdistinct : F64.toRat c ≠ F64.toRat (ln64 a) := fun h => hne (toRat_injective hc (ln64_finite ha h1 h2) h)
  rcases hdistinct.lt_or_gt with hlt | hgt
  · have hmiddle := middle_lt_log ha h1 h2 hlt
    have hlt : (F64.toRat c : ℝ) < F64.toRat (ln64 a) := by exact_mod_cast hlt
    rw [abs_of_neg (a := (F64.toRat c : ℝ) - _) (by linarith), abs_lt]
    constructor <;> linarith
  · have hmiddle := log_lt_middle ha h1 h2 hgt
    have hgt : (F64.toRat (ln64 a) : ℝ) < F64.toRat c := by exact_mod_cast hgt
    rw [abs_of_pos (a := (F64.toRat c : ℝ) - _) (by linarith), abs_lt]
    constructor <;> linarith

/-- If the results decreased, the middle of the two would lie below the smaller logarithm and above the greater. -/
theorem ln64_mono {a b : F64} (ha : F64.finite a) (hb : F64.finite b) (h1 : 1 ≤ F64.toRat a)
    (hab : F64.toRat a ≤ F64.toRat b) (h2 : F64.toRat b ≤ 2 ^ 32) : F64.toRat (ln64 a) ≤ F64.toRat (ln64 b) := by
  by_contra hlt
  have hlt := not_le.mp hlt
  have hbelow := middle_lt_log ha h1 (hab.trans h2) hlt
  have habove := log_lt_middle hb (h1.trans hab) h2 hlt
  have hpos : (0 : ℝ) < F64.toRat a := by exact_mod_cast zero_lt_one.trans_le h1
  have hlog : Real.log (F64.toRat a : ℝ) ≤ Real.log (F64.toRat b : ℝ) :=
    Real.log_le_log hpos (by exact_mod_cast hab)
  linarith

/-- Settles O53: the search settles for every argument above 1, and at 1 every bound is 0. -/
theorem logIsCorrectlyRounded : Obligations.LogIsCorrectlyRounded := by
  refine ⟨fun a ha h1 h2 => ⟨ln64_finite ha h1 h2, fun c => ln64_nearest ha h1 h2, fun h => ?_,
    fun b hb hab hb2 => ln64_mono ha hb h1 hab hb2⟩, ln64_one⟩
  exact lt_of_lt_of_le (by positivity) (ln64_bounds h h2).2.1

end Sys2Proof.Laws
end

section
/-! SUPPORT. Proofs about ESTIMATE: what the command reads and leaves, the harmonic sum and the zero count, the raw
estimate, linear counting, and the fresh sketch (spec/42_estimate.md R141 to R152). -/

namespace Sys2Proof.Machine

open Laws

/-! ## The sums over the register array (R142, R148) -/

theorem harmonicFx_eq_sum (p : Nat) (m : Memory) :
    harmonicFx p m = ∑ j ∈ Finset.range (2 ^ p), 2 ^ (32 - (Memory.read m j).toNat) := by
  rw [harmonicFx, sumPow2_eq_sum]
  simp only [Nat.zero_add]

theorem zeroCount_eq_card (p : Nat) (m : Memory) :
    zeroCount p m = ((Finset.range (2 ^ p)).filter (fun j => Memory.read m j = 0)).card := by
  rw [zeroCount, sumPow2_eq_sum, Finset.card_filter]
  simp only [Nat.zero_add]

theorem zeroCount_le (p : Nat) (m : Memory) : zeroCount p m ≤ 2 ^ p := by
  rw [zeroCount_eq_card]
  exact (Finset.card_filter_le _ _).trans_eq (Finset.card_range _)

/-- Settles O43: halving the range does not change the sum of ones, which is a cardinality. -/
theorem zeroCountIsExact : Obligations.ZeroCountIsExact := fun _ => ⟨zeroCount_eq_card _ _, zeroCount_le _ _⟩

theorem harmonic_term_bounds (m : Memory) (j : Nat) :
    1 ≤ 2 ^ (32 - (Memory.read m j).toNat) ∧ 2 ^ (32 - (Memory.read m j).toNat) ≤ 2 ^ 32 :=
  ⟨Nat.one_le_two_pow, Nat.pow_le_pow_right two_pos (Nat.sub_le ..)⟩

theorem harmonicFx_bounds (p : Nat) (m : Memory) : 2 ^ p ≤ harmonicFx p m ∧ harmonicFx p m ≤ 2 ^ p * 2 ^ 32 := by
  have hlower := Finset.card_nsmul_le_sum (Finset.range (2 ^ p)) _ 1 fun j _ => (harmonic_term_bounds m j).1
  have hupper := Finset.sum_le_card_nsmul (Finset.range (2 ^ p)) _ (2 ^ 32) fun j _ => (harmonic_term_bounds m j).2
  rw [Finset.card_range, smul_eq_mul, mul_one] at hlower
  rw [Finset.card_range, smul_eq_mul] at hupper
  rw [harmonicFx_eq_sum]
  exact ⟨hlower, hupper⟩

theorem toRat_harmonicRatio (p : Nat) (m : Memory) :
    (Ratio.mk (harmonicFx p m) (2 ^ 32)).toRat = (harmonicFx p m : ℚ) / 2 ^ 32 := by
  rw [Ratio.toRat, Nat.cast_pow, Nat.cast_ofNat]

theorem legalEntry_le {p : Nat} {e : Entry} (h : legalEntry p e) : e.toNat ≤ 32 := by
  rcases h with h | h <;> omega

/-- With entries of at most 32 the sum is `2^32` times that of the negative powers. -/
theorem harmonicFx_div (p : Nat) (m : Memory) (h : ∀ j < 2 ^ p, (Memory.read m j).toNat ≤ 32) :
    (harmonicFx p m : ℚ) / 2 ^ 32 = ∑ j ∈ Finset.range (2 ^ p), (1 : ℚ) / 2 ^ (Memory.read m j).toNat := by
  rw [harmonicFx_eq_sum, Nat.cast_sum, Finset.sum_div]
  refine Finset.sum_congr rfl fun j hj => ?_
  have hle := h j (Finset.mem_range.mp hj)
  rw [Nat.cast_pow, Nat.cast_ofNat, div_eq_div_iff (by positivity) (by positivity), one_mul, ← pow_add,
    Nat.sub_add_cancel hle]

/-- Settles O38: the bounds are those of `2^p` terms, each between 1 and `2^32`. -/
theorem harmonicSumIsExact : Obligations.HarmonicSumIsExact := by
  intro s hinv hconfigured
  obtain ⟨hlower, hupper⟩ := harmonicFx_bounds s.cfg.precision s.mem
  refine ⟨harmonicFx_eq_sum _ _, harmonicFx_div _ _ fun j hj => legalEntry_le (hinv.entries hconfigured j hj),
    fun j _ => harmonic_term_bounds s.mem j, hlower, hupper, hupper.trans_lt ?_⟩
  rw [← Nat.pow_add]
  exact Nat.pow_lt_pow_right one_lt_two (by omega)

/-! ## The command (R141) -/

theorem exec_estimate_of_configured {s : State} (h : s.cfg.configured = true) :
    exec .estimate s = .next { s with rspPending := some ⟨.ok, estimateBits s.cfg s.mem⟩, inFlight := none } :=
  withSketch_of_configured h

/-- The estimate reads the array only below `m`. -/
theorem estimateBits_congr (c : Cfg) {m n : Memory} (h : ∀ j < c.m, Memory.read m j = Memory.read n j) :
    estimateBits c m = estimateBits c n := by
  have hread (j : Nat) (hj : j < 0 + 2 ^ c.precision) : Memory.read m j = Memory.read n j :=
    h j (by rwa [Nat.zero_add] at hj)
  have hharmonic : harmonicFx c.precision m = harmonicFx c.precision n :=
    sumPow2_congr fun j _ hj => by rw [hread j hj]
  have hzero : zeroCount c.precision m = zeroCount c.precision n :=
    sumPow2_congr fun j _ hj => by rw [hread j hj]
  have hraw : rawEstimate c m = rawEstimate c n := by rw [rawEstimate, harmonic64, hharmonic, rawEstimate, harmonic64]
  rw [estimateBits, hraw, hzero, estimateBits]

/-- The commands that are neither INIT nor OBSERVE. -/
def ReadsOnly (i : Instr) : Prop := i = .estimate ∨ (∃ j, i = .readReg j) ∨ ∃ sel, i = .info sel

theorem exec_of_readsOnly {i : Instr} (hi : ReadsOnly i) (s : State) :
    ∃ t, exec i s = .next t ∧ t.cfg = s.cfg ∧ t.mem = s.mem := by
  obtain ⟨t, -, ht, -, -, -, -, -, -, change⟩ := exec_next i s
  cases change with
  | unchanged cfg mem => exact ⟨t, ht, cfg, mem⟩
  | constructed p isInit => subst isInit; simp [ReadsOnly] at hi
  | updated x isObserve => subst isObserve; simp [ReadsOnly] at hi

theorem execAll_of_readsOnly {is : List Instr} (his : ∀ i ∈ is, ReadsOnly i) (s : State) :
    ∃ t, execAll is s = .next t ∧ t.cfg = s.cfg ∧ t.mem = s.mem := by
  induction is generalizing s with
  | nil => exact ⟨s, rfl, rfl, rfl⟩
  | cons i is ih =>
    obtain ⟨hi, his⟩ := List.forall_mem_cons.mp his
    obtain ⟨u, hu, hcfg, hmem⟩ := exec_of_readsOnly hi s
    obtain ⟨t, ht, hcfg', hmem'⟩ := ih his u
    exact ⟨t, (execAll_cons_of_next hu is).trans ht, hcfg'.trans hcfg, hmem'.trans hmem⟩

/-- Settles O37: commands that only read leave the sketch, which is all that a second ESTIMATE reads. -/
theorem estimateReadsTheSketch : Obligations.EstimateReadsTheSketch := by
  intro s hconfigured
  refine ⟨⟨_, exec_estimate_of_configured hconfigured, rfl, rfl, rfl, rfl, rfl, rfl, rfl, fun is his => ?_⟩,
    fun _ => estimateBits_congr s.cfg⟩
  obtain ⟨u, hu, hcfg, hmem⟩ := execAll_of_readsOnly his
    { s with rspPending := some ⟨.ok, estimateBits s.cfg s.mem⟩, inFlight := none }
  refine ⟨u, _, hu, exec_estimate_of_configured (hcfg ▸ hconfigured), ?_⟩
  rw [hcfg, hmem]

/-! ## The configuration of a sketch (R103, R104) -/

/-- A configuration that INIT constructs. -/
structure Cfg.Constructed (c : Cfg) : Prop where
  one_le : 1 ≤ c.precision
  le : c.precision ≤ 32
  alpha : c.alpha = alphaOf c.precision
  thresh : c.thresh = thresholdOf c.precision

theorem State.Inv.constructed {s : State} (h : s.Inv) (hconfigured : s.cfg.configured = true) :
    s.cfg.Constructed := by
  obtain ⟨hone, hmax⟩ := h.precision hconfigured
  obtain ⟨halpha, hthresh⟩ := h.constants hconfigured
  exact ⟨hone, hmax.trans (pMax_le _), halpha, hthresh⟩

theorem construct_constructed {b : Config.Build} {p : Operand} (h1 : 1 ≤ p.toNat) (h2 : p.toNat ≤ b.pMax) :
    (Cfg.construct p).Constructed := by
  have hp := construct_precision h2
  exact ⟨hp ▸ h1, hp ▸ h2.trans (pMax_le b), by rw [hp]; rfl, by rw [hp]; rfl⟩

theorem cast_m (c : Cfg) : (c.m : ℚ) = 2 ^ c.precision := by rw [Cfg.m, Nat.cast_pow, Nat.cast_ofNat]

/-- Every alpha has sign 0 and the exponent of a number in `[1/2, 1)`. -/
theorem alphaOf_toNat_div : ∀ p < 33, (alphaOf p).toNat / 2 ^ 52 = 1022 := by decide +kernel

section
variable {c : Cfg} (hc : c.Constructed)
include hc

theorem alpha_toNat_div : c.alpha.toNat / 2 ^ 52 = 1022 := by
  rw [hc.alpha]
  exact alphaOf_toNat_div _ (Nat.lt_succ_of_le hc.le)

theorem alpha_finite : F64.finite c.alpha := by
  have h := alpha_toNat_div hc
  unfold F64.finite F64.infinityBits
  omega

theorem alpha_exponent : c.alpha.exponent = 1022 := by
  have h := alpha_toNat_div hc
  unfold F64.exponent
  omega

theorem alpha_bounds : 1 / 2 ≤ F64.toRat c.alpha ∧ F64.toRat c.alpha < 1 := by
  have hexponent := alpha_exponent hc
  have hlower := le_units (a := c.alpha) (by omega)
  have hupper := units_lt c.alpha
  rw [hexponent, show 51 + 1022 = F64.unitExp - 1 by rw [unitExp_eq]] at hlower
  rw [hexponent, show 52 + 1022 = F64.unitExp by rw [unitExp_eq]] at hupper
  have hhalf : 2 ^ F64.unitExp ≤ F64.units c.alpha * 2 := by
    rw [← Nat.sub_add_cancel (show 1 ≤ F64.unitExp by rw [unitExp_eq]; norm_num), Nat.pow_succ]
    exact Nat.mul_le_mul_right 2 hlower
  rw [toRat_eq, div_le_div_iff₀ two_pos unit_pos, div_lt_one unit_pos, one_mul]
  exact ⟨by exact_mod_cast hhalf, by exact_mod_cast hupper⟩

theorem toRat_f64OfNat_m : F64.finite (f64OfNat c.m) ∧ F64.toRat (f64OfNat c.m) = c.m := by
  rw [cast_m]
  exact toRat_f64OfNat_two_pow (hc.le.trans (by norm_num))

theorem two_le_m : (2 : ℚ) ≤ c.m := by
  rw [cast_m]
  exact le_self_pow₀ one_le_two (Nat.one_le_iff_ne_zero.mp hc.one_le)

/-! ## The numerator (R144) -/

/-- The first product is exact; its exponent is that of alpha with `p` added. -/
theorem alpha_mul_m :
    F64.finite (fmul c.alpha (f64OfNat c.m)) ∧ F64.toRat (fmul c.alpha (f64OfNat c.m)) = F64.toRat c.alpha * c.m ∧
      (fmul c.alpha (f64OfNat c.m)).exponent = 1022 + c.precision := by
  have hp := hc.le
  have hexponent := alpha_exponent hc
  have hm : F64.toRat (f64OfNat c.m) = 2 ^ c.precision := (toRat_f64OfNat_m hc).2.trans (cast_m c)
  obtain ⟨hfinite, hvalue⟩ := toRat_fmul_two_pow (alpha_finite hc) (hp.trans (by norm_num)) (by omega) hm
  have hbits := toNat_fmul_two_pow (alpha_finite hc) (by omega) (hp.trans (by norm_num)) (by omega) hm
  have halpha := alpha_toNat_div hc
  refine ⟨hfinite, hvalue.trans (by rw [cast_m]), ?_⟩
  rw [F64.exponent, hbits]
  omega

/-- The product by a further power of two is exact. -/
theorem alpha_mul_m_mul_two_pow {k : Nat} (hk : k ≤ 64) :
    F64.finite (fmul (fmul c.alpha (f64OfNat c.m)) (f64OfNat (2 ^ k))) ∧
      F64.toRat (fmul (fmul c.alpha (f64OfNat c.m)) (f64OfNat (2 ^ k))) = F64.toRat c.alpha * c.m * 2 ^ k := by
  obtain ⟨hfinite, hvalue, hexponent⟩ := alpha_mul_m hc
  have hp := hc.le
  rw [← hvalue]
  exact toRat_fmul_two_pow hfinite hk (by omega) (toRat_f64OfNat_two_pow hk).2

theorem toRat_numerator : F64.toRat (numerator c) = F64.toRat c.alpha * c.m * c.m := by
  refine (alpha_mul_m_mul_two_pow hc (hc.le.trans (by norm_num))).2.trans ?_
  rw [cast_m]

/-! ## The rounded harmonic sum (R143, R146) -/

theorem harmonic64_bounds (m : Memory) :
    F64.finite (harmonic64 c.precision m) ∧ c.m / 2 ^ 32 ≤ F64.toRat (harmonic64 c.precision m) ∧
      F64.toRat (harmonic64 c.precision m) ≤ c.m := by
  obtain ⟨hlower, hupper⟩ := harmonicFx_bounds c.precision m
  obtain ⟨hlo, hlov⟩ := toRat_f64_two_pow_div (p := c.precision) (k := 32) (hc.le.trans (by norm_num)) (by norm_num)
  obtain ⟨hhi, hhiv⟩ := toRat_f64OfNat_m hc
  rw [← cast_m] at hlov
  rw [← hlov, ← hhiv]
  have hvalue := toRat_harmonicRatio c.precision m
  refine f64_between (Nat.two_pow_pos 32) hlo hhi ?_ ?_
  · rw [hlov, hvalue]
    gcongr
    exact hlower
  · rw [hhiv, hvalue, div_le_iff₀ (by positivity)]
    exact_mod_cast hupper

theorem harmonic64_pos (m : Memory) : 0 < F64.toRat (harmonic64 c.precision m) := by
  have hm := two_le_m hc
  exact lt_of_lt_of_le (by positivity) (harmonic64_bounds hc m).2.1

end

theorem harmonic64_exact {p : Nat} (hp : p ≤ 20) (m : Memory) :
    F64.toRat (harmonic64 p m) = (harmonicFx p m : ℚ) / 2 ^ 32 := by
  have hvalue := toRat_harmonicRatio p m
  have hlt : harmonicFx p m < 2 ^ 53 := by
    calc harmonicFx p m ≤ 2 ^ p * 2 ^ 32 := (harmonicFx_bounds p m).2
      _ = 2 ^ (p + 32) := (Nat.pow_add ..).symm
      _ < 2 ^ 53 := Nat.pow_lt_pow_right one_lt_two (by omega)
  have hexp : F64.unitExp = F64.unitExp - 32 + 32 := by rw [unitExp_eq]
  refine (toRat_f64 (e := F64.unitExp - 32) (Nat.two_pow_pos 32) hlt (by rw [unitExp_eq]; norm_num) ?_).2.trans hvalue
  rw [hvalue, div_mul_eq_mul_div, div_eq_iff (by positivity), mul_assoc, ← pow_add, ← hexp]

/-- Settles O40: both factors are powers of two, and the exponents stay in range. -/
theorem numeratorIsExact : Obligations.NumeratorIsExact := by
  intro s hinv hconfigured
  have hc := hinv.constructed hconfigured
  exact ⟨(alpha_mul_m hc).2.1, toRat_numerator hc⟩

/-! ## The raw estimate (R145, R147) -/

/-- Settles O41: up to `p = 20` both the numerator and the harmonic sum are exact, so the second quotient is the
first. -/
theorem rawEstimateIsRoundedOnce : Obligations.RawEstimateIsRoundedOnce := by
  intro s r hinv hconfigured hr
  have hc := hinv.constructed hconfigured
  have hquotient (h : r.toRat = F64.toRat (numerator s.cfg) / F64.toRat (harmonic64 s.cfg.precision s.mem)) :
      rawEstimate s.cfg s.mem = f64 r :=
    fdiv_eq_f64 (harmonic64_pos hc s.mem) hr h
  refine ⟨hquotient, fun hp h => hquotient (h.trans ?_)⟩
  rw [toRat_numerator hc, harmonic64_exact hp, sq, mul_assoc]

section
variable {c : Cfg} (hc : c.Constructed) (m : Memory)
include hc

/-- The bounds of the quotient are those of the harmonic sum, and binary64 numbers. -/
theorem rawEstimate_bounds :
    F64.finite (rawEstimate c m) ∧ F64.toRat c.alpha * c.m ≤ F64.toRat (rawEstimate c m) ∧
      F64.toRat (rawEstimate c m) ≤ F64.toRat c.alpha * c.m * 2 ^ 32 := by
  obtain ⟨-, hlower, hupper⟩ := harmonic64_bounds hc m
  have hpos := harmonic64_pos hc m
  have hm := two_le_m hc
  obtain ⟨hlo, hlov, -⟩ := alpha_mul_m hc
  obtain ⟨hhi, hhiv⟩ := alpha_mul_m_mul_two_pow hc (k := 32) (by norm_num)
  have halpha : 0 ≤ F64.toRat c.alpha * c.m := mul_nonneg (toRat_nonneg _) (Nat.cast_nonneg _)
  rw [← hhiv, ← hlov]
  refine fdiv_between hpos hlo hhi ?_ ?_
  · rw [toRat_numerator hc, hlov, le_div_iff₀ hpos]
    exact mul_le_mul_of_nonneg_left hupper halpha
  · rw [toRat_numerator hc, hhiv, div_le_iff₀ hpos, mul_assoc _ (2 ^ 32 : ℚ)]
    refine mul_le_mul_of_nonneg_left ?_ halpha
    rwa [div_le_iff₀' (by positivity)] at hlower

theorem rawEstimate_positiveNormal : F64.positiveNormal (rawEstimate c m) := by
  obtain ⟨hfinite, hlower, -⟩ := rawEstimate_bounds hc m
  refine positiveNormal_of_le hfinite (le_trans ?_ hlower)
  calc (1 : ℚ) / 2 ^ 53 ≤ 1 / 2 * 2 := by norm_num
    _ ≤ F64.toRat c.alpha * c.m := mul_le_mul (alpha_bounds hc).1 (two_le_m hc) two_pos.le (toRat_nonneg _)

end

/-! ## Linear counting (R149, R151) -/

theorem fmul_zero (a : F64) : fmul a 0 = 0 :=
  f64_eq_zero (Nat.mul_pos (den_value_pos _) (den_value_pos _)) (by rw [toRat_value_mul, toRat_zero, mul_zero])

theorem exponent_lt_of_le_sixtyFour {a : F64} (h : F64.toRat a ≤ 64) : a.exponent < 1030 := by
  have hle : F64.units a ≤ 2 ^ 6 * 2 ^ F64.unitExp := by
    rw [toRat_eq, div_le_iff₀ unit_pos] at h
    exact_mod_cast h
  rw [← Nat.pow_add] at hle
  by_contra hge
  have hexp := (Nat.pow_le_pow_iff_right one_lt_two).mp ((le_units (a := a) (by omega)).trans hle)
  rw [unitExp_eq] at hexp
  omega

section
variable {p v : Nat} (hp : p ≤ 32) (hv : 0 < v) (hle : v ≤ 2 ^ p)
include hp hv hle

/-- The argument of the logarithm lies in `[1, m]`. -/
theorem linearCount_quotient_bounds :
    F64.finite (fdiv (f64OfNat (2 ^ p)) (f64OfNat v)) ∧ 1 ≤ F64.toRat (fdiv (f64OfNat (2 ^ p)) (f64OfNat v)) ∧
      F64.toRat (fdiv (f64OfNat (2 ^ p)) (f64OfNat v)) ≤ 2 ^ p := by
  obtain ⟨hm, hmv⟩ := toRat_f64OfNat_two_pow (p := p) (hp.trans (by norm_num))
  have hv53 : v < 2 ^ 53 := lt_of_le_of_lt hle (Nat.pow_lt_pow_right one_lt_two (by omega))
  have hvalue : F64.toRat (f64OfNat v) = v := (toRat_f64OfNat hv53).2
  have hone : (1 : ℚ) ≤ v := by exact_mod_cast hv
  have hvm : (v : ℚ) ≤ 2 ^ p := by exact_mod_cast hle
  have hpos : 0 < F64.toRat (f64OfNat v) := by rw [hvalue]; linarith
  rw [← hmv, ← toRat_one]
  refine fdiv_between hpos finite_one hm ?_ ?_
  · rw [toRat_one, hmv, hvalue, one_le_div (by linarith)]
    exact hvm
  · rw [hmv, hvalue]
    exact div_le_self (by positivity) hone

theorem linearCount_eq_zero_or_positiveNormal :
    linearCount (2 ^ p) v = 0 ∨ F64.positiveNormal (linearCount (2 ^ p) v) := by
  obtain ⟨hm, hmv⟩ := toRat_f64OfNat_two_pow (p := p) (hp.trans (by norm_num))
  obtain ⟨hfinite, hone, hmax⟩ := linearCount_quotient_bounds hp hv hle
  rw [linearCount]
  generalize fdiv (f64OfNat (2 ^ p)) (f64OfNat v) = a at hfinite hone hmax
  rcases hone.eq_or_lt with h | h
  · left
    rw [eq_one_of_toRat hfinite h.symm, ln64_one, fmul_zero]
  · right
    have h32 : F64.toRat a ≤ 2 ^ 32 := hmax.trans (pow_le_pow_right₀ one_le_two hp)
    obtain ⟨hln, hlower, hupper⟩ := ln64_bounds h h32
    have hexponent := exponent_lt_of_le_sixtyFour hupper
    rw [fmul_comm]
    obtain ⟨hproduct, hvalue⟩ := toRat_fmul_two_pow hln (hp.trans (by norm_num)) (by omega) hmv
    refine positiveNormal_of_le hproduct (hlower.trans ?_)
    rw [hvalue]
    exact le_mul_of_one_le_right (toRat_nonneg _) (one_le_pow₀ one_le_two)

end

theorem estimateBits_eq_zero_or_positiveNormal {c : Cfg} (hc : c.Constructed) (m : Memory) :
    estimateBits c m = 0 ∨ F64.positiveNormal (estimateBits c m) := by
  unfold estimateBits
  split
  · next h =>
    rw [Bool.and_eq_true, decide_eq_true_iff] at h
    exact linearCount_eq_zero_or_positiveNormal hc.le h.2 (zeroCount_le _ _)
  · exact .inr (rawEstimate_positiveNormal hc m)

/-- Settles O47: either branch of the result is `+0.0` or at least `2^-53` and finite. -/
theorem estimateIsFiniteAndNonNegative : Obligations.EstimateIsFiniteAndNonNegative :=
  fun s hinv hconfigured => ⟨_, exec_estimate_of_configured hconfigured, rfl,
    estimateBits_eq_zero_or_positiveNormal (hinv.constructed hconfigured) s.mem⟩

/-! ## The fresh sketch (R152) -/

section
variable {c : Cfg} (hc : c.Constructed) {m : Memory} (hfresh : ∀ j < c.m, Memory.read m j = 0)
include hfresh

theorem harmonicFx_of_fresh : harmonicFx c.precision m = c.m * 2 ^ 32 := by
  rw [harmonicFx_eq_sum, Finset.sum_congr rfl (g := fun _ => 2 ^ 32) fun j hj => by
    rw [hfresh j (Finset.mem_range.mp hj)]; rfl]
  rw [Finset.sum_const, Finset.card_range, smul_eq_mul, Cfg.m]

theorem zeroCount_of_fresh : zeroCount c.precision m = c.m := by
  have hall := Finset.filter_true_of_mem fun j hj => hfresh j (Finset.mem_range.mp hj)
  exact (zeroCount_eq_card ..).trans ((congrArg Finset.card hall).trans (Finset.card_range _))

include hc

theorem toRat_harmonic64_of_fresh : F64.toRat (harmonic64 c.precision m) = c.m := by
  have hvalue : (Ratio.mk (c.m * 2 ^ 32) (2 ^ 32)).toRat = (Ratio.ofNat c.m).toRat := by
    simp [Ratio.toRat, Ratio.ofNat]
  rw [harmonic64, harmonicFx_of_fresh hfresh, f64_congr (Nat.two_pow_pos 32) Nat.one_pos hvalue]
  exact (toRat_f64OfNat_m hc).2

/-- `alpha * m` is a binary64 number, so the quotient is exact. -/
theorem rawEstimate_of_fresh : rawEstimate c m = fmul c.alpha (f64OfNat c.m) := by
  obtain ⟨hfinite, hvalue, -⟩ := alpha_mul_m hc
  have hm := two_le_m hc
  refine fdiv_eq (harmonic64_pos hc m) hfinite ?_
  rw [hvalue, toRat_numerator hc, toRat_harmonic64_of_fresh hc hfresh, mul_div_cancel_right₀ _ (by positivity)]

theorem toRat_rawEstimate_of_fresh : F64.toRat (rawEstimate c m) = F64.toRat c.alpha * c.m := by
  rw [rawEstimate_of_fresh hc hfresh, (alpha_mul_m hc).2.1]

theorem rawEstimate_le_of_fresh : F64.toRat (rawEstimate c m) ≤ 5 / 2 * c.m := by
  rw [toRat_rawEstimate_of_fresh hc hfresh]
  exact mul_le_mul_of_nonneg_right ((alpha_bounds hc).2.le.trans (by norm_num)) (Nat.cast_nonneg _)

/-- Linear counting with `V = m` is `m` times the logarithm of 1. -/
theorem estimateBits_of_fresh : estimateBits c m = 0 := by
  have hbranch : fle (rawEstimate c m) c.thresh = true := by
    have hthresh : F64.toRat c.thresh = 5 / 2 * c.m := by
      rw [hc.thresh, (thresholdOf_exact (hc.le.trans (by norm_num))).1, cast_m]
    exact decide_eq_true (toRat_le_iff.mp ((rawEstimate_le_of_fresh hc hfresh).trans_eq hthresh.symm))
  have hm := two_le_m hc
  have hquotient : fdiv (f64OfNat c.m) (f64OfNat c.m) = 0x3FF0000000000000 := by
    have hpos : 0 < F64.toRat (f64OfNat c.m) := by rw [(toRat_f64OfNat_m hc).2]; linarith
    exact fdiv_eq hpos finite_one (toRat_one.trans (div_self hpos.ne').symm)
  have hcount : decide (0 < c.m) = true := decide_eq_true (Nat.two_pow_pos _)
  rw [estimateBits, hbranch, zeroCount_of_fresh hfresh, hcount, Bool.true_and, if_pos rfl, linearCount, hquotient,
    ln64_one, fmul_zero]

end

/-- Settles O48: after a legal INIT every entry below `m` is 0. -/
theorem freshSketchEstimatesZero : Obligations.FreshSketchEstimatesZero := by
  intro p s t hmin hmax ht
  rw [exec_init_of_precisionOk (precisionOk_eq_true_iff.mpr ⟨hmin, hmax⟩)] at ht
  injection ht with ht
  subst ht
  have hc := construct_constructed hmin hmax
  have hfresh : ∀ j < (Cfg.construct p).m, Memory.read (Memory.clearBelow s.mem (2 ^ p.toNat)) j = 0 := by
    intro j hj
    rw [Cfg.m, construct_precision hmax] at hj
    exact read_clearBelow_lt _ _ hj
  refine ⟨harmonicFx_of_fresh hfresh, toRat_harmonic64_of_fresh hc hfresh, toRat_rawEstimate_of_fresh hc hfresh,
    rawEstimate_le_of_fresh hc hfresh, zeroCount_of_fresh hfresh, _, exec_estimate_of_configured rfl, ?_⟩
  rw [estimateBits_of_fresh hc hfresh]

end Sys2Proof.Machine
end

section
/-! SUPPORT. Proofs about READ_REG and INFO: the equations of READ_REG, the bits of the information words, and what a
read-only command leaves and reads (spec/43_query.md R170 to R178). -/

namespace Sys2Proof.Machine

/-! ## READ_REG (R170) -/

theorem exec_readReg_of_unconfigured (j : Operand) {s : State} (h : s.cfg.configured = false) :
    exec (.readReg j) s = .next { s with rspPending := some ⟨.notConfigured, 0⟩, inFlight := none } :=
  withSketch_of_unconfigured h

theorem exec_readReg_of_lt {j : Operand} {s : State} (h : s.cfg.configured = true) (hj : j.toNat < s.cfg.m) :
    exec (.readReg j) s = .next { s with
      rspPending := some ⟨.ok, (Memory.read s.mem j.toNat).setWidth 64⟩, inFlight := none } :=
  (withSketch_of_configured h).trans (if_neg hj.not_ge)

theorem exec_readReg_of_le {j : Operand} {s : State} (h : s.cfg.configured = true) (hj : s.cfg.m ≤ j.toNat) :
    exec (.readReg j) s = .next { s with rspPending := some ⟨.indexRange, 0⟩, inFlight := none } :=
  (withSketch_of_configured h).trans (if_pos hj)

/-- Settles O54: one equation of the command for each clause; a 6-bit entry keeps its value in 64 bits. -/
theorem readRegReadsOneEntry : Obligations.ReadRegReadsOneEntry := by
  intro j s
  refine ⟨exec_readReg_of_unconfigured j, fun hconfigured hj => ?_, exec_readReg_of_le⟩
  have hentry : ((Memory.read s.mem j.toNat).setWidth 64).toNat = (Memory.read s.mem j.toNat).toNat :=
    BitVec.toNat_setWidth_of_le (by decide)
  exact ⟨_, _, exec_readReg_of_lt hconfigured hj, rfl, hentry, rfl, rfl, rfl, rfl, rfl, rfl⟩

/-! ## INFO (R173 to R177) -/

/-- `CFG.CONFIGURED` stays below bit 8, so `CFG.P` starts there. -/
theorem getLsbD_info0 (c : Cfg) (i : Nat) :
    (info0 c).getLsbD i = if i < 8 then decide (i = 0) && c.configured else c.p.getLsbD (i - 8) := by
  have hflag : c.configured.toNat < 2 ^ 8 := c.configured.toNat_lt.trans (by norm_num)
  have hbit : c.configured.toNat.testBit i = (decide (i = 0) && c.configured) := Nat.testBit_bool_toNat ..
  rw [info0, BitVec.getLsbD_ofNat, Nat.add_comm, Nat.testBit_two_pow_mul_add _ hflag, hbit]
  split
  · next hi => rw [decide_eq_true (by omega : i < 64), Bool.true_and]
  · by_cases hi : i < 64
    · rw [decide_eq_true hi, Bool.true_and]; rfl
    · rw [BitVec.getLsbD_of_ge c.p (i - 8) (by omega), decide_eq_false hi, Bool.false_and]

/-- `P_MAX` stays below the lowest bit of the constant part, bit 13. -/
theorem info3_eq_or (b : Config.Build) : info3 b = 0x0100000006202000 ||| BitVec.ofNat 64 b.pMax := by
  have hlow : b.pMax < 2 ^ 13 := (pMax_le b).trans_lt (by norm_num)
  have hsum : b.pMax + 2 ^ 8 * Config.hashWidth + 2 ^ 16 * Config.zeroRank + 2 ^ 24 * Config.regWidth
      + 2 ^ 56 * Config.version = 2 ^ 13 * 0x80000003101 + b.pMax := by
    simp only [Config.hashWidth, Config.zeroRank, Config.regWidth, Config.version]
    omega
  have hconstant : BitVec.ofNat 64 (2 ^ 13 * 0x80000003101) = 0x0100000006202000 := rfl
  rw [info3, hsum, Nat.two_pow_add_eq_or_of_lt hlow, BitVec.ofNat_or, hconstant]

/-- Settles O55: the selector is a literal, so each clause is about one branch of the command. -/
theorem infoWordsAreThoseOfTheSpec : Obligations.InfoWordsAreThoseOfTheSpec := by
  intro s
  refine ⟨⟨_, info0 s.cfg, rfl, rfl, ?configured, ?precision, ?zero⟩,
    fun h => ⟨_, withSketch_of_configured h, rfl⟩, fun h => ⟨_, withSketch_of_configured h, rfl⟩,
    ⟨_, rfl, by rw [info3_eq_or]⟩, ?unconfigured⟩
  case configured => exact getLsbD_info0 s.cfg 0
  case precision =>
    intro i _
    rw [getLsbD_info0, if_neg (by omega), Nat.add_sub_cancel_left]
  case zero =>
    intro i hne hi
    rw [getLsbD_info0]
    rcases hi with hlow | hhigh
    · rw [if_pos hlow, decide_eq_false hne, Bool.false_and]
    · rw [if_neg (by omega), BitVec.getLsbD_of_ge _ _ (by omega)]
  case unconfigured =>
    rintro h sel (rfl | rfl) <;> exact withSketch_of_unconfigured h

/-! ## Read-only commands (R141, R171, R178) -/

/-- A command reads neither the pending response nor the command in flight, and writes both. -/
theorem exec_congr (i : Instr) {s t : State} (hbuild : t.build = s.build) (hcfg : t.cfg = s.cfg) (hmem : t.mem = s.mem)
    (hbusy : t.busy = s.busy) (henv : t.env = s.env) : exec i t = exec i s := by
  cases s
  cases t
  subst hbuild hcfg hmem hbusy henv
  cases i <;> rfl

/-- Settles O56: what the command leaves is all that a second one reads. -/
theorem readOnlyCommandsChangeNoState : Obligations.ReadOnlyCommandsChangeNoState := by
  intro i s t hi ht
  obtain ⟨u, hu, hcfg, hmem⟩ := exec_of_readsOnly hi s
  obtain ⟨v, -, hv, -, -, hflight, hbuild, hbusy, henv, -⟩ := exec_next i s
  obtain rfl : u = t := by injection hu.symm.trans ht
  obtain rfl : v = u := by injection hv.symm.trans ht
  exact ⟨hcfg, hmem, hbusy, hbuild, henv, hflight, (exec_congr i hbuild hcfg hmem hbusy henv).trans ht⟩

end Sys2Proof.Machine
end

section
/-! SUPPORT. Proofs about errors and the idle CSE: the status of each command word and its cause, what an error leaves,
the commands that never fail, and an edge at which nothing is offered (spec/60_exceptions.md R200 to R207, R217). -/

namespace Sys2Proof.Machine

/-! ## The status of a command and its cause (R200 to R206) -/

/-- The causes of R200 for a word that decodes to `d`, in the state `s`: each error status is given exactly for its
cause. -/
def StatusHasCause (d : Except Illegal Instr) (s : State) (st : Status) : Prop :=
  (st = .illegalCommand ↔ ∀ i, d ≠ .ok i) ∧
  (st = .notConfigured ↔ s.cfg.configured = false ∧
    ((∃ x, d = .ok (.observe x)) ∨ d = .ok .estimate ∨ (∃ j, d = .ok (.readReg j)) ∨
      d = .ok (.info 1) ∨ d = .ok (.info 2))) ∧
  (st = .configError ↔ ∃ p, d = .ok (.init p) ∧ (p.toNat < 1 ∨ s.build.pMax < p.toNat)) ∧
  (st = .indexRange ↔ s.cfg.configured = true ∧ ∃ j, d = .ok (.readReg j) ∧ s.cfg.m ≤ j.toNat)

/-- The outcome is a next state with one response, whose status has its cause. -/
def AnswersByCause (d : Except Illegal Instr) (s : State) (o : Host.Outcome State Fault Refusal) : Prop :=
  ∃ t r, o = .next t ∧ t.rspPending = some r ∧ StatusHasCause d s r.status

variable {s : State}

theorem answersByCause_of_error (e : Illegal) :
    AnswersByCause (.error e) s (raiseError .illegalCommand s) :=
  ⟨_, _, rfl, rfl, by simp [StatusHasCause]⟩

/-- A precision is illegal exactly when the check refuses it; `p > 32` needs no clause of its own. -/
theorem illegalPrecision_iff {b : Config.Build} {p : Operand} :
    (p.toNat < 1 ∨ b.pMax < p.toNat) ↔ precisionOk b p = false := by
  have hmax := pMax_le b
  rw [precisionOk_eq_false_iff]
  omega

theorem exec_init_answersByCause (p : Operand) : AnswersByCause (.ok (.init p)) s (exec (.init p) s) := by
  cases h : precisionOk s.build p with
  | true =>
    have hlegal : ¬(p.toNat < 1 ∨ s.build.pMax < p.toNat) := illegalPrecision_iff.not.mpr (by simp [h])
    exact ⟨_, _, exec_init_of_precisionOk h, rfl, by simpa [StatusHasCause] using hlegal⟩
  | false =>
    have hillegal := illegalPrecision_iff.mpr h
    exact ⟨_, _, exec_init_of_not_precisionOk h, rfl, by simpa [StatusHasCause] using hillegal⟩

/-- The commands that fail only for want of a sketch (R201). -/
theorem withSketch_respond_answersByCause {i : Instr}
    (hi : (∃ x, i = .observe x) ∨ i = .estimate ∨ i = .info 1 ∨ i = .info 2) (data : Word) (t : State) :
    AnswersByCause (.ok i) s (withSketch s (respond .ok data t)) := by
  cases h : s.cfg.configured with
  | true =>
    refine ⟨_, _, withSketch_of_configured h, rfl, ?_⟩
    rcases hi with ⟨x, rfl⟩ | rfl | rfl | rfl <;> simp [StatusHasCause, h]
  | false =>
    refine ⟨_, _, withSketch_of_unconfigured h, rfl, ?_⟩
    rcases hi with ⟨x, rfl⟩ | rfl | rfl | rfl <;> simp [StatusHasCause, h]

/-- Without a sketch NOT_CONFIGURED comes before INDEX_RANGE (R206). -/
theorem exec_readReg_answersByCause (j : Operand) :
    AnswersByCause (.ok (.readReg j)) s (exec (.readReg j) s) := by
  cases h : s.cfg.configured with
  | true =>
    rcases Nat.lt_or_ge j.toNat s.cfg.m with hj | hj
    · exact ⟨_, _, exec_readReg_of_lt h hj, rfl, by simp [StatusHasCause, h, hj]⟩
    · exact ⟨_, _, exec_readReg_of_le h hj, rfl, by simp [StatusHasCause, h, hj]⟩
  | false => exact ⟨_, _, exec_readReg_of_unconfigured j h, rfl, by simp [StatusHasCause, h]⟩

/-- The selectors 1 and 2 read the sketch, 0 and 3 do not. -/
theorem exec_info_answersByCause {sel : BitVec 8} (hsel : sel.toNat ≤ 3) :
    AnswersByCause (.ok (.info sel)) s (exec (.info sel) s) := by
  have hcases : sel = 0 ∨ sel = 1 ∨ sel = 2 ∨ sel = 3 := by bv_omega
  rcases hcases with rfl | rfl | rfl | rfl
  · exact ⟨_, _, rfl, rfl, by simp [StatusHasCause]⟩
  · exact withSketch_respond_answersByCause (.inr (.inr (.inl rfl))) s.cfg.alpha s
  · exact withSketch_respond_answersByCause (.inr (.inr (.inr rfl))) s.cfg.thresh s
  · exact ⟨_, _, rfl, rfl, by simp [StatusHasCause]⟩

/-- Settles O57, command by command; only a selector that decodes is in `0..3`. -/
theorem eachStatusHasItsCause : Obligations.EachStatusHasItsCause := by
  intro w s
  change AnswersByCause (decode w) s (runWord w s)
  rcases runWord_cases w s with ⟨i, hi, hrun⟩ | ⟨e, he, hrun⟩
  · obtain ⟨hwf, -⟩ := decode_eq_ok_iff.mp hi
    rw [hi, hrun]
    cases i with
    | init p => exact exec_init_answersByCause p
    | observe x => exact withSketch_respond_answersByCause (.inl ⟨x, rfl⟩) 0 _
    | estimate => exact withSketch_respond_answersByCause (.inr (.inl rfl)) _ s
    | readReg j => exact exec_readReg_answersByCause j
    | info sel => exact exec_info_answersByCause (of_decide_eq_true hwf)
  · rw [he, hrun]
    exact answersByCause_of_error e

/-! ## The effect of an error (R203) -/

/-- Every command word answers a next state: `exec_next` for words, which also may decode to nothing. -/
theorem runWord_next (w : Word) (s : State) :
    ∃ t r, runWord w s = .next t ∧ t.rspPending = some r ∧
      (r.status ≠ .ok → r.data = 0 ∧ t.cfg = s.cfg ∧ t.mem = s.mem) ∧ t.inFlight = none ∧ t.build = s.build ∧
      t.busy = s.busy ∧ t.env = s.env := by
  rcases runWord_cases w s with ⟨i, -, hrun⟩ | ⟨e, -, hrun⟩
  · obtain ⟨t, r, ht, hr, herror, hflight, hbuild, hbusy, henv, -⟩ := exec_next i s
    exact ⟨t, r, hrun.trans ht, hr, herror, hflight, hbuild, hbusy, henv⟩
  · exact ⟨_, _, hrun, rfl, fun _ => ⟨rfl, rfl, rfl⟩, rfl, rfl, rfl, rfl⟩

/-- Settles O58: taking the response clears BUSY and leaves the sketch, so what is left is the frame of the word. -/
theorem errorsChangeNoState : Obligations.ErrorsChangeNoState := by
  intro w s t r ht hr hstatus
  obtain ⟨u, q, hu, hq, herror, hflight, hbuild, -, henv⟩ := runWord_next w s
  obtain rfl : u = t := by injection hu.symm.trans ht
  obtain rfl : q = r := by injection hq.symm.trans hr
  obtain ⟨hdata, hcfg, hmem⟩ := herror hstatus
  exact ⟨hdata, hcfg, hmem, hbuild, henv, hflight, rfl, hcfg, hmem⟩

/-! ## The commands that never fail (R207) -/

/-- The commands of R207 on a build: OBSERVE, ESTIMATE, and INIT with a legal precision. -/
def NeverFails (b : Config.Build) (i : Instr) : Prop :=
  (∃ x, i = .observe x) ∨ i = .estimate ∨ ∃ p, i = .init p ∧ 1 ≤ p.toNat ∧ p.toNat ≤ b.pMax

/-- There is a sketch, and the last response is OK. -/
def State.Succeeded (s : State) : Prop := s.cfg.configured = true ∧ ∃ d, s.rspPending = some ⟨.ok, d⟩

theorem exec_of_neverFails {i : Instr} (hi : NeverFails s.build i) (h : s.cfg.configured = true) :
    ∃ t, exec i s = .next t ∧ t.Succeeded ∧ t.build = s.build := by
  rcases hi with ⟨x, rfl⟩ | rfl | ⟨p, rfl, hp⟩
  · exact ⟨_, exec_observe_of_configured x h, ⟨h, _, rfl⟩, rfl⟩
  · exact ⟨_, exec_estimate_of_configured h, ⟨h, _, rfl⟩, rfl⟩
  · exact ⟨_, exec_init_of_precisionOk (precisionOk_eq_true_iff.mpr hp), ⟨rfl, _, rfl⟩, rfl⟩

theorem execAll_keeps_succeeded {is : List Instr} (hs : s.Succeeded) (his : ∀ i ∈ is, NeverFails s.build i) :
    ∃ t, execAll is s = .next t ∧ t.Succeeded := by
  induction is generalizing s with
  | nil => exact ⟨s, rfl, hs⟩
  | cons i is ih =>
    obtain ⟨hi, his⟩ := List.forall_mem_cons.mp his
    obtain ⟨u, hu, hsucceeded, hbuild⟩ := exec_of_neverFails hi hs.1
    rw [execAll_cons_of_next hu]
    exact ih hsucceeded (hbuild ▸ his)

/-- Settles O59: after the first command the last response is OK, and every further command keeps it so. -/
theorem nothingFailsAfterInit : Obligations.NothingFailsAfterInit := by
  intro is s h his
  cases is with
  | nil => exact ⟨s, rfl, h, absurd rfl⟩
  | cons i is =>
    obtain ⟨hi, his⟩ := List.forall_mem_cons.mp his
    obtain ⟨u, hu, hsucceeded, hbuild⟩ := exec_of_neverFails hi h
    obtain ⟨t, ht, hconfigured, hok⟩ := execAll_keeps_succeeded hsucceeded (hbuild ▸ his)
    exact ⟨t, (execAll_cons_of_next hu is).trans ht, hconfigured, fun _ => hok⟩

/-! ## The idle CSE (R217) -/

/-- While `BUSY = 0` there is neither a command in flight nor a response (R31). -/
theorem State.Inv.not_busy (h : s.Inv) (hbusy : s.busy = false) : s.inFlight = none ∧ s.rspPending = none := by
  simpa [hbusy] using h.busy

theorem holdBroken_of_not_cmdValid {e : Edge} (h : e.cmdValid = false) : holdBroken e s = false := by
  unfold holdBroken
  rw [h]
  split <;> rfl

/-- Each edge but a waiting one needs a reset, an offer, a response or a command in flight. -/
theorem step_of_idle (hflight : s.inFlight = none) (hpending : s.rspPending = none)
    (hvalid : s.nextEdge.cmdValid = false) (hrst : s.nextEdge.rst = false) : step s = .next s.advance := by
  have hkind := step_kind s
  generalize step s = o at hkind
  cases hkind with
  | reset rst => exact absurd (hrst.symm.trans rst) (by decide)
  | holdBroken _ broken => exact absurd ((holdBroken_of_not_cmdValid hvalid).symm.trans broken) (by decide)
  | transfer r _ _ pending => exact absurd (hpending.symm.trans pending) (by simp)
  | execute w _ _ _ flight => exact absurd (hflight.symm.trans flight) (by simp)
  | accept _ _ _ _ valid => exact absurd (hvalid.symm.trans valid) (by decide)
  | wait => rfl

/-- Settles O17: the edge is a waiting one, which consumes the edge and nothing else. -/
theorem idleKeepsAllState : Obligations.IdleKeepsAllState := by
  intro s hinv hbusy hvalid hrst
  obtain ⟨hflight, hpending⟩ := hinv.not_busy hbusy
  exact ⟨_, step_of_idle hflight hpending hvalid hrst, rfl, rfl, rfl, rfl, rfl, rfl, rfl⟩

end Sys2Proof.Machine
end

section
/-! SUPPORT. Proofs about reset: at an edge with `rst = 1` the ports accept and offer nothing, and the step is the
reset, whatever the CSE was doing (spec/70_reset_and_hazards.md R230 to R232). -/

namespace Sys2Proof.Machine

variable {s : State}

theorem cmdReady_of_rst (s : State) : s.cmdReady true = false := rfl

theorem rspValid_of_rst (s : State) : s.rspValid true = false := rfl

theorem cmdReady_of_not_busy (h : s.busy = false) : s.cmdReady false = true := by
  rw [State.cmdReady, h]
  rfl

/-- Reset comes before everything else an edge can do, a broken hold of `cmd_data` included (R232). -/
theorem edgeAction_of_rst {e : Edge} (hrst : e.rst = true) : edgeAction e s = .reset := if_pos hrst

theorem step_of_rst (hrst : s.nextEdge.rst = true) : step s = .next (State.resetOf s.build s.advance.env) := by
  rw [step_eq, edgeStep, edgeAction_of_rst hrst, resetState_eq, advance_build]

/-- Settles O16: the step answers the reset state of the same build, with the edge consumed and no response added. -/
theorem resetEdgeResetsAnyState : Obligations.ResetEdgeResetsAnyState := by
  intro s hrst
  rw [hrst]
  refine ⟨cmdReady_of_rst s, rspValid_of_rst s, State.resetOf s.build s.advance.env, step_of_rst hrst, ?_⟩
  have hready : (State.resetOf s.build s.advance.env).cmdReady false = true :=
    cmdReady_of_not_busy (resetOf_busy s.build s.advance.env)
  exact ⟨rfl, rfl, rfl, rfl, rfl, rfl, rfl, hready⟩

end Sys2Proof.Machine
end

section
/-! SUPPORT. Proofs about the encoding: an instruction and its word determine each other, and the word of its bytes is
the word itself (spec/30_encoding.md R70 to R74, 20_memory.md R55). -/

namespace Sys2Proof

open Sys2Proof.Machine Laws.Layout

/-! ## A word and its bytes (R55) -/

/-- The bytes of a word, each the next eight bits of it, make the word again. -/
theorem wordOfBytes_byteOf (c : Word) :
    wordOfBytes (byteOf c 0) (byteOf c 1) (byteOf c 2) (byteOf c 3) (byteOf c 4) (byteOf c 5) (byteOf c 6)
      (byteOf c 7) = c := by
  simp only [wordOfBytes, byteOf]
  iterate 7 rw [BitVec.extractLsb'_append_extractLsb'_eq_extractLsb' (by rfl)]
  exact BitVec.extractLsb'_eq_self

theorem getLsbD_byteOf {c : Word} {k i : Nat} (hi : i < 8) : (byteOf c k).getLsbD i = c.getLsbD (8 * k + i) := by
  rw [byteOf, BitVec.getLsbD_extractLsb', decide_eq_true hi, Bool.true_and]

theorem getElem?_wordBytes {c : Word} {k : Nat} (hk : k < 8) : (wordBytes c)[k]? = some (byteOf c k) := by
  rw [wordBytes, List.getElem?_map, List.getElem?_range hk, Option.map_some]

/-- Settles O8: byte `k` is the slice of the word at bit `8k`. -/
theorem bytesAreLittleEndian : Obligations.BytesAreLittleEndian := by
  refine fun c => ⟨rfl, fun k hk i hi => ?_, wordOfBytes_byteOf c⟩
  rw [getElem?_wordBytes hk, Option.getD_some, getLsbD_byteOf hi]

/-- The decoder on the bytes of a word is the decoder on the word. -/
theorem decodeBytes_wordBytes {c : Word} {i : Instr} (h : decode c = .ok i) (rest : List Byte) :
    decodeBytes (wordBytes c ++ rest) = .ok (i, rest) := by
  have hbytes : wordBytes c ++ rest = byteOf c 0 :: byteOf c 1 :: byteOf c 2 :: byteOf c 3 :: byteOf c 4 ::
      byteOf c 5 :: byteOf c 6 :: byteOf c 7 :: rest := rfl
  rw [hbytes, decodeBytes, wordOfBytes_byteOf, h]

/-! ## An instruction and its word (R70 to R74) -/

/-- The fields of an instruction's word are those of its row of R71. -/
theorem encode_statement (i : Instr) : Statement i := by
  cases i with
  | init p => exact Laws.Layout.init p
  | observe x => exact Laws.Layout.observe x
  | estimate => exact Laws.Layout.estimate
  | readReg j => exact Laws.Layout.readReg j
  | info sel => exact Laws.Layout.info sel

theorem decode_encode {i : Instr} (hwf : i.wellFormed = true) : decode (encode i) = .ok i := by
  obtain ⟨hopc, hsel, hrsvd, hopnd⟩ := encode_statement i
  exact decode_eq_ok_iff.mpr ⟨hwf, hopc, hsel, hrsvd, hopnd⟩

/-- Settles O1: the word of a well-formed instruction has the fields that decode to it, and its bytes make the word. -/
theorem decodeOfEncodeIsIdentity : Obligations.DecodeOfEncodeIsIdentity :=
  fun _ rest hwf => ⟨decode_encode hwf, decodeBytes_wordBytes (decode_encode hwf) rest⟩

/-- A word that decodes has the fields of its instruction's word, and a word is its four fields. -/
theorem encode_of_decode {c : Word} {i : Instr} (h : decode c = .ok i) : encode i = c := by
  obtain ⟨-, hopc, hsel, hrsvd, hopnd⟩ := decode_eq_ok_iff.mp h
  obtain ⟨hopc', hsel', hrsvd', hopnd'⟩ := encode_statement i
  rw [← packFields_fields (encode i), hopc', hsel', hrsvd', hopnd', ← hopc, ← hsel, ← hrsvd, ← hopnd,
    packFields_fields]

/-- Settles O2: only a well-formed instruction is decoded, and the word is the word of its fields. -/
theorem encodeOfDecodeIsIdentity : Obligations.EncodeOfDecodeIsIdentity :=
  fun _ _ h => ⟨encode_of_decode h, (decode_eq_ok_iff.mp h).1⟩

end Sys2Proof
end

section
/-! SUPPORT. Proofs about the assembler: the texts of an instruction, and the lines that stand for none
(spec/30_encoding.md R82). -/

namespace Sys2Proof

open Sys2Proof.Machine

/-! ## The instruction of a mnemonic and an operand -/

/-- The instruction with the mnemonic of `i` and the operand `n`, if `n` is in that mnemonic's range. -/
def Instr.withOperand (i : Instr) (n : Nat) : Option Instr :=
  match i with
  | .init _ => (operandOf n).map .init
  | .observe _ => (operandOf n).map .observe
  | .estimate => none
  | .readReg _ => (operandOf n).map .readReg
  | .info _ => if n ≤ 3 then some (.info (BitVec.ofNat 8 n)) else none

theorem operandOf_toNat (x : Operand) : operandOf x.toNat = some x := by
  rw [operandOf, if_pos x.isLt, BitVec.ofNat_toNat, BitVec.setWidth_eq]

theorem operandOf_of_le {n : Nat} (h : 2 ^ 32 ≤ n) : operandOf n = none := if_neg h.not_gt

/-- A well-formed instruction is that of its mnemonic and its own operand. -/
theorem withOperand_textOperand {i : Instr} {n : Nat} (hwf : i.wellFormed = true) (hn : textOperand i = some n) :
    i.withOperand n = some i := by
  cases i with
  | estimate => cases hn
  | info sel =>
    obtain rfl : sel.toNat = n := Option.some.inj hn
    have hle : sel.toNat ≤ 3 := of_decide_eq_true hwf
    rw [Instr.withOperand, if_pos hle, BitVec.ofNat_toNat, BitVec.setWidth_eq]
  | init x | observe x | readReg x =>
    obtain rfl : x.toNat = n := Option.some.inj hn
    rw [Instr.withOperand, operandOf_toNat, Option.map_some]

/-- An operand out of the range of its mnemonic makes no instruction. -/
theorem withOperand_eq_none {i : Instr} {n : Nat}
    (h : i.mnemonic ∈ ["INIT", "OBSERVE", "READ_REG"] ∧ 2 ^ 32 ≤ n ∨ i.mnemonic = "INFO" ∧ 4 ≤ n ∨
      i.mnemonic = "ESTIMATE") : i.withOperand n = none := by
  cases i with
  | estimate => rfl
  | info sel =>
    have hgt : ¬n ≤ 3 := by simp [Instr.mnemonic] at h; omega
    exact if_neg hgt
  | init x | observe x | readReg x =>
    have hle : 2 ^ 32 ≤ n := by simpa [Instr.mnemonic] using h
    rw [Instr.withOperand, operandOf_of_le hle, Option.map_none]

/-! ## Lines of one and of two parts -/

section
variable {lead gap arg ending : List Char} {n : Nat} (hlead : Blank lead) (hending : LineEnd ending)
include hlead hending

theorem parseLine_estimate :
    parseLine (lead ++ Instr.estimate.mnemonic.toList ++ ending) = some .estimate := by
  rw [parseLine, parts_of_one hlead (mnemonic_isPart .estimate) hending]
  rfl

/-- A line of two parts stands for the instruction of its mnemonic and its number. -/
theorem parseLine_of_two_parts (i : Instr) (hgap : Blank gap) (hne : gap ≠ []) (harg : Spells arg n) :
    parseLine (lead ++ i.mnemonic.toList ++ gap ++ arg ++ ending) = i.withOperand n := by
  rw [parseLine, parts_of_two hlead (mnemonic_isPart i) hgap hne harg.isPart hending]
  simp only [numberValue_of_spells harg]
  cases i <;> simp [Instr.mnemonic, Instr.withOperand]

end

/-! ## The text of an instruction -/

theorem blank_singleton : Blank [' '] := fun _ hc => .inl (List.mem_singleton.mp hc)

theorem lineEnd_space_comment (comment : List Char) : LineEnd (' ' :: ';' :: comment) :=
  ⟨[' '], blank_singleton, .inr ⟨comment, rfl⟩⟩

/-- `Instr.text` with white space before it and a comment after it is a line of one or of two parts. -/
theorem parseLine_text {i : Instr} (hwf : i.wellFormed = true) (comment : List Char) :
    parseLine (' ' :: i.text ++ [' ', ';'] ++ comment) = some i := by
  have hoperand {k n : Nat} (hk : k ≠ 0) (hlt : n < 16 ^ k) (hn : textOperand i = some n) :
      parseLine (' ' :: textWith i.mnemonic k n ++ [' ', ';'] ++ comment) = some i := by
    have hline := parseLine_of_two_parts blank_singleton (lineEnd_space_comment comment) i blank_singleton
      (List.cons_ne_nil _ _) (spells_hexDigits hk hlt)
    rw [withOperand_textOperand hwf hn] at hline
    simpa [textWith] using hline
  cases i with
  | init x | observe x | readReg x => exact hoperand (by decide) (x.isLt.trans_le (by norm_num)) rfl
  | info sel => exact hoperand (by decide) (sel.isLt.trans_le (by norm_num)) rfl
  | estimate =>
    have hline := parseLine_estimate blank_singleton (lineEnd_space_comment comment)
    simpa [Instr.text] using hline

/-- Settles O6: a line of the parts of R82 stands for the instruction of its mnemonic and its number. -/
theorem textAssemblesToItsWord : Obligations.TextAssemblesToItsWord := by
  intro i lead gap ending hwf hlead hgap hending
  refine ⟨fun n arg hn hne harg => ?_, fun hn => ?_, fun comment => ?_⟩
  · rw [assembleLine, parseLine_of_two_parts hlead hending i hgap hne harg, withOperand_textOperand hwf hn,
      Option.map_some]
  · obtain rfl : i = .estimate := by
      cases i with
      | estimate => rfl
      | init | observe | readReg | info => cases hn
    rw [assembleLine, parseLine_estimate hlead hending, Option.map_some]
  · rw [assembleLine, parseLine_text hwf, Option.map_some]

/-- Settles O7: a line stands for a well-formed instruction only, and for none with an operand out of range. -/
theorem assembledWordsAreLegal : Obligations.AssembledWordsAreLegal := by
  refine ⟨fun line c h => ?_, fun i n lead gap arg ending hlead hgap hne harg hending hrange => ?_⟩
  · obtain ⟨i, hi, rfl⟩ := Option.map_eq_some_iff.mp h
    have hwf := wellFormed_of_parseLine hi
    exact ⟨i, hwf, rfl, decode_encode hwf⟩
  · rw [assembleLine, parseLine_of_two_parts hlead hending i hgap hne harg, withOperand_eq_none hrange,
      Option.map_none]

end Sys2Proof
end

section
/-! SUPPORT. Proofs about the channels: what a rising edge does under which conditions, and the ports
(spec/30_encoding.md R79, R80; 60_exceptions.md R203, R211). -/

namespace Sys2Proof.Machine

variable {s t : State} {w : Word} {r : Response}

/-! ## The edge's equation, by the conditions of `StepKind` -/

theorem step_transfer (hrst : s.nextEdge.rst = false) (hheld : holdBroken s.nextEdge s = false)
    (hpending : s.rspPending = some r) (hready : s.nextEdge.rspReady = true) :
    step s = .next (takeResponse r s.advance) := by
  simp [step_eq, edgeStep, edgeAction, hrst, hheld, hpending, hready]

theorem step_not_taken (hrst : s.nextEdge.rst = false) (hheld : holdBroken s.nextEdge s = false)
    (hpending : s.rspPending = some r) (hready : s.nextEdge.rspReady = false) : step s = .next s.advance := by
  simp [step_eq, edgeStep, edgeAction, hrst, hheld, hpending, hready]

theorem step_execute (hrst : s.nextEdge.rst = false) (hheld : holdBroken s.nextEdge s = false)
    (hpending : s.rspPending = none) (hflight : s.inFlight = some w) (hgo : s.nextEdge.stall = false) :
    step s = runWord w s.advance := by
  simp [step_eq, edgeStep, edgeAction, hrst, hheld, hpending, hflight, hgo]

theorem step_stalled (hrst : s.nextEdge.rst = false) (hheld : holdBroken s.nextEdge s = false)
    (hpending : s.rspPending = none) (hflight : s.inFlight = some w) (hstall : s.nextEdge.stall = true) :
    step s = .next s.advance := by
  simp [step_eq, edgeStep, edgeAction, hrst, hheld, hpending, hflight, hstall]

theorem step_accept (hrst : s.nextEdge.rst = false) (hheld : holdBroken s.nextEdge s = false)
    (hpending : s.rspPending = none) (hflight : s.inFlight = none) (hvalid : s.nextEdge.cmdValid = true)
    (hbusy : s.busy = false) : step s = .next (acceptCommand s.nextEdge.cmdData s.advance) := by
  simp [step_eq, edgeStep, edgeAction, State.cmdReady, hrst, hheld, hpending, hflight, hvalid, hbusy]

theorem step_holdBroken (hrst : s.nextEdge.rst = false) (hbroken : holdBroken s.nextEdge s = true) :
    step s = .fault .hostChangedHeldCommand := by
  simp [step_eq, edgeStep, edgeAction, hrst, hbroken]

/-! ## The host's duty -/

theorem holdBroken_eq_true_iff {e : Edge} :
    holdBroken e s = true ↔ e.cmdValid = true ∧ ∃ w, s.env.held = some w ∧ w ≠ e.cmdData := by
  unfold holdBroken
  cases s.env.held with
  | none => simp
  | some w => simp [eq_comm (a := w)]

theorem holdBroken_of_held_none {e : Edge} (h : s.env.held = none) : holdBroken e s = false := by
  unfold holdBroken
  rw [h]

/-- A command word is answered: it neither stops the machine nor is refused. -/
theorem exists_runWord_eq_next (w : Word) (s : State) : ∃ t, runWord w s = .next t := by
  obtain ⟨t, -, ht, -⟩ := runWord_next w s
  exact ⟨t, ht⟩

/-- A step answers a next state, but where the host broke its duty. -/
theorem step_next_or_holdBroken (s : State) : (∃ t, step s = .next t) ∨
    s.nextEdge.rst = false ∧ holdBroken s.nextEdge s = true ∧ step s = .fault .hostChangedHeldCommand := by
  have hkind := step_kind s
  generalize step s = o at hkind
  cases hkind with
  | holdBroken rst broken => exact .inr ⟨rst, broken, rfl⟩
  | execute w => exact .inl (exists_runWord_eq_next w s.advance)
  | reset | transfer | accept | wait => exact .inl ⟨_, rfl⟩

/-- Settles O18: of the kinds of a step only a broken hold is a fault, and none is a refusal. -/
theorem onlyTheHostCanStopTheMachine : Obligations.OnlyTheHostCanStopTheMachine := by
  refine fun s => ⟨⟨fun ⟨f, hf⟩ => ?_, fun ⟨hrst, hbroken⟩ => ?_⟩, fun q hq => ?_⟩
  · rcases step_next_or_holdBroken s with ⟨t, ht⟩ | ⟨hrst, hbroken, -⟩
    · cases hf.symm.trans ht
    · exact ⟨hrst, holdBroken_eq_true_iff.mp hbroken⟩
  · exact ⟨_, step_holdBroken hrst (holdBroken_eq_true_iff.mpr hbroken)⟩
  · rcases step_next_or_holdBroken s with ⟨t, ht⟩ | ⟨-, -, hfault⟩
    · cases hq.symm.trans ht
    · cases hq.symm.trans hfault

/-! ## What a step to a next state can be -/

/-- What takes the machine to a next state: `StepKind` read backwards, with the state before it. -/
inductive StepTo (s t : State) : Prop where
  | reset (rst : s.nextEdge.rst = true) (eq : t = State.resetOf s.build s.advance.env)
  | transfer (r : Response) (rst : s.nextEdge.rst = false) (pending : s.rspPending = some r)
      (ready : s.nextEdge.rspReady = true) (eq : t = takeResponse r s.advance)
  | execute (w : Word) (rst : s.nextEdge.rst = false) (pending : s.rspPending = none) (flight : s.inFlight = some w)
      (go : s.nextEdge.stall = false) (eq : runWord w s.advance = .next t)
  | accept (rst : s.nextEdge.rst = false) (pending : s.rspPending = none) (flight : s.inFlight = none)
      (notBusy : s.busy = false) (eq : t = acceptCommand s.nextEdge.cmdData s.advance)
  | wait (rst : s.nextEdge.rst = false) (eq : t = s.advance)

theorem stepTo_of_step (h : step s = .next t) : StepTo s t := by
  have hkind := step_kind s
  rw [h] at hkind
  generalize ho : Host.Outcome.next t = o at hkind
  cases hkind with
  | reset rst => exact .reset rst (Host.Outcome.next.inj ho)
  | holdBroken => cases ho
  | transfer r rst _ pending ready => exact .transfer r rst pending ready (Host.Outcome.next.inj ho)
  | execute w rst _ pending flight go => exact .execute w rst pending flight go ho.symm
  | accept rst _ pending flight _ notBusy => exact .accept rst pending flight notBusy (Host.Outcome.next.inj ho)
  | wait rst => exact .wait rst (Host.Outcome.next.inj ho)

/-! ## The ports (R80, R230) -/

theorem rspStatus_of_pending (h : s.rspPending = some r) : s.rspStatus false = some r.status.code := by
  simp [State.rspStatus, State.rspValid, h]

theorem rspData_of_pending (h : s.rspPending = some r) : s.rspData false = some r.data := by
  simp [State.rspData, State.rspValid, h]

theorem rspStatus_of_none (h : s.rspPending = none) : s.rspStatus false = none := by
  simp [State.rspStatus, State.rspValid, h]

theorem rspData_of_none (h : s.rspPending = none) : s.rspData false = none := by
  simp [State.rspData, State.rspValid, h]

/-- Settles O15: while `rst = 0` each port is one field of the state; the codes are those of the definition. -/
theorem portsShowTheState : Obligations.PortsShowTheState :=
  ⟨fun s => ⟨rfl, rfl, cmdReady_of_rst s, rspValid_of_rst s⟩,
    fun _ _ h => ⟨rspStatus_of_pending h, rspData_of_pending h⟩,
    fun _ h => ⟨rspStatus_of_none h, rspData_of_none h⟩, rfl, rfl, rfl, rfl, rfl⟩

theorem cmdReady_eq_true_iff {rst : Bool} : s.cmdReady rst = true ↔ rst = false ∧ s.busy = false := by
  simp [State.cmdReady]

theorem rspValid_eq_true_iff {rst : Bool} : s.rspValid rst = true ↔ rst = false ∧ ∃ r, s.rspPending = some r := by
  simp [State.rspValid, Option.isSome_iff_exists]

/-! ## One edge (R79) -/

/-- Settles O9: the edge executes the word, and the word decodes to the instruction. -/
theorem stepRunsTheDecodedCommand : Obligations.StepRunsTheDecodedCommand := by
  intro s w i hpending hflight hdecode hrst hstall hheld
  rw [step_execute hrst hheld hpending hflight hstall, runWord, hdecode]

theorem tableWord_toNat (w : Word) : tableWord 64 w.toNat = w := by
  rw [tableWord, Nat.mod_eq_of_lt w.isLt, BitVec.ofNat_toNat, BitVec.setWidth_eq]

/-- Settles O10: the 64 bits of the table are the word, and the word decodes to its instruction. -/
theorem fetchWordIsRunByTheNextStep : Obligations.FetchWordIsRunByTheNextStep := by
  intro s i hwf
  rw [step_withFetchWord, tableWord_toNat, runWord, decode_encode hwf]

/-- What a ready CSE is offered it takes, so the host has nothing to hold. -/
theorem heldAfter_of_cmdReady {e : Edge} (h : s.cmdReady e.rst = true) : heldAfter e s = none := by
  simp [heldAfter, h]

theorem heldAfter_of_not_cmdValid {e : Edge} (h : e.cmdValid = false) : heldAfter e s = none := by
  simp [heldAfter, h]

/-- Settles O11: a ready CSE has neither a command in flight nor a response, by the invariant. -/
theorem offeredCommandIsAccepted : Obligations.OfferedCommandIsAccepted := by
  intro s hinv hrst hvalid hready hheld
  have hbusy := (cmdReady_eq_true_iff.mp hready).2
  obtain ⟨hflight, hpending⟩ := hinv.not_busy hbusy
  exact ⟨_, step_accept hrst hheld hpending hflight hvalid hbusy, rfl, rfl, hpending, rfl, rfl, rfl, rfl,
    heldAfter_of_cmdReady hready⟩

/-- Settles O12: a valid response means that `rst = 0`, so the edge is a transfer. -/
theorem responseIsTransferred : Obligations.ResponseIsTransferred := by
  intro s r hpending hvalid hready hheld
  have hrst := (rspValid_eq_true_iff.mp hvalid).1
  exact ⟨_, step_transfer hrst hheld hpending hready, rfl, rfl, rfl, rfl, rfl, rfl, rfl⟩

/-- Settles O13: with a response pending that the host does not take, every step but a waiting one is excluded. -/
theorem responseIsHeldStable : Obligations.ResponseIsHeldStable := by
  intro s t hvalid hready hstep
  obtain ⟨hrst, r, hpending⟩ := rspValid_eq_true_iff.mp hvalid
  cases stepTo_of_step hstep with
  | reset rst => simp [hrst] at rst
  | transfer _ _ _ ready => simp [hready] at ready
  | execute _ _ pending => simp [hpending] at pending
  | accept _ pending => simp [hpending] at pending
  | wait _ eq => subst eq; exact ⟨rfl, rfl, rfl, rfl, rfl, rfl, rfl⟩

/-- Settles O14: acceptance alone puts a word in flight, and it needs `BUSY = 0`. -/
theorem noCommandIsAcceptedWhileBusy : Obligations.NoCommandIsAcceptedWhileBusy := by
  refine fun s hbusy => ⟨fun rst => by simp [State.cmdReady, hbusy], fun t hstep => ?_⟩
  cases stepTo_of_step hstep with
  | reset _ eq => subst eq; exact .inl rfl
  | transfer _ _ _ _ eq => subst eq; exact .inr rfl
  | execute w _ _ _ _ eq =>
    obtain ⟨u, -, hu, -, -, hflight, -⟩ := runWord_next w s.advance
    obtain rfl : u = t := by injection hu.symm.trans eq
    exact .inl hflight
  | accept _ _ _ notBusy => simp [hbusy] at notBusy
  | wait _ eq => subst eq; exact .inr rfl

/-- Settles O60: the edge is a waiting one, which consumes the edge and nothing else. -/
theorem stalledCommandChangesNothing : Obligations.StalledCommandChangesNothing := by
  intro s w hflight hpending hrst hstall hheld
  exact ⟨_, step_stalled hrst hheld hpending hflight hstall, rfl, rfl, rfl, hpending, hflight, rfl, rfl⟩

end Sys2Proof.Machine
end

section
/-! SUPPORT. Proofs about runs of edges: a command in flight is answered, and deliveries over the channels are the
transactions of their commands (spec/30_encoding.md R79; 70_reset_and_hazards.md R237, R238). -/

namespace Sys2Proof.Machine

variable {s t u : State} {w : Word} {e : Edge}

/-! ## A state with its edges to come -/

/-- The state with other edges to come. -/
def State.withEdges (s : State) (es : List Edge) : State := { s with env := { s.env with edges := es } }

theorem withEdges_edges (s : State) : s.withEdges s.env.edges = s := rfl

theorem nextEdge_of_edges {es : List Edge} (h : s.env.edges = e :: es) : s.nextEdge = e := by
  rw [State.nextEdge, h, List.headD_cons]

/-- Where the host neither holds a word nor has to, an edge that is consumed changes nothing but the edges to come. -/
theorem advance_withEdges (hheld : s.env.held = none) (hafter : heldAfter e s = none) (es : List Edge) :
    (s.withEdges (e :: es)).advance = s.withEdges es := by
  change { s with env := { s.env with edges := es, held := heldAfter e s } } = s.withEdges es
  rw [hafter, ← hheld]
  rfl

/-! ## Runs -/

theorem run_succ_of_next {M : Host.Core} {x y : M.State} (h : M.step x = .next y) (k : Nat) :
    M.run (k + 1) x = M.run k y := by
  rw [Host.Core.run, h]

theorem run_add_of_next {M : Host.Core} {x y : M.State} {j : Nat} (h : M.run j x = .next y) (k : Nat) :
    M.run (j + k) x = M.run k y := by
  induction j generalizing x with
  | zero =>
    obtain rfl : x = y := Host.Outcome.next.inj h
    rw [Nat.zero_add]
  | succ j ih =>
    rw [Nat.add_right_comm, Host.Core.run]
    rw [Host.Core.run] at h
    cases hstep : M.step x with
    | next z => rw [hstep] at h; exact ih h
    | fault f => rw [hstep] at h; cases h
    | refused q => rw [hstep] at h; cases h

theorem runEdges_succ_of_next (h : step s = .next t) (k : Nat) : runEdges (k + 1) s = runEdges k t :=
  run_succ_of_next (M := Sys2Proof.core) h k

theorem runEdges_add_of_next {j : Nat} (h : runEdges j s = .next t) (k : Nat) :
    runEdges (j + k) s = runEdges k t :=
  run_add_of_next (M := Sys2Proof.core) h k

/-- Settles O19, by induction on the edges the command stalls for; the edge after them executes it. -/
theorem commandInFlightIsAnswered : Obligations.CommandInFlightIsAnswered := by
  intro s w n es rest hflight hpending hlength hedges hheld hquiet hstall hgo
  induction n generalizing s es with
  | zero =>
    obtain ⟨e, rfl⟩ := List.length_eq_one_iff.mp hlength
    have hnext : s.nextEdge = e := nextEdge_of_edges hedges
    obtain ⟨hrst, -⟩ := hquiet e (List.mem_singleton_self e)
    have hgo := hgo e (List.mem_singleton_self e)
    obtain ⟨t, r, ht, hr, -, hanswered, -, -, henv⟩ := runWord_next w s.advance
    have hstep := step_execute (hnext ▸ hrst) (holdBroken_of_held_none hheld) hpending hflight (hnext ▸ hgo)
    refine ⟨t, r, runEdges_succ_of_next (hstep.trans ht) 0, hr, hanswered, ?_⟩
    rw [henv, advance_edges, hedges]
    rfl
  | succ n ih =>
    obtain ⟨e, es, rfl⟩ := List.exists_cons_of_length_eq_add_one hlength
    have hnext : s.nextEdge = e := nextEdge_of_edges hedges
    obtain ⟨⟨hrst, hvalid⟩, hquiet⟩ := List.forall_mem_cons.mp hquiet
    obtain ⟨he, hstall⟩ := List.forall_mem_cons.mp hstall
    have hstep := step_stalled (hnext ▸ hrst) (holdBroken_of_held_none hheld) hpending hflight (hnext ▸ he)
    obtain ⟨t, r, hrun, hanswer⟩ := ih s.advance es hflight hpending (Nat.succ.inj hlength)
      (by rw [advance_edges, hedges]; rfl) (heldAfter_of_not_cmdValid (hnext ▸ hvalid)) hquiet hstall hgo
    exact ⟨t, r, (runEdges_succ_of_next hstep _).trans hrun, hanswer⟩

/-- The edges `es` take `s` to `t`, but for the edges to come, whatever edges follow. -/
def Runs (es : List Edge) (s t : State) : Prop :=
  ∀ rest, runEdges es.length (s.withEdges (es ++ rest)) = .next (t.withEdges rest)

theorem Runs.nil : Runs [] s s := fun _ => rfl

theorem Runs.append {es fs : List Edge} (h : Runs es s t) (h' : Runs fs t u) : Runs (es ++ fs) s u := by
  intro rest
  rw [List.length_append, List.append_assoc, runEdges_add_of_next (h (fs ++ rest))]
  exact h' rest

theorem Runs.single (h : ∀ rest, step (s.withEdges (e :: rest)) = .next (t.withEdges rest)) : Runs [e] s t :=
  fun rest => runEdges_succ_of_next (h rest) 0

theorem Runs.replicate (h : Runs [e] s s) : ∀ k, Runs (List.replicate k e) s s
  | 0 => .nil
  | k + 1 => h.append (Runs.replicate h k)

/-! ## A command reads the build and the sketch alone -/

/-- The build and the sketch of `s`, and the channels of `c`: `BUSY`, the response, the command in flight and the
host's side. -/
def State.withChannelsOf (s c : State) : State := { c with build := s.build, cfg := s.cfg, mem := s.mem }

/-- The state with this sketch and this response, no command in flight, and otherwise the channels of `c`. -/
def State.answered (s : State) (cfg : Cfg) (mem : Memory) (r : Response) (c : State) : State :=
  { c with build := s.build, cfg := cfg, mem := mem, rspPending := some r, inFlight := none }

/-- The sketch and the response that are left are the same whatever the channels are. -/
def AnswersAlike (run : State → Host.Outcome State Fault Refusal) (s : State) : Prop :=
  ∃ cfg mem r, ∀ c, run (s.withChannelsOf c) = .next (s.answered cfg mem r c)

theorem exec_answersAlike (i : Instr) (s : State) : AnswersAlike (exec i) s := by
  cases i with
  | init p =>
    cases h : precisionOk s.build p with
    | true =>
      exact ⟨_, Memory.clearBelow s.mem (2 ^ p.toNat), _, fun c =>
        exec_init_of_precisionOk (s := s.withChannelsOf c) h⟩
    | false => exact ⟨_, _, _, fun c => exec_init_of_not_precisionOk (s := s.withChannelsOf c) h⟩
  | observe x =>
    cases h : s.cfg.configured with
    | true =>
      exact ⟨_, observeUpdate s.cfg.precision x s.mem, _, fun c =>
        exec_observe_of_configured (s := s.withChannelsOf c) x h⟩
    | false => exact ⟨_, _, _, fun c => exec_observe_of_unconfigured (s := s.withChannelsOf c) x h⟩
  | estimate =>
    cases h : s.cfg.configured with
    | true =>
      exact ⟨_, _, ⟨.ok, estimateBits s.cfg s.mem⟩, fun c =>
        exec_estimate_of_configured (s := s.withChannelsOf c) h⟩
    | false => exact ⟨_, _, _, fun c => withSketch_of_unconfigured (s := s.withChannelsOf c) h⟩
  | readReg j =>
    cases h : s.cfg.configured with
    | true =>
      rcases Nat.lt_or_ge j.toNat s.cfg.m with hj | hj
      · exact ⟨_, _, ⟨.ok, (Memory.read s.mem j.toNat).setWidth 64⟩, fun c =>
          exec_readReg_of_lt (s := s.withChannelsOf c) h hj⟩
      · exact ⟨_, _, _, fun c => exec_readReg_of_le (s := s.withChannelsOf c) h hj⟩
    | false => exact ⟨_, _, _, fun c => exec_readReg_of_unconfigured (s := s.withChannelsOf c) j h⟩
  | info sel =>
    simp only [AnswersAlike, exec, execInfo, withSketch, raiseError, State.withChannelsOf]
    by_cases h : s.cfg.configured = true
    all_goals
      simp only [h, if_true]
      split_ifs
      all_goals exact ⟨_, _, _, fun _ => rfl⟩

theorem runWord_answersAlike (w : Word) (s : State) : AnswersAlike (runWord w) s := by
  unfold runWord
  cases decode w with
  | ok i => exact exec_answersAlike i s
  | error e => exact ⟨_, _, _, fun _ => rfl⟩

/-! ## The edges of a delivery -/

theorem runs_idle (hs : s.Idle) : Runs [Edge.quiet] s s :=
  .single fun rest => (step_of_idle (s := s.withEdges (Edge.quiet :: rest)) hs.inFlight hs.rspPending rfl rfl).trans
    (congrArg _ (advance_withEdges hs.held rfl rest))

theorem runs_offer (hs : s.Idle) (w : Word) : Runs [Edge.offer w] s (acceptCommand w s) :=
  .single fun rest => (step_accept (s := s.withEdges (Edge.offer w :: rest)) rfl (holdBroken_of_held_none hs.held)
      hs.rspPending hs.inFlight rfl hs.busy).trans
    (congrArg (fun t => Host.Outcome.next (acceptCommand w t))
      (advance_withEdges hs.held (heldAfter_of_cmdReady (cmdReady_of_not_busy hs.busy)) rest))

section
variable (hheld : s.env.held = none)
include hheld

theorem runs_stalled (hpending : s.rspPending = none) (hflight : s.inFlight = some w) : Runs [Edge.stalled] s s :=
  .single fun rest => (step_stalled (s := s.withEdges (Edge.stalled :: rest)) rfl (holdBroken_of_held_none hheld)
      hpending hflight rfl).trans
    (congrArg _ (advance_withEdges hheld rfl rest))

theorem runs_execute (hpending : s.rspPending = none) (hflight : s.inFlight = some w)
    (hrun : ∀ rest, runWord w (s.withEdges rest) = .next (t.withEdges rest)) : Runs [Edge.quiet] s t :=
  .single fun rest => (step_execute (s := s.withEdges (Edge.quiet :: rest)) rfl (holdBroken_of_held_none hheld)
      hpending hflight rfl).trans
    ((congrArg (runWord w) (advance_withEdges hheld rfl rest)).trans (hrun rest))

theorem runs_not_taken {r : Response} (hpending : s.rspPending = some r) : Runs [Edge.quiet] s s :=
  .single fun rest => (step_not_taken (s := s.withEdges (Edge.quiet :: rest)) rfl (holdBroken_of_held_none hheld)
      hpending rfl).trans
    (congrArg _ (advance_withEdges hheld rfl rest))

theorem runs_take {r : Response} (hpending : s.rspPending = some r) : Runs [Edge.take] s (takeResponse r s) :=
  .single fun rest => (step_transfer (s := s.withEdges (Edge.take :: rest)) rfl (holdBroken_of_held_none hheld)
      hpending rfl).trans
    (congrArg (fun t => Host.Outcome.next (takeResponse r t)) (advance_withEdges hheld rfl rest))

end

theorem transaction_of_runWord {r : Response} (h : runWord w s = .next t) (hpending : t.rspPending = some r) :
    transaction w s = .next (takeResponse r t) := by
  rw [transaction, h]
  simp only [hpending]

/-- The part of a delivery after acceptance: the stalls, the atomic step, and the response taken after a delay. -/
theorem runs_accepted {r : Response} (hheld : s.env.held = none) (hpending : s.rspPending = none)
    (hflight : s.inFlight = some w) (hrun : ∀ rest, runWord w (s.withEdges rest) = .next (t.withEdges rest))
    (hanswer : t.rspPending = some r) (hheld' : t.env.held = none) (stalls takeDelay : Nat) :
    Runs (List.replicate stalls Edge.stalled ++ [Edge.quiet] ++ List.replicate takeDelay Edge.quiet ++ [Edge.take])
      s (takeResponse r t) :=
  (((runs_stalled hheld hpending hflight).replicate stalls).append (runs_execute hheld hpending hflight hrun)
    |>.append ((runs_not_taken hheld' hanswer).replicate takeDelay)).append (runs_take hheld' hanswer)

/-- A delivery takes an idle state to the idle state that the transaction of its word leaves. -/
theorem delivery_runs (d : Delivery) (hs : s.Idle) : ∃ t, t.Idle ∧ Runs d.edges s t ∧
    ∀ rest, transaction d.word (s.withEdges rest) = .next (t.withEdges rest) := by
  obtain ⟨cfg, mem, r, hrun⟩ := runWord_answersAlike d.word s
  refine ⟨takeResponse r (s.answered cfg mem r (acceptCommand d.word s)), ⟨rfl, rfl, rfl, hs.held⟩, ?_,
    fun rest => transaction_of_runWord (hrun (s.withEdges rest)) rfl⟩
  have hbefore := ((runs_idle hs).replicate d.offerDelay).append (runs_offer hs d.word)
  have hafter := runs_accepted (s := acceptCommand d.word s) (t := s.answered cfg mem r (acceptCommand d.word s))
    hs.held hs.rspPending rfl (fun rest => hrun ((acceptCommand d.word s).withEdges rest)) rfl hs.held
    d.stalls d.takeDelay
  simpa [Delivery.edges] using hbefore.append hafter

/-- Deliveries take an idle state to the state that their transactions leave. -/
theorem deliveries_run (ds : List Delivery) (hs : s.Idle) : ∃ t, Runs (deliveryEdges ds) s t ∧
    ∀ rest, transactions (ds.map Delivery.word) (s.withEdges rest) = .next (t.withEdges rest) := by
  induction ds generalizing s with
  | nil => exact ⟨s, .nil, fun _ => rfl⟩
  | cons d ds ih =>
    obtain ⟨u, hu, hruns, htransaction⟩ := delivery_runs d hs
    obtain ⟨t, hruns', htransactions⟩ := ih hu
    refine ⟨t, hruns.append hruns', fun rest => ?_⟩
    rw [List.map_cons, transactions, htransaction]
    exact htransactions rest

/-- Settles O20: from an idle state the edges of the deliveries and the transactions leave one state. -/
theorem deliveriesRefineTransactions : Obligations.DeliveriesRefineTransactions := by
  intro ds rest s hs hedges
  obtain ⟨t, hruns, htransactions⟩ := deliveries_run ds hs
  have hrun := hruns rest
  rw [← hedges, withEdges_edges] at hrun
  exact hrun.trans (htransactions rest).symm

end Sys2Proof.Machine
end

section
/-! SUPPORT. Proofs about the invariant: what a command word does to the sketch, what each kind of step keeps, and who
writes the configuration and the entries (spec/10_state.md R22 to R35). -/

namespace Sys2Proof.Machine

variable {s t : State} {w : Word} {i : Instr}

/-! ## What a command word does to the sketch -/

/-- A word leaves the sketch alone, or decodes to a command that changes it. -/
inductive WordChange (w : Word) (s t : State) : Prop where
  | unchanged (cfg : t.cfg = s.cfg) (mem : t.mem = s.mem)
  | constructed (p : Operand) (isInit : decode w = .ok (.init p)) (ok : precisionOk s.build p = true)
      (cfg : t.cfg = Cfg.construct p) (mem : t.mem = Memory.clearBelow s.mem (2 ^ p.toNat))
  | updated (x : Operand) (isObserve : decode w = .ok (.observe x)) (configured : s.cfg.configured = true)
      (cfg : t.cfg = s.cfg) (mem : t.mem = observeUpdate s.cfg.precision x s.mem)

theorem sketchChange_of_exec (h : exec i s = .next t) : SketchChange i s t := by
  obtain ⟨u, -, hu, -, -, -, -, -, -, change⟩ := exec_next i s
  obtain rfl : u = t := by injection hu.symm.trans h
  exact change

theorem wordChange_of_runWord (h : runWord w s = .next t) : WordChange w s t := by
  rcases runWord_cases w s with ⟨i, hi, hrun⟩ | ⟨e, -, hrun⟩
  · cases sketchChange_of_exec (hrun.symm.trans h) with
    | unchanged cfg mem => exact .unchanged cfg mem
    | constructed p isInit ok cfg mem => exact .constructed p (isInit ▸ hi) ok cfg mem
    | updated x isObserve configured cfg mem => exact .updated x (isObserve ▸ hi) configured cfg mem
  · obtain rfl := respond_eq_next.mp (hrun.symm.trans h)
    exact .unchanged rfl rfl

/-- Settles O26: of the changes a command can make, the two that write the array name their command. -/
theorem onlyInitAndObserveWriteEntries : Obligations.OnlyInitAndObserveWriteEntries := by
  intro i s t h hne
  cases sketchChange_of_exec h with
  | unchanged _ mem => exact absurd mem hne
  | constructed p isInit => exact .inl ⟨p, isInit⟩
  | updated x isObserve => exact .inr ⟨x, isObserve⟩

/-! ## The sketch's part of the invariant -/

/-- The fields of `State.Inv` that speak of the sketch. -/
structure SketchInv (b : Config.Build) (c : Cfg) (m : Memory) : Prop where
  canonical : Memory.wf m
  physical : ∀ e ∈ m, e.1 < 2 ^ b.pMax
  unconfigured : c.configured = false → c.p = 0
  precision : c.configured = true → 1 ≤ c.precision ∧ c.precision ≤ b.pMax
  constants : c.configured = true → c.alpha = alphaOf c.precision ∧ c.thresh = thresholdOf c.precision
  entries : c.configured = true → ∀ j < c.m, legalEntry c.precision (Memory.read m j)

theorem State.Inv.sketch (h : s.Inv) : SketchInv s.build s.cfg s.mem := { h with }

theorem SketchInv.inv (h : SketchInv s.build s.cfg s.mem)
    (busy : s.busy = (s.inFlight.isSome || s.rspPending.isSome)) (one : s.inFlight = none ∨ s.rspPending = none)
    (error : ∀ r, s.rspPending = some r → r.status ≠ .ok → r.data = 0) : s.Inv :=
  { h with busy := busy, oneInFlight := one, errorData := error }

section
variable {b : Config.Build} {c : Cfg} {m : Memory}

theorem SketchInv.reset (b : Config.Build) : SketchInv b Cfg.reset [] where
  canonical := reset_mem_wf
  physical := fun _ h => absurd h List.not_mem_nil
  unconfigured := fun _ => rfl
  precision := fun h => absurd h (by decide)
  constants := fun h => absurd h (by decide)
  entries := fun h => absurd h (by decide)

theorem SketchInv.construct (h : SketchInv b c m) {p : Operand} (hp : precisionOk b p = true) :
    SketchInv b (Cfg.construct p) (Memory.clearBelow m (2 ^ p.toNat)) := by
  obtain ⟨hmin, hmax⟩ := precisionOk_eq_true_iff.mp hp
  obtain ⟨hone, -, halpha, hthresh⟩ := construct_constructed hmin hmax
  have hprecision := construct_precision hmax
  refine ⟨clearBelow_wf m _ h.canonical, fun e he => h.physical e (List.mem_filter.mp he).1,
    fun hc => Bool.noConfusion hc, fun _ => ⟨hone, hprecision.trans_le hmax⟩, fun _ => ⟨halpha, hthresh⟩,
    fun _ j hj => ?_⟩
  rw [Cfg.m, hprecision] at hj
  rw [read_clearBelow_lt m j hj]
  exact .inl (Nat.zero_le _)

/-- The rank of a hash word is a value of R30. -/
theorem legalEntry_hashRank {p : Nat} (hp : p ≤ 32) (x : Operand) : legalEntry p (hashRank p x) := by
  rw [legalEntry, hashRank_toNat]
  by_cases hw : highBits p x = 0
  · rw [hw]
    exact .inr rfl
  · exact .inl ((rank_le_iff hw _).mpr (highBits_lt_two_pow_sub hp x))

/-- The maximum of two entries is one of them. -/
theorem legalEntry_entryMax {p : Nat} {a e : Entry} (ha : legalEntry p a) (he : legalEntry p e) :
    legalEntry p (entryMax a e) := by
  unfold entryMax
  split
  · exact he
  · exact ha

theorem SketchInv.observe (h : SketchInv b c m) (hconfigured : c.configured = true) (x : Operand) :
    SketchInv b c (observeUpdate c.precision x m) := by
  have hmax := (h.precision hconfigured).2
  refine { h with
    canonical := observeUpdate_wf _ x h.canonical, physical := fun e he => ?_, entries := fun _ j hj => ?_ }
  · rcases mem_write _ _ _ he with he | ⟨rfl, -⟩
    · exact h.physical e he
    · exact (bucketIndex_lt _ x).trans_le (Nat.pow_le_pow_right two_pos hmax)
  · have hold := h.entries hconfigured j hj
    rw [read_observeUpdate]
    split
    · exact legalEntry_entryMax hold (legalEntry_hashRank (hmax.trans (pMax_le b)) x)
    · exact hold

theorem SketchInv.of_wordChange (h : SketchInv b s.cfg s.mem) (hb : s.build = b) (change : WordChange w s t) :
    SketchInv b t.cfg t.mem := by
  cases change with
  | unchanged cfg mem => rw [cfg, mem]; exact h
  | constructed p _ ok cfg mem => rw [cfg, mem]; exact h.construct (hb ▸ ok)
  | updated x _ configured cfg mem => rw [cfg, mem]; exact h.observe configured x

end

/-! ## Every step keeps the invariant -/

theorem inv_resetOf (b : Config.Build) (e : Env) : (State.resetOf b e).Inv :=
  SketchInv.inv (SketchInv.reset b) rfl (.inl rfl) (fun _ h => by cases h)

/-- Settles O21: nothing is configured, listed, in flight or pending after reset. -/
theorem resetMeetsTheInvariant : Obligations.ResetMeetsTheInvariant :=
  ⟨inv_resetOf _ _, rfl, inv_resetOf⟩

theorem State.Inv.advance (h : s.Inv) : s.advance.Inv := { h with }

theorem State.Inv.takeResponse (h : s.Inv) {r : Response} (hpending : s.rspPending = some r) :
    (takeResponse r s).Inv := by
  have hflight : s.inFlight = none := h.oneInFlight.resolve_right (by simp [hpending])
  exact SketchInv.inv h.sketch (by simp [hflight]) (.inl hflight) (fun _ h => by cases h)

theorem State.Inv.acceptCommand (h : s.Inv) (w : Word) (hpending : s.rspPending = none) : (acceptCommand w s).Inv :=
  SketchInv.inv h.sketch rfl (.inr hpending) h.errorData

theorem State.Inv.runWord (h : s.Inv) (hflight : s.inFlight = some w) (hrun : runWord w s = .next t) : t.Inv := by
  have change := wordChange_of_runWord hrun
  obtain ⟨u, r, hu, hr, herror, hnone, hbuild, hbusy, -⟩ := runWord_next w s
  obtain rfl : u = t := by injection hu.symm.trans hrun
  refine SketchInv.inv (hbuild ▸ h.sketch.of_wordChange rfl change) ?_ (.inl hnone) fun q hq hstatus => ?_
  · rw [hbusy, h.busy, hflight, hr]
    simp
  · obtain rfl : r = q := by injection hr.symm.trans hq
    exact (herror hstatus).1

/-- Settles O22, by the kinds of a step; the sketch changes by the atomic step of a command alone. -/
theorem stepKeepsTheInvariant : Obligations.StepKeepsTheInvariant := by
  intro s t h hstep
  cases stepTo_of_step hstep with
  | reset _ eq => exact eq ▸ inv_resetOf _ _
  | transfer r _ pending _ eq => exact eq ▸ h.advance.takeResponse pending
  | execute w _ _ flight _ eq => exact h.advance.runWord flight eq
  | accept _ pending _ _ eq => exact eq ▸ h.advance.acceptCommand _ pending
  | wait _ eq => exact eq ▸ h.advance

/-! ## Who writes the configuration and the entries -/

theorem build_of_runWord (h : runWord w s = .next t) : t.build = s.build := by
  obtain ⟨u, -, hu, -, -, -, hbuild, -⟩ := runWord_next w s
  obtain rfl : u = t := by injection hu.symm.trans h
  exact hbuild

/-- Settles O24, by the kinds of a step. -/
theorem onlyInitWritesTheConfiguration : Obligations.OnlyInitWritesTheConfiguration := by
  intro s t hstep
  cases stepTo_of_step hstep with
  | reset rst eq => subst eq; exact ⟨rfl, .inr (.inl ⟨rst, rfl, rfl⟩)⟩
  | transfer _ _ _ _ eq => subst eq; exact ⟨rfl, .inl rfl⟩
  | accept _ _ _ _ eq => subst eq; exact ⟨rfl, .inl rfl⟩
  | wait _ eq => subst eq; exact ⟨rfl, .inl rfl⟩
  | execute w rst _ flight _ eq =>
    refine ⟨build_of_runWord (s := s.advance) eq, ?_⟩
    cases wordChange_of_runWord eq with
    | unchanged cfg => exact .inl cfg
    | updated _ _ _ cfg => exact .inl cfg
    | constructed p isInit ok cfg =>
      obtain ⟨hmin, hmax⟩ := precisionOk_eq_true_iff.mp ok
      refine .inr (.inr ⟨rst, w, p, flight, isInit, hmin, hmax, ?_⟩)
      rw [cfg]
      exact ⟨rfl, construct_precision hmax, rfl, rfl⟩

theorem read_le_read_observeUpdate (p : Nat) (x : Operand) (m : Memory) (j : Nat) :
    (Memory.read m j).toNat ≤ (Memory.read (observeUpdate p x m) j).toNat := by
  rw [read_observeUpdate]
  split
  · rw [entryMax_toNat]; exact le_max_left _ _
  · exact le_rfl

/-- Settles O25: reset and a legal INIT are excluded, and OBSERVE takes a maximum. -/
theorem entriesNeverDecrease : Obligations.EntriesNeverDecrease := by
  intro s t hstep hrst hnoInit j
  cases stepTo_of_step hstep with
  | reset rst => exact absurd (hrst.symm.trans rst) (by decide)
  | transfer _ _ _ _ eq => subst eq; exact le_rfl
  | accept _ _ _ _ eq => subst eq; exact le_rfl
  | wait _ eq => subst eq; exact le_rfl
  | execute w _ pending flight go eq =>
    cases wordChange_of_runWord eq with
    | unchanged _ mem => rw [mem]; exact le_rfl
    | updated x _ _ _ mem => rw [mem]; exact read_le_read_observeUpdate _ x s.mem j
    | constructed p isInit ok =>
      have hlegal := precisionOk_eq_true_iff.mp ok
      have hillegal := hnoInit pending go w p flight isInit
      rw [advance_build] at hlegal
      omega

end Sys2Proof.Machine
end

section
/-! SUPPORT. Proofs about the values the spec leaves unspecified: states that differ there alone do the same at each
edge, and each command answers them alike (spec/10_state.md R29, R35; 70_reset_and_hazards.md R231). -/

namespace Sys2Proof.Machine

variable {s t : State}

/-! ## Outcomes -/

theorem SameSpecified.respond (h : SameSpecified s t) (st : Status) (d : Word) :
    SameOutcome (respond st d s) (respond st d t) :=
  { h with rspPending := rfl, inFlight := rfl }

theorem SameSpecified.raiseError (h : SameSpecified s t) (st : Status) :
    SameOutcome (raiseError st s) (raiseError st t) := h.respond st 0

/-- A check for a sketch passes in both states or in neither, so what comes after it is compared with a sketch only. -/
theorem SameSpecified.withSketch (h : SameSpecified s t) {f g : Host.Outcome State Fault Refusal}
    (hgo : s.cfg.configured = true → SameOutcome f g) : SameOutcome (withSketch s f) (withSketch t g) := by
  cases hs : s.cfg.configured with
  | true =>
    rw [withSketch_of_configured hs, withSketch_of_configured (h.configured.symm.trans hs)]
    exact hgo hs
  | false =>
    rw [withSketch_of_unconfigured hs, withSketch_of_unconfigured (h.configured.symm.trans hs)]
    exact h.raiseError _

/-! ## Commands -/

theorem SameSpecified.cfg_eq (h : SameSpecified s t) (hs : s.cfg.configured = true) : s.cfg = t.cfg := by
  calc s.cfg = ⟨s.cfg.configured, s.cfg.p, s.cfg.alpha, s.cfg.thresh⟩ := rfl
    _ = ⟨t.cfg.configured, t.cfg.p, t.cfg.alpha, t.cfg.thresh⟩ := by
      rw [h.configured, h.p, h.alpha hs, h.thresh hs]
    _ = t.cfg := rfl

/-- INIT writes all that it leaves below the new `m`. -/
theorem SameSpecified.init (h : SameSpecified s t) (p : Operand) :
    SameOutcome (exec (.init p) s) (exec (.init p) t) := by
  cases hp : precisionOk s.build p with
  | true =>
    rw [exec_init_of_precisionOk hp, exec_init_of_precisionOk (h.build ▸ hp)]
    refine { h with
      configured := rfl, p := rfl, alpha := fun _ => rfl, thresh := fun _ => rfl, rspPending := rfl, inFlight := rfl,
      entries := fun _ j hj => ?_ }
    have hj : j < 2 ^ p.toNat := by
      rwa [Cfg.m, construct_precision (precisionOk_eq_true_iff.mp hp).2] at hj
    rw [read_clearBelow_lt _ _ hj, read_clearBelow_lt _ _ hj]
  | false =>
    rw [exec_init_of_not_precisionOk hp, exec_init_of_not_precisionOk (h.build ▸ hp)]
    exact h.respond .configError 0

/-- OBSERVE makes an entry below `m` from that entry alone. -/
theorem SameSpecified.observe (h : SameSpecified s t) (x : Operand) :
    SameOutcome (exec (.observe x) s) (exec (.observe x) t) := by
  refine h.withSketch fun hs => ?_
  refine { h with entries := fun _ j hj => ?_, rspPending := rfl, inFlight := rfl }
  change Memory.read (observeUpdate s.cfg.precision x s.mem) j = Memory.read (observeUpdate t.cfg.precision x t.mem) j
  rw [← h.cfg_eq hs, read_observeUpdate, read_observeUpdate, h.entries hs j hj]

theorem SameSpecified.estimate (h : SameSpecified s t) : SameOutcome (exec .estimate s) (exec .estimate t) := by
  refine h.withSketch fun hs => ?_
  rw [← h.cfg_eq hs, estimateBits_congr s.cfg (h.entries hs)]
  exact h.respond _ _

theorem SameSpecified.readReg (h : SameSpecified s t) (j : Operand) :
    SameOutcome (exec (.readReg j) s) (exec (.readReg j) t) := by
  refine h.withSketch fun hs => ?_
  rw [← h.cfg_eq hs]
  split
  · exact h.raiseError _
  · next hj =>
    rw [h.entries hs _ (not_le.mp hj)]
    exact h.respond _ _

/-- INFO 0 shows `CONFIGURED` and `P`, INFO 3 the build; the others need a sketch. -/
theorem SameSpecified.info (h : SameSpecified s t) (sel : BitVec 8) :
    SameOutcome (exec (.info sel) s) (exec (.info sel) t) := by
  have hinfo : info0 s.cfg = info0 t.cfg := by
    rw [info0, info0, Cfg.precision, Cfg.precision, h.configured, h.p]
  simp only [exec, execInfo]
  split_ifs
  · exact hinfo ▸ h.respond _ _
  · exact h.withSketch fun hs => h.alpha hs ▸ h.respond _ _
  · exact h.withSketch fun hs => h.thresh hs ▸ h.respond _ _
  · exact h.build ▸ h.respond _ _
  · exact h.raiseError _

theorem SameSpecified.runWord (h : SameSpecified s t) (w : Word) : SameOutcome (runWord w s) (runWord w t) := by
  unfold Machine.runWord
  cases decode w with
  | error e => exact h.raiseError _
  | ok i =>
    cases i with
    | init p => exact h.init p
    | observe x => exact h.observe x
    | estimate => exact h.estimate
    | readReg j => exact h.readReg j
    | info sel => exact h.info sel

/-! ## Edges -/

/-- What an edge does is read from specified state. -/
theorem SameSpecified.edgeAction_eq (h : SameSpecified s t) :
    edgeAction s.nextEdge s = edgeAction t.nextEdge t := by
  unfold edgeAction holdBroken State.cmdReady State.nextEdge
  rw [h.env, h.busy, h.rspPending, h.inFlight]

theorem SameSpecified.advance (h : SameSpecified s t) : SameSpecified s.advance t.advance := by
  have hheld : heldAfter s.nextEdge s = heldAfter t.nextEdge t := by
    unfold heldAfter State.cmdReady State.nextEdge
    rw [h.env, h.busy]
  refine { h with env := ?_ }
  change Env.mk s.env.edges.tail (heldAfter s.nextEdge s) s.env.received =
    Env.mk t.env.edges.tail (heldAfter t.nextEdge t) t.env.received
  rw [hheld, h.env]

theorem SameSpecified.resetState (h : SameSpecified s t) : resetState s = resetState t := by
  rw [resetState_eq, resetState_eq, h.build, h.env]

theorem SameSpecified.refl (s : State) : SameSpecified s s :=
  ⟨rfl, rfl, rfl, fun _ => rfl, fun _ => rfl, fun _ _ _ => rfl, rfl, rfl, rfl, rfl⟩

theorem SameSpecified.takeResponse (h : SameSpecified s t) (r : Response) :
    SameSpecified (takeResponse r s) (takeResponse r t) := by
  refine { h with busy := rfl, rspPending := rfl, env := ?_ }
  change { s.env with received := s.env.received ++ [r] } = { t.env with received := t.env.received ++ [r] }
  rw [h.env]

theorem SameSpecified.acceptCommand (h : SameSpecified s t) (w : Word) :
    SameSpecified (acceptCommand w s) (acceptCommand w t) :=
  { h with busy := rfl, inFlight := rfl }

/-- Settles O23: both states do the same at the edge, and each thing an edge can do keeps them alike. -/
theorem unspecifiedValuesAreNeverShown : Obligations.UnspecifiedValuesAreNeverShown := by
  intro s t h
  rw [step_eq, step_eq, edgeStep, edgeStep, ← h.edgeAction_eq]
  cases edgeAction s.nextEdge s with
  | reset => exact h.advance.resetState ▸ SameSpecified.refl _
  | holdBroken => exact rfl
  | transfer r => exact h.advance.takeResponse r
  | execute w => exact h.advance.runWord w
  | accept w => exact h.advance.acceptCommand w
  | wait => exact h.advance

end Sys2Proof.Machine
end

section
/-! SUPPORT. Proofs about OBSERVE of the same hash word twice (spec/41_observe.md R127). -/

namespace Sys2Proof.Machine

theorem entryMax_right_idem (a b : Entry) : entryMax (entryMax a b) b = entryMax a b :=
  BitVec.eq_of_toNat_eq (by simp only [entryMax_toNat, max_assoc, max_self])

theorem observeUpdate_idem (p : Nat) (x : Operand) {m : Memory} (hm : Memory.wf m) :
    observeUpdate p x (observeUpdate p x m) = observeUpdate p x m := by
  refine memory_ext (observeUpdate_wf p x (observeUpdate_wf p x hm)) (observeUpdate_wf p x hm) fun j => ?_
  by_cases hj : j = bucketIndex p x
  · simp only [read_observeUpdate, if_pos hj]
    exact entryMax_right_idem ..
  · simp only [read_observeUpdate, if_neg hj]

/-- Settles O35: with a sketch the second update finds the maximum already taken, without one nothing is updated. -/
theorem observeIsIdempotent : Obligations.ObserveIsIdempotent := by
  intro x s t hm ht
  cases h : s.cfg.configured with
  | true =>
    obtain rfl := Host.Outcome.next.inj ((exec_observe_of_configured x h).symm.trans ht)
    simp only [exec_observe_of_configured, h, observeUpdate_idem _ x hm]
  | false =>
    obtain rfl := Host.Outcome.next.inj ((exec_observe_of_unconfigured x h).symm.trans ht)
    simp only [exec_observe_of_unconfigured, h]

end Sys2Proof.Machine
end

section
/-! SUPPORT. Proofs about the constants of INIT: the table of alpha and its stepwise rounding
(spec/40_construct.md R103, 93_implementation_defined.md N1). -/

namespace Sys2Proof.Machine

/-! ## The table of alpha (R103) -/

theorem alphaOf_of_le {p : Nat} (h : p ≤ 16) : alphaOf p = lit 673 1000 := if_pos h

theorem lit_673 : lit 673 1000 = 0x3FE589374BC6A7F0 := by decide +kernel

theorem lit_1079 : lit 1079 1000 = 0x3FF14395810624DD := by decide +kernel

/-- A quotient by `2^p` is exact where the exponent stays above 0. -/
theorem toRat_fdiv_two_pow {a b : F64} {p : Nat} (ha : F64.finite a) (hx : p < a.exponent)
    (hb : F64.toRat b = 2 ^ p) : F64.toRat (fdiv a b) = F64.toRat a / 2 ^ p := by
  obtain ⟨m, hm, he, hu⟩ := exists_parts ha
  have hv := toRat_value_div a b
  have hpos : 0 < F64.toRat b := hb ▸ by positivity
  have hsplit : a.exponent - 1 = a.exponent - 1 - p + p := by omega
  have h := toRat_f64 (m := m) (e := a.exponent - 1 - p) (den_value_div_pos (a := a) hpos) hm (by omega) (by
    rw [hv, hb, toRat_eq, hu, hsplit, pow_add, Nat.add_sub_cancel]
    push_cast
    rw [div_mul_eq_mul_div, div_mul_cancel₀ _ unit_pos.ne', ← mul_assoc, mul_div_cancel_right₀ _ (by positivity)])
  exact h.2.trans (hv.trans (by rw [hb]))

/-- Settles O29: the literals and the table are evaluated; `lit(1.079)` is normal, so a power of two divides it. -/
theorem alphaIsTheTableOfTheSpec : Obligations.AlphaIsTheTableOfTheSpec := by
  refine ⟨fun p _ hp => (alphaOf_of_le hp).trans lit_673, by decide +kernel, by decide +kernel, by decide +kernel,
    lit_1079, lit_five_halves, fun p _ hp => ?_⟩
  have hexponent : F64.exponent 0x3FF14395810624DD = 1023 := by decide
  rw [lit_1079]
  exact toRat_fdiv_two_pow (by unfold F64.finite; decide) (by omega) (toRat_f64OfNat_two_pow (by omega)).2

/-! ## Alpha rounded once (N1) -/

/-- The third branch of alpha with the rounded literals, and only the result rounded. -/
def alphaOfConstants (p : Nat) : F64 :=
  f64 ((F64.value (lit 7213 10000)).div
    (Ratio.add (Ratio.ofNat 1) ((F64.value (lit 1079 1000)).div (Ratio.ofNat (2 ^ p)))))

/-- The third branch of alpha with the exact decimals, and only the result rounded. -/
def alphaOfDecimals (p : Nat) : F64 :=
  f64 (Ratio.div ⟨7213, 10000⟩ (Ratio.add (Ratio.ofNat 1) (Ratio.div ⟨1079, 1000⟩ (Ratio.ofNat (2 ^ p)))))

/-- The two encodings differ by one unit in the last place. -/
abbrev OneUlpApart (a b : F64) : Prop := a = b + 1 ∨ b = a + 1

theorem alphaOf_ne_constants : ∀ p < 32, 17 ≤ p →
    (alphaOf p ≠ alphaOfConstants p ↔ p ∈ [17, 18, 20, 21]) ∧
      (alphaOf p ≠ alphaOfConstants p → OneUlpApart (alphaOf p) (alphaOfConstants p)) := by decide +kernel

theorem alphaOf_ne_decimals : ∀ p < 32, 17 ≤ p →
    (alphaOf p ≠ alphaOfDecimals p ↔ p ∈ [17, 18, 20, 21, 23, 24, 26, 27, 30, 31]) ∧
      (alphaOf p ≠ alphaOfDecimals p → OneUlpApart (alphaOf p) (alphaOfDecimals p)) := by decide +kernel

/-- Settles O30, by evaluation for each of the fifteen precisions. -/
theorem alphaIsRoundedStepByStep : Obligations.AlphaIsRoundedStepByStep := by
  intro p hmin hmax
  obtain ⟨hconstants, hulp⟩ := alphaOf_ne_constants p (Nat.lt_succ_of_le hmax) hmin
  obtain ⟨hdecimals, hulp'⟩ := alphaOf_ne_decimals p (Nat.lt_succ_of_le hmax) hmin
  exact ⟨hconstants, hdecimals, hulp, hulp'⟩

end Sys2Proof.Machine
end

section
/-! SUPPORT. Proofs about the branches of ESTIMATE: the bounds of the raw estimate, its comparison with the threshold,
and the product of linear counting (spec/42_estimate.md R140, R143, R146 to R149). -/

namespace Sys2Proof.Machine

open Laws

/-! ## The raw estimate and the threshold (R140, R147, R149) -/

/-- Settles O39: up to `p = 20` the sum has at most 53 bits. -/
theorem harmonicRoundingIsExactUpTo20 : Obligations.HarmonicRoundingIsExactUpTo20 :=
  fun s _ _ hp => harmonic64_exact hp s.mem

section
variable {c : Cfg} (hc : c.Constructed)
include hc

theorem m_le : (c.m : ℚ) ≤ 2 ^ 32 := by
  rw [cast_m]
  exact pow_le_pow_right₀ one_le_two hc.le

/-- Alpha is below 1 and `m` at most `2^32`. -/
theorem toRat_rawEstimate_lt (m : Memory) : F64.toRat (rawEstimate c m) < 2 ^ 64 := by
  have hm := two_le_m hc
  calc F64.toRat (rawEstimate c m) ≤ F64.toRat c.alpha * c.m * 2 ^ 32 := (rawEstimate_bounds hc m).2.2
    _ < 1 * c.m * 2 ^ 32 := by gcongr; exact (alpha_bounds hc).2
    _ ≤ 1 * 2 ^ 32 * 2 ^ 32 := by gcongr; exact m_le hc
    _ = 2 ^ 64 := by norm_num

theorem toRat_thresh : F64.toRat c.thresh = 5 / 2 * c.m := by
  rw [hc.thresh, (thresholdOf_exact (hc.le.trans (by norm_num))).1, cast_m]

theorem fle_thresh_iff (m : Memory) :
    fle (rawEstimate c m) c.thresh = true ↔ F64.toRat (rawEstimate c m) ≤ 5 / 2 * c.m := by
  rw [fle, decide_eq_true_iff, ← toRat_le_iff, toRat_thresh hc]

end

/-- Settles O42: the bounds of the quotient are those of the harmonic sum, and `m` is at most `2^32`. -/
theorem rawEstimateIsBounded : Obligations.RawEstimateIsBounded := by
  intro s hinv hconfigured
  have hc := hinv.constructed hconfigured
  obtain ⟨-, hlower, hupper⟩ := rawEstimate_bounds hc s.mem
  exact ⟨harmonic64_pos hc s.mem, rawEstimate_positiveNormal hc s.mem, hlower, hupper,
    toRat_rawEstimate_lt hc s.mem⟩

/-- Settles O44: the order of encodings is that of the numbers, and the threshold is exactly `5/2 * m`. -/
theorem estimateHasTwoBranches : Obligations.EstimateHasTwoBranches := by
  intro s hinv hconfigured
  rw [← fle_thresh_iff (hinv.constructed hconfigured)]
  refine ⟨fun ⟨hle, hzero⟩ => ?_, fun hnot => ?_⟩
  · rw [estimateBits, hle, decide_eq_true hzero]
    rfl
  · exact if_neg (by rwa [Bool.and_eq_true, decide_eq_true_iff])

/-! ## Equality with the threshold (R140) -/

/-- The numerator at precision `p`. -/
def numeratorOf (p : Nat) : F64 := fmul (fmul (alphaOf p) (f64OfNat (2 ^ p))) (f64OfNat (2 ^ p))

theorem numerator_eq {c : Cfg} (hc : c.Constructed) : numerator c = numeratorOf c.precision := by
  rw [numerator, hc.alpha, numeratorOf, Cfg.m]

/-- The raw estimate where the harmonic sum `z` is exact, as a fraction: its denominator grows with `z`. -/
def exactQuotient (p z : Nat) : Ratio :=
  { num := (numeratorOf p).units * 2 ^ 32, den := z * 2 ^ F64.unitExp }

theorem rawEstimate_eq_exactQuotient {c : Cfg} (hc : c.Constructed) (hp : c.precision ≤ 20) (m : Memory) :
    rawEstimate c m = f64 (exactQuotient c.precision (harmonicFx c.precision m)) := by
  have hz : 0 < harmonicFx c.precision m := (Nat.two_pow_pos _).trans_le (harmonicFx_bounds _ m).1
  refine fdiv_eq_f64 (harmonic64_pos hc m) (Nat.mul_pos hz (Nat.two_pow_pos _)) ?_
  rw [harmonic64_exact hp, numerator_eq hc, toRat_eq, Ratio.toRat, exactQuotient, Nat.cast_mul, Nat.cast_mul,
    Nat.cast_pow, Nat.cast_pow, Nat.cast_ofNat]
  field_simp

theorem f64_exactQuotient_anti (p : Nat) {z z' : Nat} (hz : 0 < z) (h : z ≤ z') :
    (f64 (exactQuotient p z')).toNat ≤ (f64 (exactQuotient p z)).toNat := by
  refine f64_mono (Nat.mul_pos (hz.trans_le h) (Nat.two_pow_pos _)) (Nat.mul_pos hz (Nat.two_pow_pos _)) ?_
  exact Nat.mul_le_mul_left _ (Nat.mul_le_mul_right _ h)

/-- The last harmonic sum at which the exact quotient `N / Z` is not below the threshold. -/
def crossing (p : Nat) : Nat := (numeratorOf p).units * 2 ^ 32 / (thresholdOf p).units

/-- Up to `p = 20` the rounded quotient steps over the threshold from one harmonic sum to the next. -/
theorem exactQuotient_steps_over : ∀ p < 21, 1 ≤ p → 0 < crossing p ∧
    (thresholdOf p).toNat < (f64 (exactQuotient p (crossing p))).toNat ∧
    (f64 (exactQuotient p (crossing p + 1))).toNat < (thresholdOf p).toNat := by decide +kernel

theorem rawEstimate_ne_thresh {c : Cfg} (hc : c.Constructed) (hp : c.precision ≤ 20) (m : Memory) :
    rawEstimate c m ≠ c.thresh := by
  obtain ⟨hpos, habove, hbelow⟩ := exactQuotient_steps_over c.precision (Nat.lt_succ_of_le hp) hc.one_le
  have hz : 0 < harmonicFx c.precision m := (Nat.two_pow_pos _).trans_le (harmonicFx_bounds _ m).1
  rw [rawEstimate_eq_exactQuotient hc hp, hc.thresh]
  refine fun heq => absurd (congrArg BitVec.toNat heq) ?_
  rcases Nat.lt_or_ge (crossing c.precision) (harmonicFx c.precision m) with h | h
  · exact ((f64_exactQuotient_anti _ (Nat.succ_pos _) h).trans_lt hbelow).ne
  · exact (habove.trans_le (f64_exactQuotient_anti _ hz h)).ne'

/-- The harmonic sum nearest to the one at which `N / Z` is the threshold. -/
def nearestSum (p : Nat) : Nat := roundHalfEven ((numeratorOf p).units * 2 ^ 32) (thresholdOf p).units

/-- From `p = 21` on that harmonic sum gives the threshold. -/
theorem nearestSum_gives_threshold : ∀ p < 33, 21 ≤ p → 2 ^ p ≤ nearestSum p ∧ nearestSum p ≤ 2 ^ p * 2 ^ 32 ∧
    fdiv (numerator (Cfg.construct (BitVec.ofNat 32 p))) (f64 { num := nearestSum p, den := 2 ^ 32 }) =
      thresholdOf p := by decide +kernel

/-- Settles O45: the rounded quotient never rises with the harmonic sum, so one step over the threshold is enough. -/
theorem equalityWithTheThreshold : Obligations.EqualityWithTheThreshold :=
  ⟨fun s hinv hconfigured hp => rawEstimate_ne_thresh (hinv.constructed hconfigured) hp s.mem,
    fun p hmin hmax => ⟨nearestSum p, nearestSum_gives_threshold p (Nat.lt_succ_of_le hmax) hmin⟩⟩

/-! ## Linear counting (R149) -/

theorem ln64_le_sixtyFour {a : F64} (ha : F64.finite a) (h1 : 1 ≤ F64.toRat a) (h2 : F64.toRat a ≤ 2 ^ 32) :
    F64.toRat (ln64 a) ≤ 64 := by
  rcases h1.eq_or_lt with h | h
  · rw [eq_one_of_toRat ha h.symm, ln64_one, toRat_zero]
    norm_num
  · exact (ln64_bounds h h2).2.2

/-- The logarithm is at most 64, so the product by `m` stays in range. -/
theorem toRat_linearCount {p v : Nat} (hp : p ≤ 32) (hv : 0 < v) (hle : v ≤ 2 ^ p) :
    F64.toRat (linearCount (2 ^ p) v) = 2 ^ p * F64.toRat (ln64 (fdiv (f64OfNat (2 ^ p)) (f64OfNat v))) := by
  obtain ⟨hfinite, hone, hmax⟩ := linearCount_quotient_bounds hp hv hle
  have h32 := hmax.trans (pow_le_pow_right₀ one_le_two hp)
  have hexponent := exponent_lt_of_le_sixtyFour (ln64_le_sixtyFour hfinite hone h32)
  rw [linearCount, fmul_comm, (toRat_fmul_two_pow (ln64_finite hfinite hone h32) (hp.trans (by norm_num)) (by omega)
    (toRat_f64OfNat_two_pow (hp.trans (by norm_num))).2).2, mul_comm]

/-- The quotient of two powers of two is exact. -/
theorem toRat_fdiv_two_pows {p k : Nat} (hp : p ≤ 32) (hk : k ≤ p) :
    F64.toRat (fdiv (f64OfNat (2 ^ p)) (f64OfNat (2 ^ k))) = 2 ^ p / 2 ^ k := by
  have hm := (toRat_f64OfNat_two_pow (p := p) (by omega)).2
  have hkv := (toRat_f64OfNat_two_pow (p := k) (by omega)).2
  obtain ⟨hfinite, hvalue⟩ := toRat_f64_two_pow_div (p := p) (k := k) (by omega) (by omega)
  rw [fdiv_eq (hkv ▸ by positivity) hfinite (by rw [hvalue, hm, hkv]), hvalue]

/-- Settles O46: `m` is a power of two, so the product by it is exact, and so is its quotient by another one. -/
theorem linearCountingProductIsExact : Obligations.LinearCountingProductIsExact := by
  intro s hinv hconfigured hv
  have hp := (hinv.constructed hconfigured).le
  have hle := zeroCount_le s.cfg.precision s.mem
  obtain ⟨-, hone, hmax⟩ := linearCount_quotient_bounds hp hv hle
  rw [cast_m]
  refine ⟨hone, hmax, fun k hk => ?_, toRat_linearCount hp hv hle, linearCount_eq_zero_or_positiveNormal hp hv hle⟩
  rw [hk] at hle ⊢
  exact toRat_fdiv_two_pows hp ((Nat.pow_le_pow_iff_right one_lt_two).mp hle)

end Sys2Proof.Machine
end

section
/-! SUPPORT. Proofs about the nearest number: `f64` is correctly rounded with ties to even, overflows to infinity, and
`ln64` is correctly rounded wherever the search settles (spec/00_scope.md R15, 42_estimate.md R150). -/

namespace Sys2Proof.Machine

open Laws

/-! ## Nearest (R15) -/

/-- A number that has `x` on its side of the middle between it and any other number is nearest to `x`. -/
theorem abs_sub_le_of_middle {x y c : ℚ} (habove : y < c → 2 * x ≤ y + c) (hbelow : c < y → y + c ≤ 2 * x) :
    |y - x| ≤ |c - x| := by
  rcases lt_trichotomy c y with h | rfl | h
  · have hmiddle := hbelow h
    rw [abs_of_neg (a := c - x) (by linarith), abs_le]
    constructor <;> linarith
  · exact le_rfl
  · have hmiddle := habove h
    rw [abs_of_pos (a := c - x) (by linarith), abs_le]
    constructor <;> linarith

/-- Two different numbers are as near to `x` only when `x` is their middle. -/
theorem middle_of_abs_sub_eq {x y c : ℚ} (hne : c ≠ y) (h : |y - x| = |c - x|) : 2 * x = y + c := by
  rcases abs_eq_abs.mp h with h | h
  · exact absurd (by linarith) hne
  · linarith

theorem toNat_f64_mod_two {r : Ratio} (h : 0 < r.den) (hf : F64.finite (f64 r)) :
    (f64 r).toNat % 2 = significand r % 2 := by
  rw [(units_f64 h hf).1]
  omega

/-- At a tie with another number the result is even: the other number is exactly one quantum away. -/
theorem even_of_middle {r : Ratio} {c : F64} (h : 0 < r.den) (hf : F64.finite (f64 r))
    (hne : F64.units c ≠ F64.units (f64 r))
    (hmiddle : 2 * (r.num * 2 ^ F64.unitExp) = (F64.units (f64 r) + F64.units c) * r.den) :
    (f64 r).toNat % 2 = 0 := by
  obtain ⟨hnear, hnear'⟩ := f64_near h hf
  have hsig : F64.units (f64 r) * r.den = significand r * (r.den * 2 ^ F64.excessBits r) := by
    rw [(units_f64 h hf).2]
    ring
  rw [toNat_f64_mod_two h hf]
  refine roundHalfEven_tie (Nat.mul_pos h (Nat.two_pow_pos _)) ?_
  change _ = 2 * (significand r * _) + _ ∨ 2 * (significand r * _) = _
  rw [← hsig]
  rw [Nat.add_mul] at hmiddle
  rcases hne.lt_or_gt with hlt | hgt
  · right
    have hc := Nat.mul_lt_mul_of_pos_right hlt h
    have hgap := Nat.mul_le_mul_right r.den
      ((units_add_quantum_le_f64 h hf hlt).resolve_right (by omega))
    rw [Nat.add_mul, Nat.mul_comm (2 ^ F64.excessBits r)] at hgap
    omega
  · left
    have hgap := Nat.mul_le_mul_right r.den (units_f64_add_quantum_le h hf hgt)
    rw [Nat.add_mul, Nat.mul_comm (2 ^ F64.excessBits r)] at hgap
    omega

/-! ## Overflow (log 12) -/

section
variable {r : Ratio} {k : Nat} (h : 0 < r.den)
  (hle : (2 ^ 54 - 1) * (r.den * 2 ^ k) ≤ 2 * (r.num * 2 ^ F64.unitExp))
include h hle

theorem le_excessBits_of_overflow : k ≤ F64.excessBits r := by
  by_contra hlt
  have hupper : r.num * 2 ^ F64.unitExp < 2 ^ 52 * (r.den * 2 ^ k) := by
    calc _ < 2 ^ (53 + F64.excessBits r) * r.den := (excessBits_bounds h).1
      _ ≤ 2 ^ (52 + k) * r.den := Nat.mul_le_mul_right _ (Nat.pow_le_pow_right two_pos (by omega))
      _ = _ := by rw [Nat.pow_add]; ring
  omega

/-- At the middle itself the tie goes to the even significand `2^53`. -/
theorem two_pow_le_significand_of_overflow (hk : F64.excessBits r = k) : 2 ^ 53 ≤ significand r := by
  have hpos : 0 < r.den * 2 ^ k := Nat.mul_pos h (Nat.two_pow_pos k)
  have hnear := (roundHalfEven_near (num := r.num * 2 ^ F64.unitExp) hpos).1
  have htie := roundHalfEven_tie (num := r.num * 2 ^ F64.unitExp) hpos
  have hsig : roundHalfEven (r.num * 2 ^ F64.unitExp) (r.den * 2 ^ k) = significand r := by rw [significand, hk]
  rw [hsig] at hnear htie
  generalize r.num * 2 ^ F64.unitExp = n at hle hnear htie
  generalize r.den * 2 ^ k = d at hle hnear htie hpos
  by_contra hlt
  have hmax := Nat.mul_le_mul_right d (show significand r ≤ 2 ^ 53 - 1 by omega)
  have heq : significand r = 2 ^ 53 - 1 := Nat.eq_of_mul_eq_mul_right hpos (by omega)
  have heven := htie (.inl (by omega))
  omega

end

/-- From the middle of the largest number and the next power of two on, the result is infinity. -/
theorem toNat_f64_of_overflow {r : Ratio} {k : Nat} (hk : k = 2045) (h : 0 < r.den)
    (hle : (2 ^ 54 - 1) * (r.den * 2 ^ k) ≤ 2 * (r.num * 2 ^ F64.unitExp)) : (f64 r).toNat = F64.infinityBits := by
  have hinf : F64.infinityBits = 2045 * 2 ^ 52 + 2 ^ 53 := by norm_num [F64.infinityBits]
  rw [f64_toNat, min_eq_right_iff, hinf]
  rcases (le_excessBits_of_overflow h hle).eq_or_lt with heq | hlt
  · have hsig := two_pow_le_significand_of_overflow h hle heq.symm
    omega
  · have hsig := le_significand h (by omega)
    omega

/-- Settles O49: a fraction lies on its result's side of every middle, and at a middle the result is even. -/
theorem roundingIsNearestEven : Obligations.RoundingIsNearestEven := by
  refine fun r h => ⟨fun hlt => ?_, fun hge => ?_⟩
  · have hf := f64_finite_of_lt h ((toRat_lt_overflow_iff h).mp hlt)
    refine ⟨hf, fun c _ => abs_sub_le_of_middle (toRat_le_middle h hf) (middle_le_toRat h hf),
      fun c hc hne heq => ?_⟩
    have hvalue : F64.toRat c ≠ F64.toRat (f64 r) := fun he => hne (toRat_injective hc hf he)
    have hmiddle := middle_of_abs_sub_eq hvalue heq
    refine even_of_middle h hf (fun he => hne (units_injective hc hf he)) (le_antisymm ?_ ?_)
    · exact (two_mul_toRat_le_iff h _ _).mp hmiddle.le
    · exact (le_two_mul_toRat_iff h _ _).mp hmiddle.ge
  · have hle := not_lt.mp ((toRat_lt_overflow_iff h).not.mp (not_lt.mpr hge))
    refine toNat_f64_of_overflow rfl h ?_
    rwa [Nat.mul_assoc, Nat.mul_comm _ r.den, Nat.mul_comm _ 2] at hle

/-! ## The logarithm where the search settles (R150, log 13) -/

/-- Settles O50: each series of atanh is enclosed by its partial sum and that sum with the tail. -/
theorem logBoundsEncloseTheLogarithm : Obligations.LogBoundsEncloseTheLogarithm :=
  fun _ n _ h => log_mem_bounds h n

/-- Where both bounds of a number round alike and the number is no middle, the result is strictly the nearest. -/
theorem abs_sub_lt_of_bounds {lo hi : Ratio} {x : ℝ} (hlo : 0 < lo.den) (hhi : 0 < hi.den) (hsame : f64 lo = f64 hi)
    (hf : F64.finite (f64 lo)) (hlower : ((lo.toRat : ℚ) : ℝ) ≤ x) (hupper : x ≤ ((hi.toRat : ℚ) : ℝ))
    (hmiddle : ∀ a b : F64, 2 * x ≠ F64.toRat a + F64.toRat b) {c : F64} (hc : F64.finite c) (hne : c ≠ f64 lo) :
    |(F64.toRat (f64 lo) : ℝ) - x| < |(F64.toRat c : ℝ) - x| := by
  have hdistinct : F64.toRat c ≠ F64.toRat (f64 lo) := fun h => hne (toRat_injective hc hf h)
  rcases hdistinct.lt_or_gt with hlt | hgt
  · have hbelow : (F64.toRat (f64 lo) + F64.toRat c : ℝ) ≤ 2 * lo.toRat := by
      exact_mod_cast middle_le_toRat hlo hf hlt
    have hstrict := lt_of_le_of_ne (hbelow.trans (by linarith)) (hmiddle _ _).symm
    have hlt : (F64.toRat c : ℝ) < F64.toRat (f64 lo) := by exact_mod_cast hlt
    rw [abs_of_neg (a := (F64.toRat c : ℝ) - _) (by linarith), abs_lt]
    constructor <;> linarith
  · rw [hsame] at hgt hf ⊢
    have habove : (2 * hi.toRat : ℝ) ≤ F64.toRat (f64 hi) + F64.toRat c := by
      exact_mod_cast toRat_le_middle hhi hf hgt
    have hstrict := lt_of_le_of_ne (le_trans (by linarith) habove) (hmiddle _ _)
    have hgt : (F64.toRat (f64 hi) : ℝ) < F64.toRat c := by exact_mod_cast hgt
    rw [abs_of_pos (a := (F64.toRat c : ℝ) - _) (by linarith), abs_lt]
    constructor <;> linarith

/-- The lower bound of the logarithm of any finite number is in range. -/
theorem f64_lnLower_finite {a : F64} (ha : F64.finite a) (h1 : 1 ≤ F64.toRat a) (n : Nat) :
    F64.finite (f64 (lnLower a n)) := by
  have hbinade : (a.binade : ℝ) ≤ 1023 := by exact_mod_cast binade_le ha
  have hle : (((lnLower a n).toRat : ℚ) : ℝ) ≤ 2 ^ 10 := by
    linarith [(log_mem_bounds h1 n).1, log_le h1]
  obtain ⟨hf, hv⟩ := toRat_f64OfNat_two_pow (p := 10) (by norm_num)
  exact (f64_le (lnLower_den_pos a n) hf (hv ▸ by exact_mod_cast hle)).1

/-- Settles O51: the logarithm above 1 is irrational, so it is no middle; at 1 it is the result. -/
theorem settledLogIsCorrectlyRounded : Obligations.SettledLogIsCorrectlyRounded := by
  intro a k ha h1 hk hsettled
  obtain ⟨j, hj, hanswer⟩ := lnSearch_settled a lnDoublings lnFirstTerms ⟨k, hk, hsettled⟩
  have hanswer : ln64 a = f64 (lnLower a (lnFirstTerms * 2 ^ j)) := hanswer
  have hf := f64_lnLower_finite ha h1 (lnFirstTerms * 2 ^ j)
  refine ⟨hanswer ▸ hf, fun c hc hne => ?_⟩
  rcases h1.eq_or_lt with h | h
  · rw [eq_one_of_toRat ha h.symm, ln64_one] at hne ⊢
    have hzero : F64.finite 0 := by unfold F64.finite; decide
    have hpos : F64.toRat c ≠ 0 := fun h0 => hne (toRat_injective hc hzero (h0.trans toRat_zero.symm))
    rw [toRat_one, toRat_zero, Rat.cast_one, Real.log_one, Rat.cast_zero, sub_self, abs_zero, sub_zero, abs_pos]
    exact_mod_cast hpos
  · rw [hanswer] at hne ⊢
    obtain ⟨hlower, hupper⟩ := log_mem_bounds h1 (lnFirstTerms * 2 ^ j)
    exact abs_sub_lt_of_bounds (lnLower_den_pos a _) (lnUpper_den_pos a _) (by simpa [lnSettled] using hj) hf hlower
      hupper (two_mul_log_ne h) hc hne

/-- Settles O52: above 1 the result is at least `2^-53`. -/
theorem logOfOneIsZeroAndElsePositive : Obligations.LogOfOneIsZeroAndElsePositive := by
  refine ⟨ln64_one, fun a _ h1 h2 => ?_⟩
  obtain ⟨hfinite, hlower, -⟩ := ln64_bounds h1 h2
  exact ⟨hfinite, lt_of_lt_of_le (by positivity) hlower⟩

end Sys2Proof.Machine
end
